-- ==== Sys2Proof/Word.lean ====
section
/-! DEFINITION. The words of the block: `u8` and `u32` (00_scope.md R6). -/

namespace Sys2Proof

/-- `u8`: a channel value, a tag byte, an operand byte, a byte of memory (R6, R7). -/
abbrev Byte := BitVec 8

/-- `u32`: a host-visible register, a width, a height (R6, R31). -/
abbrev Word := BitVec 32

end Sys2Proof
end

