-- ==== Sys2Proof/Config.lean ====
section
/-! DEFINITION. The fixed parameters of the block (00_scope.md R5) and its free values.
The two OPEN parameters of R5, `REG_BASE` and `MEM_OK`, are plain data of State (log 3, log 4). -/

namespace Sys2Proof.Config

/-- `CACHE_SLOTS` (R5, R23). -/
abbrev cacheSlots : Nat := 64

/-- `RUN_MAX`: the most pixels one RUN chunk codes (R5, R193). -/
abbrev runMax : Nat := 62

/-- `HEADER_LEN` (R5, R89). -/
abbrev headerLen : Nat := 14

/-- `MARKER_LEN` (R5, R90). -/
abbrev markerLen : Nat := 8

/-- The first address past system memory: `2^32` (R5 `ADDR_WIDTH`, R60). -/
def addressEnd : Nat := 4294967296

/-- The size in bytes of the register window (R31). -/
abbrev windowLen : Nat := 64

/-- DESIGN CHOICE (log 2, unsafe): what a byte of system memory that nothing has written reads as.
The spec gives system memory no contents of its own. -/
def unlistedByte : Byte := 0

/-- FREE VALUE (log 7, log 8, log 9, safe): draw number `draw` of an unspecified byte at address `addr`
(R261, R290, R71: "any value").  It has no body: nothing can be proved of its value. -/
opaque freeByte : (draw addr : Nat) → Byte

end Sys2Proof.Config
end

