-- ==== Sys2Proof/Syntax.lean ====
section
/-! DEFINITION. The instructions: one constructor for each row of spec/opcode_table.json. The chunks are the
decoder's program (30_encoding.md, 10_state.md R30), the two framing items stand round it (R89, R90), and the
commands are the host's `CTRL` writes with START = 1 (R87). -/

namespace Sys2Proof

/-- One instruction. Signed operands are mathematical integers, as R83 says. -/
inductive Instr where
  /-- RGB: the chunk RAW_RGB (R160, R161). -/
  | rgb (r g b : Byte)
  /-- RGBA: the chunk RAW_RGBA (R162, R163). -/
  | rgba (r g b a : Byte)
  /-- INDEX: the chunk INDEX, naming a cache slot (R164, R165). -/
  | index (idx : Fin 64)
  /-- DIFF: the chunk DIFF, three small deltas (R166, R167). -/
  | diff (dr dg db : Int)
  /-- LUMA: the chunk LUMA, green delta and the red and blue deltas less the green one (R168, R169). -/
  | luma (dg drg dbg : Int)
  /-- RUN: the chunk RUN, a repeat count (R170, R171). -/
  | run (n : Nat)
  /-- HDR: the stream header (R89, R140, R141). The magic is the item's fixed part, not an operand (R88). -/
  | hdr (w h : Word) (c cs : Byte)
  /-- END: the end marker (R90, R143, R144). -/
  | endMarker
  /-- ENCODE: a `CTRL` write with START = 1 and CMD = 0 (R87, R241). -/
  | encodeCmd (irqEn : Bool)
  /-- DECODE: a `CTRL` write with START = 1 and CMD = 1 (R87, R241). -/
  | decodeCmd (irqEn : Bool)
  /-- reserved_command: a `CTRL` write with START = 1 and CMD = 2 or 3 (R87, R241, R242). -/
  | reservedCmd (cmd : BitVec 2) (irqEn : Bool)
  deriving DecidableEq, Repr

/-- Where an item stands: the decoder tells header, chunk and marker apart by position, not by pattern (R84);
a command is a write to the register `CTRL` (R87). -/
inductive Place where
  | header | chunk | tail | ctrl
  deriving DecidableEq, Repr

/-- The place an instruction stands at. -/
def Instr.place : Instr → Place
  | .rgb _ _ _ => .chunk
  | .rgba _ _ _ _ => .chunk
  | .index _ => .chunk
  | .diff _ _ _ => .chunk
  | .luma _ _ _ => .chunk
  | .run _ => .chunk
  | .hdr _ _ _ _ => .header
  | .endMarker => .tail
  | .encodeCmd _ => .ctrl
  | .decodeCmd _ => .ctrl
  | .reservedCmd _ _ => .ctrl

/-- The bytes an instruction takes (R84, R89, R90; a command is one 32-bit word, R87). -/
def Instr.length : Instr → Nat
  | .rgb _ _ _ => 4
  | .rgba _ _ _ _ => 5
  | .index _ => 1
  | .diff _ _ _ => 1
  | .luma _ _ _ => 2
  | .run _ => 1
  | .hdr _ _ _ _ => 14
  | .endMarker => 8
  | .encodeCmd _ => 4
  | .decodeCmd _ => 4
  | .reservedCmd _ _ => 4

end Sys2Proof
end

