-- ==== Sys2Proof/WellFormed.lean ====
section
/-! DEFINITION. Which instructions are well formed: every operand within the range its field holds
(30_encoding.md R83, R85, R89). -/

namespace Sys2Proof

/-- `lo ≤ v ≤ hi`, the range of a biased field (R83). -/
def inRange (lo hi v : Int) : Bool := decide (lo ≤ v) && decide (v ≤ hi)

/-- The channel counts of R89: 3 (RGB) and 4 (RGBA). -/
def legalChannels (c : Byte) : Bool := c == 3 || c == 4

/-- The colorspace flags of R89: 0 and 1. -/
def legalColorspace (cs : Byte) : Bool := cs == 0 || cs == 1

/-- Operands within the ranges of R83; the header's fields legal (R85, R89); the reserved commands are CMD 2 and 3 (R87). -/
def Instr.wf : Instr → Bool
  | .rgb _ _ _ => true
  | .rgba _ _ _ _ => true
  | .index _ => true
  | .diff dr dg db => inRange (-2) 1 dr && inRange (-2) 1 dg && inRange (-2) 1 db
  | .luma dg drg dbg => inRange (-32) 31 dg && inRange (-8) 7 drg && inRange (-8) 7 dbg
  | .run n => decide (1 ≤ n) && decide (n ≤ 62)
  | .hdr w h c cs => w != 0 && h != 0 && legalChannels c && legalColorspace cs
  | .endMarker => true
  | .encodeCmd _ => true
  | .decodeCmd _ => true
  | .reservedCmd cmd _ => cmd == 2 || cmd == 3

end Sys2Proof
end

