-- ==== Sys2Proof/Decode.lean ====
section
/-! DEFINITION. The decoder (30_encoding.md R81 to R90), total on any bytes, then the encoder, the serialize rules
R161 to R171, R140 and R143, written from the same layouts. -/

namespace Sys2Proof

/-! ### Fields and byte order -/

/-- A big-endian `u32`, most significant byte first (R62, R89). -/
def beWord (b3 b2 b1 b0 : Byte) : Word := b3 ++ b2 ++ b1 ++ b0

/-- The four bytes of a big-endian `u32`, in stream order (R62, R89). -/
def beBytes (w : Word) : List Byte :=
  [w.extractLsb' 24 8, w.extractLsb' 16 8, w.extractLsb' 8 8, w.extractLsb' 0 8]

/-- A stored field less its bias, a mathematical integer (R83). -/
def unbias {n : Nat} (field : BitVec n) (bias : Int) : Int := (field.toNat : Int) - bias

/-- An operand plus its bias, as an unsigned field of `n` bits (R83). -/
def biased (n : Nat) (v bias : Int) : BitVec n := BitVec.ofInt n (v + bias)

/-- The magic `q o i f` (R89). -/
def magicBytes : List Byte := [0x71, 0x6F, 0x69, 0x66]

/-- The end marker, seven `0x00` bytes followed by one `0x01` byte (R90). -/
def markerBytes : List Byte := [0, 0, 0, 0, 0, 0, 0, 1]

/-! ### Decoding -/

/-- The six chunk types. -/
inductive ChunkKind where
  | rgb | rgba | index | diff | luma | run
  deriving DecidableEq, Repr

/-- R82: the first byte selects the type, the two full-byte tags before the 2-bit tags. -/
def classify (t : Byte) : ChunkKind :=
  if t = 0xFE then .rgb
  else if t = 0xFF then .rgba
  else if t.extractLsb' 6 2 = 0b00#2 then .index
  else if t.extractLsb' 6 2 = 0b01#2 then .diff
  else if t.extractLsb' 6 2 = 0b10#2 then .luma
  else .run

/-- R84: a chunk's length is fixed by its first byte. -/
def ChunkKind.length : ChunkKind → Nat
  | .rgb => 4
  | .rgba => 5
  | .index => 1
  | .diff => 1
  | .luma => 2
  | .run => 1

/-- Why bytes are no instruction, by name. -/
inductive DecodeError where
  /-- Fewer bytes than the item takes (R141, R160, R162, R168, R211). -/
  | truncated
  /-- Header bytes 0 to 3 are not the magic (R142). -/
  | badMagic
  /-- The eight bytes are not the end marker, or fewer than eight are left (R144). -/
  | badMarker
  /-- A `CTRL` write with START = 0: it is no command (R87, R241). -/
  | noStart
  deriving DecidableEq, Repr

/-- What the decoder reads: an instruction and the bytes after it, or a rejection. -/
inductive Decoded where
  | instr (i : Instr) (rest : List Byte)
  | reject (e : DecodeError)
  deriving DecidableEq, Repr

/-- INDEX: bits [5:0] are the slot (R83). -/
def decodeIndex (t : Byte) : Instr := .index (t.extractLsb' 0 6).toFin

/-- DIFF: three 2-bit fields with bias 2 (R83). -/
def decodeDiff (t : Byte) : Instr :=
  .diff (unbias (t.extractLsb' 4 2) 2) (unbias (t.extractLsb' 2 2) 2) (unbias (t.extractLsb' 0 2) 2)

/-- LUMA: a 6-bit field with bias 32 and two 4-bit fields with bias 8, red the high nibble (R81, R83). -/
def decodeLuma (t u : Byte) : Instr :=
  .luma (unbias (t.extractLsb' 0 6) 32) (unbias (u.extractLsb' 4 4) 8) (unbias (u.extractLsb' 0 4) 8)

/-- RUN: bits [5:0] are the run length less 1 (R83). -/
def decodeRun (t : Byte) : Instr := .run ((t.extractLsb' 0 6).toNat + 1)

/-- A chunk at the head of the bytes (R81 to R84). -/
def decodeChunk : List Byte → Decoded
  | [] => .reject .truncated
  | t :: more =>
    match classify t, more with
    | .rgb, r :: g :: b :: rest => .instr (.rgb r g b) rest
    | .rgba, r :: g :: b :: a :: rest => .instr (.rgba r g b a) rest
    | .index, rest => .instr (decodeIndex t) rest
    | .diff, rest => .instr (decodeDiff t) rest
    | .luma, u :: rest => .instr (decodeLuma t u) rest
    | .run, rest => .instr (decodeRun t) rest
    | .rgb, _ => .reject .truncated
    | .rgba, _ => .reject .truncated
    | .luma, _ => .reject .truncated

/-- The header at the head of the bytes (R89): its fixed part is the magic; R142's checks of the operand values are
the meaning's. -/
def decodeHeader : List Byte → Decoded
  | m0 :: m1 :: m2 :: m3 :: w3 :: w2 :: w1 :: w0 :: h3 :: h2 :: h1 :: h0 :: c :: cs :: rest =>
    if [m0, m1, m2, m3] = magicBytes then .instr (.hdr (beWord w3 w2 w1 w0) (beWord h3 h2 h1 h0) c cs) rest
    else .reject .badMagic
  | _ => .reject .truncated

/-- The end marker at the head of the bytes (R90, R144). -/
def decodeMarker (bs : List Byte) : Decoded :=
  if bs.take 8 = markerBytes then .instr .endMarker (bs.drop 8) else .reject .badMarker

/-- A `CTRL` write (R87): bit 0 START, bits [2:1] CMD, bit 3 IRQ_EN, bits [31:4] ignored. -/
def decodeCtrl (v : Word) : Decoded :=
  if v.getLsbD 0 then
    if v.extractLsb' 1 2 = 0b00#2 then .instr (.encodeCmd (v.getLsbD 3)) []
    else if v.extractLsb' 1 2 = 0b01#2 then .instr (.decodeCmd (v.getLsbD 3)) []
    else .instr (.reservedCmd (v.extractLsb' 1 2) (v.getLsbD 3)) []
  else .reject .noStart

/-- The decoder, at a place. At `ctrl` the four bytes are the written word's, least significant first, which is how the
opcode table numbers its bits; no byte lane of the window is meant (R64; log 20). -/
def decode : Place → List Byte → Decoded
  | .header, bs => decodeHeader bs
  | .chunk, bs => decodeChunk bs
  | .tail, bs => decodeMarker bs
  | .ctrl, b0 :: b1 :: b2 :: b3 :: rest =>
    match decodeCtrl (beWord b3 b2 b1 b0) with
    | .instr i _ => .instr i rest
    | .reject e => .reject e
  | .ctrl, _ => .reject .truncated

/-! ### Encoding -/

/-- The low four bits of a command word: IRQ_EN, CMD, START (R87); the ignored bits are written 0. -/
def ctrlWord (cmd : BitVec 2) (irqEn : Bool) : Word := 0#28 ++ BitVec.ofBool irqEn ++ cmd ++ 1#1

/-- The bytes of a word, least significant first (log 20). -/
def leBytes (w : Word) : List Byte :=
  [w.extractLsb' 0 8, w.extractLsb' 8 8, w.extractLsb' 16 8, w.extractLsb' 24 8]

/-- The encoder: the chunk serializer and the framer (R161, R163, R165, R167, R169, R171, R140, R143), and the command
words (R87). -/
def encode : Instr → List Byte
  | .rgb r g b => [0xFE, r, g, b]
  | .rgba r g b a => [0xFF, r, g, b, a]
  | .index idx => [0b00#2 ++ BitVec.ofFin (w := 6) idx]
  | .diff dr dg db => [0b01#2 ++ biased 2 dr 2 ++ biased 2 dg 2 ++ biased 2 db 2]
  | .luma dg drg dbg => [0b10#2 ++ biased 6 dg 32, biased 4 drg 8 ++ biased 4 dbg 8]
  | .run n => [0b11#2 ++ biased 6 n (-1)]
  | .hdr w h c cs => magicBytes ++ beBytes w ++ beBytes h ++ [c, cs]
  | .endMarker => markerBytes
  | .encodeCmd irqEn => leBytes (ctrlWord 0b00#2 irqEn)
  | .decodeCmd irqEn => leBytes (ctrlWord 0b01#2 irqEn)
  | .reservedCmd cmd irqEn => leBytes (ctrlWord cmd irqEn)

/-! ### Words as spec/opcode_table.json numbers them -/

/-- `n` bytes of a number, the byte of bits 7..0 first. -/
def tableBytes : Nat → Nat → List Byte
  | 0, _ => []
  | n + 1, w => BitVec.ofNat 8 w :: tableBytes n (w / 256)

/-- Where a table row of `nbits` bits with bits `w` stands. The table's rows have 112 bits (HDR), 64 (END), 32 with
bit 0 = 1 (the commands, whose START is 1); the rest are chunks. The chunk of 32 bits, RGB, has tag 0xFE, whose bit 0
is 0, so no row falls under two (log 21). -/
def tablePlace (nbits w : Nat) : Place :=
  if nbits = 112 then .header
  else if nbits = 64 then .tail
  else if nbits = 32 ∧ w % 2 = 1 then .ctrl
  else .chunk

/-- The bytes of a table word: its own, and zeros up to the longest item. -/
def tableItem (nbits w : Nat) : List Byte := tableBytes (max 14 (nbits / 8)) (w % 2 ^ nbits)

/-- The instruction the decoder reads from a table word. -/
def decodeTableWord (nbits w : Nat) : Option Instr :=
  match decode (tablePlace nbits w) (tableItem nbits w) with
  | .instr i _ => some i
  | .reject _ => none

end Sys2Proof
end

