-- ==== Sys2Proof/Machine/State.lean ====
section
/-! DEFINITION. The state of the block (10_state.md), the system memory it reads and writes, the host's moves, and the
reasons a step can stop. Everything is plain data. -/

namespace Sys2Proof.Machine

/-! ### Registers -/

/-- A pixel: four lanes of `u8` (R7). With three channels the alpha lane is no part of the pixel (R29; log 13). -/
structure Pixel where
  r : Byte
  g : Byte
  b : Byte
  a : Byte
  deriving DecidableEq, Repr

/-- The zero pixel `(0, 0, 0, 0)` of a fresh cache slot (R23). -/
def Pixel.zero : Pixel := ⟨0, 0, 0, 0⟩

/-- The seed `(0, 0, 0, 255)` of `PREV` (R22). -/
def Pixel.seed : Pixel := ⟨0, 0, 0, 255⟩

/-- The file `CACHE[0..63]` (R23). -/
abbrev Cache := Vector Pixel Config.cacheSlots

/-- A cache whose every slot is the zero pixel (R23). -/
def Cache.fresh : Cache := Vector.replicate Config.cacheSlots Pixel.zero

/-- `CTRL` (R32). START reads 0 always and holds nothing; bits [31:4] are reserved. -/
structure Ctrl where
  cmd : BitVec 2
  irqEn : Bool
  deriving DecidableEq, Repr

/-- `STATUS` (R33). Bits [31:3] are reserved. -/
structure Status where
  busy : Bool
  done : Bool
  err : Bool
  deriving DecidableEq, Repr

/-- `IMG_FORMAT` (R37). Bits [31:16] are reserved. -/
structure Format where
  channels : Byte
  colorspace : Byte
  deriving DecidableEq, Repr

/-- `PHASE` (R28). -/
inductive Phase where
  | idle | check | header | body | tail
  deriving DecidableEq, Repr

/-- `OP` (R28). -/
inductive Op where
  | enc | dec
  deriving DecidableEq, Repr

/-- The causes an operation can end in error for (R260). -/
inductive ErrCode where
  | badMagic | invalidChannels | invalidColorspace | zeroDimension | truncatedStream | missingEndMarker
  | pixelCountMismatch | valEmptyBuffer | valPixelCount | valChannels | valColorspace | valZeroDimension
  | capacityExceeded | illegalCommand | bufferFault | busError
  deriving DecidableEq, Repr

/-! ### System memory and the platform -/

/-- A range of addresses `lo ≤ a < hi` whose bytes are unspecified, with the number of its draw (log 7). -/
structure Unspec where
  lo : Nat
  hi : Nat
  draw : Nat
  deriving DecidableEq, Repr

/-- System memory (R60): the bytes that differ from `Config.unlistedByte`, addresses rising, and the ranges whose bytes
are unspecified. -/
structure Memory where
  cells : List Host.Cell
  unspec : List Unspec
  deriving DecidableEq, Repr

/-- Memory with nothing listed. -/
def Memory.empty : Memory := ⟨[], []⟩

/-- The kind of a memory access (R269). -/
inductive AccessKind where
  | read | write
  deriving DecidableEq, Repr

/-- A range of addresses `lo ≤ a < hi` at which the platform refuses one kind of access (R269; log 3). -/
structure Deny where
  lo : Nat
  hi : Nat
  kind : AccessKind
  deriving DecidableEq, Repr

/-- The platform's two OPEN parameters (R5): `REG_BASE`, and `MEM_OK` as the list of what it refuses. No step changes
them (log 3, log 4). -/
structure Platform where
  regBase : Nat
  deny : List Deny
  deriving DecidableEq, Repr

/-! ### The host -/

/-- One move of the host (R20). Window addresses are the host's own; `size` is the access's width in bytes. -/
inductive HostMove where
  /-- The host does nothing; the engine takes its step, if it has one. -/
  | wait
  /-- Hardware reset (R290). -/
  | reset
  /-- A write to the register window (R240). -/
  | regWrite (addr size : Nat) (v : Word)
  /-- A read of the register window (R246). -/
  | regRead (addr size : Nat)
  /-- A byte write to system memory (R249). -/
  | memWrite (addr : Word) (v : Byte)
  /-- A byte read of system memory (R249). -/
  | memRead (addr : Word)
  deriving DecidableEq, Repr

/-! ### Stops -/

/-- Why the machine stops with a fault. -/
inductive Fault where
  /-- Raised by `Machine.access` when the engine would access an address at or above `2^32`, which system memory does not
  have (R60). The checks of R243, R244 and R210 keep every state that a run from reset reaches from it. Safe: the model
  stops, and hardware never gets there (log 12). -/
  | noSuchAddress
  deriving DecidableEq, Repr

/-- Why a step is refused. -/
inductive Refusal where
  /-- Given by a refused arm of `exec` only: the instruction of this mnemonic has no meaning. Safe. No arm is refused. -/
  | notModelled (mnemonic : String)
  /-- Given by `Machine.hostStep` for a host access that is not an aligned 32-bit access inside the register window
  (R43, R65, U4: the model has no step). Safe (log 11). -/
  | windowAccess
  /-- Given by `Machine.hostStep` for a host write to a byte of the source or destination region while BUSY = 1 (R71, U9:
  the host has no such move). Safe for hosts that keep R71 (log 10). -/
  | hostWriteWhileBusy
  deriving DecidableEq, Repr

/-! ### The state -/

/-- The state of one block instance, of system memory, of the platform's parameters and of the host's queue. -/
structure State where
  /-- `CTRL` (R32). -/
  ctrl : Ctrl
  /-- `STATUS` (R33). -/
  status : Status
  /-- `ERRCODE.CODE` (R34). -/
  errcode : BitVec 5
  /-- `IMG_WIDTH` (R35). -/
  imgWidth : Word
  /-- `IMG_HEIGHT` (R36). -/
  imgHeight : Word
  /-- `IMG_FORMAT` (R37). -/
  imgFormat : Format
  /-- `SRC_BASE` (R38). -/
  srcBase : Word
  /-- `SRC_LEN` (R39). -/
  srcLen : Word
  /-- `DST_BASE` (R40). -/
  dstBase : Word
  /-- `DST_CAP` (R41). -/
  dstCap : Word
  /-- `OUT_LEN` (R42). -/
  outLen : Word
  /-- The interrupt output (R44). -/
  irq : Bool
  /-- `PREV` (R22). -/
  prev : Pixel
  /-- `CACHE` (R23). -/
  cache : Cache
  /-- `LW` (R24). -/
  lw : Word
  /-- `LH` (R24). -/
  lh : Word
  /-- `LC` (R24). -/
  lc : Byte
  /-- `LCS` (R24). -/
  lcs : Byte
  /-- `PIX`, an exact integer (R25, D29). -/
  pix : Nat
  /-- `RP`, an exact integer (R26, D29). -/
  rp : Nat
  /-- `WP`, an exact integer (R27, D29). -/
  wp : Nat
  /-- `PHASE` (R28). -/
  phase : Phase
  /-- `OP` (R28). -/
  op : Op
  /-- System memory (R60). -/
  mem : Memory
  /-- The platform's parameters (R5), which no step changes (log 3, log 4). -/
  platform : Platform
  /-- The model's own: the host's next moves, in order (R20, R292; log 5). -/
  host : List HostMove
  /-- The model's own: the value the last host read returned (R246; log 6). -/
  rdata : Word
  /-- The model's own: how many free values have been drawn (log 7). -/
  draws : Nat
  deriving DecidableEq, Repr

/-- The machine right after reset (R47, R290, R291). DESIGN CHOICE (log 1, unsafe): `PREV`, `CACHE`, `PIX`, `RP`, `WP`,
`LW`, `LH`, `LC`, `LCS` and `OP`, whose reset values the spec calls unspecified, hold 0 (ENC). DESIGN CHOICE (log 2 to
log 7): the fields that are not the block's own. -/
def State.reset : State where
  ctrl := ⟨0, false⟩
  status := ⟨false, false, false⟩
  errcode := 0
  imgWidth := 0
  imgHeight := 0
  imgFormat := ⟨0, 0⟩
  srcBase := 0
  srcLen := 0
  dstBase := 0
  dstCap := 0
  outLen := 0
  irq := false
  prev := Pixel.zero
  cache := Cache.fresh
  lw := 0
  lh := 0
  lc := 0
  lcs := 0
  pix := 0
  rp := 0
  wp := 0
  phase := .idle
  op := .enc
  mem := Memory.empty
  platform := ⟨0, []⟩
  host := []
  rdata := 0
  draws := 0

end Sys2Proof.Machine
end

