-- ==== Sys2Proof/Machine/Flags.lean ====
section
/-! DEFINITION. The flags: `STATUS`, the interrupt line computed from it (10_state.md R33, R44, 60_exceptions.md R264),
and the codes of `ERRCODE` (R260). The block has no condition codes, and no chunk sets a flag (R45). -/

namespace Sys2Proof.Machine

/-- R44: the level of the interrupt output. -/
def irqLevel (c : Ctrl) (st : Status) : Bool := c.irqEn && (st.done || st.err)

/-- The one way `CTRL` and `STATUS` are written: `irq` is recomputed with them (R44). -/
def State.setFlags (s : State) (c : Ctrl) (st : Status) : State :=
  { s with ctrl := c, status := st, irq := irqLevel c st }

/-- R260: the number of an error code. -/
def ErrCode.num : ErrCode → BitVec 5
  | .badMagic => 1
  | .invalidChannels => 2
  | .invalidColorspace => 3
  | .zeroDimension => 4
  | .truncatedStream => 5
  | .missingEndMarker => 6
  | .pixelCountMismatch => 7
  | .valEmptyBuffer => 8
  | .valPixelCount => 9
  | .valChannels => 10
  | .valColorspace => 11
  | .valZeroDimension => 12
  | .capacityExceeded => 13
  | .illegalCommand => 14
  | .bufferFault => 15
  | .busError => 16

/-- `STATUS` while an operation runs (R241). -/
def Status.running : Status := ⟨true, false, false⟩

end Sys2Proof.Machine
end

