-- ==== Sys2Proof/Machine/Memory.lean ====
section
/-! DEFINITION. The named operations over system memory (20_memory.md R60, R66): one byte read, one byte write, and
making a range unspecified (60_exceptions.md R261, 70_reset_and_hazards.md R290). -/

namespace Sys2Proof.Machine

/-! ### Listed cells -/

/-- The byte listed at an address, or `Config.unlistedByte`. -/
def cellAt : List Host.Cell → Nat → Byte
  | [], _ => Config.unlistedByte
  | (k, v) :: rest, a => if k = a then v else cellAt rest a

/-- A cell put before a list, left out where it says what an unlisted address says. -/
def consCell (a : Nat) (v : Byte) (rest : List Host.Cell) : List Host.Cell :=
  if v = Config.unlistedByte then rest else (a, v) :: rest

/-- The list with the byte at one address set; rising addresses stay rising. -/
def setCell : List Host.Cell → Nat → Byte → List Host.Cell
  | [], a, v => consCell a v []
  | (k, x) :: rest, a, v =>
    if a < k then consCell a v ((k, x) :: rest)
    else if a = k then consCell a v rest
    else (k, x) :: setCell rest a v

/-! ### Unspecified ranges -/

/-- Whether a range holds an address. -/
def Unspec.covers (u : Unspec) (a : Nat) : Bool := decide (u.lo ≤ a) && decide (a < u.hi)

/-- What is left of a range outside `lo ≤ a < hi`: a piece below, a piece above, each only if it holds a byte. -/
def Unspec.cut (lo hi : Nat) (u : Unspec) : List Unspec :=
  [(⟨u.lo, min u.hi lo, u.draw⟩ : Unspec), ⟨max u.lo hi, u.hi, u.draw⟩].filter fun p => decide (p.lo < p.hi)

/-- A range put into a list of ranges in order of address. -/
def insertUnspec (u : Unspec) : List Unspec → List Unspec
  | [] => [u]
  | x :: rest => if u.lo < x.lo then u :: x :: rest else x :: insertUnspec u rest

/-! ### Memory -/

/-- The byte at an address (R66): of an unspecified range, the free value of its draw (log 7), the same at every read;
otherwise what is listed. -/
def Memory.read (m : Memory) (a : Nat) : Byte :=
  match m.unspec.find? (fun u => u.covers a) with
  | some u => Config.freeByte u.draw a
  | none => cellAt m.cells a

/-- One byte written (R66): afterwards the address is in no unspecified range. -/
def Memory.write (m : Memory) (a : Nat) (v : Byte) : Memory where
  cells := setCell m.cells a v
  unspec := m.unspec.flatMap (Unspec.cut a (a + 1))

/-- Bytes written from an address up. -/
def Memory.writeBytes (m : Memory) (a : Nat) : List Byte → Memory
  | [] => m
  | b :: bs => (m.write a b).writeBytes (a + 1) bs

/-- Bytes read from an address up. -/
def Memory.readBytes (m : Memory) (a : Nat) : Nat → List Byte
  | 0 => []
  | n + 1 => m.read a :: m.readBytes (a + 1) n

/-- The range `lo ≤ a < hi`, as far as system memory goes, made unspecified by draw number `draw` (R261, R290). -/
def Memory.obscure (m : Memory) (lo hi draw : Nat) : Memory :=
  let hi := min hi Config.addressEnd
  if lo < hi then
    { cells := m.cells.filter fun c => decide (c.1 < lo) || decide (hi ≤ c.1)
      unspec := insertUnspec ⟨lo, hi, draw⟩ (m.unspec.flatMap (Unspec.cut lo hi)) }
  else m

/-- The canonical form: cells at rising addresses of system memory, none of them saying what an unlisted address says
and none in an unspecified range; unspecified ranges hold a byte each, lie inside system memory, rise and do not meet. -/
abbrev Memory.wf (m : Memory) : Prop :=
  (m.cells.Pairwise fun c d => c.1 < d.1) ∧
  (∀ c ∈ m.cells, c.1 < Config.addressEnd ∧ c.2 ≠ Config.unlistedByte ∧ ∀ u ∈ m.unspec, u.covers c.1 = false) ∧
  (m.unspec.Pairwise fun u v => u.hi ≤ v.lo) ∧
  (∀ u ∈ m.unspec, u.lo < u.hi ∧ u.hi ≤ Config.addressEnd)

end Sys2Proof.Machine
end

