-- ==== Sys2Proof/Machine/Operands.lean ====
section
/-! DEFINITION. The delta arithmetic unit (40_delta_unit.md), the recent-color cache (41_color_cache.md), and the pixel
each chunk gives (43_chunks.md): pure functions, shared by encoder and decoder. -/

namespace Sys2Proof.Machine

/-! ### Delta arithmetic unit -/

/-- R100: the canonical wraparound delta, a mathematical integer in [-128, 127]. -/
def wd (c p : Byte) : Int := ((c.toNat : Int) - (p.toNat : Int) + 128) % 256 - 128

/-- R101: the three color deltas of two pixels. -/
structure Delta where
  dr : Int
  dg : Int
  db : Int
  deriving DecidableEq, Repr

/-- R101: lane by lane, nothing carried between lanes. -/
def delta (q p : Pixel) : Delta := ⟨wd q.r p.r, wd q.g p.g, wd q.b p.b⟩

/-- R101: alpha counts as the same when there is none. -/
def alphaSame (c : Byte) (q p : Pixel) : Bool := c == 3 || q.a == p.a

/-- `lo ≤ v ≤ hi` on mathematical integers. -/
def within (lo hi v : Int) : Bool := decide (lo ≤ v) && decide (v ≤ hi)

/-- R102: the DIFF eligibility test. -/
def diffOk (c : Byte) (q p : Pixel) : Bool :=
  alphaSame c q p && within (-2) 1 (delta q p).dr && within (-2) 1 (delta q p).dg && within (-2) 1 (delta q p).db

/-- R103: the LUMA eligibility test; the differences of deltas are mathematical. -/
def lumaOk (c : Byte) (q p : Pixel) : Bool :=
  alphaSame c q p && within (-32) 31 (delta q p).dg &&
    within (-8) 7 ((delta q p).dr - (delta q p).dg) && within (-8) 7 ((delta q p).db - (delta q p).dg)

/-- R104: addition modulo 256. -/
def add8 (x : Byte) (d : Int) : Byte := BitVec.ofInt 8 ((x.toNat : Int) + d)

/-! ### Recent-color cache -/

/-- R7: equality over the lanes that are part of the pixel. -/
def eqC (c : Byte) (p q : Pixel) : Bool := p.r == q.r && p.g == q.g && p.b == q.b && (c == 3 || p.a == q.a)

/-- R120: the hash sum before reduction; the alpha term is there only with four channels. -/
def hashSum (c : Byte) (p : Pixel) : Nat :=
  p.r.toNat * 3 + p.g.toNat * 5 + p.b.toNat * 7 + (if c = 3 then 0 else p.a.toNat * 11)

/-- R120: the slot of a pixel. -/
def indexOf (c : Byte) (p : Pixel) : Fin 64 := ⟨hashSum c p % 64, Nat.mod_lt _ (by decide)⟩

/-- A slot of the cache (R23). -/
def slot (k : Cache) (i : Fin 64) : Pixel := k[i]

/-- R121: the direct-mapped check of the pixel's own slot. -/
def lookup (c : Byte) (k : Cache) (p : Pixel) : Option (Fin 64) :=
  if eqC c (slot k (indexOf c p)) p then some (indexOf c p) else none

/-- R122: the pixel written into its own slot, all four lanes, unconditionally. -/
def update (c : Byte) (k : Cache) (p : Pixel) : Cache := k.set (indexOf c p) p

/-! ### The pixel a chunk gives -/

/-- R160: alpha is the previous pixel's. -/
def rgbPixel (prev : Pixel) (r g b : Byte) : Pixel := ⟨r, g, b, prev.a⟩

/-- R162: with three channels the alpha byte goes into a lane that is not architectural. -/
def rgbaPixel (r g b a : Byte) : Pixel := ⟨r, g, b, a⟩

/-- R164: the slot copied verbatim, all four lanes. -/
def indexPixel (k : Cache) (idx : Fin 64) : Pixel := slot k idx

/-- R166: the deltas added to the previous pixel modulo 256, alpha unchanged. -/
def diffPixel (prev : Pixel) (dr dg db : Int) : Pixel := ⟨add8 prev.r dr, add8 prev.g dg, add8 prev.b db, prev.a⟩

/-- R168: the whole sum reduced modulo 256 (90_conflicts.md C4), alpha unchanged. -/
def lumaPixel (prev : Pixel) (dg drg dbg : Int) : Pixel :=
  ⟨add8 prev.r (dg + drg), add8 prev.g dg, add8 prev.b (dg + dbg), prev.a⟩

/-- R170: the previous pixel. -/
def runPixel (prev : Pixel) : Pixel := prev

/-! ### Pixels in memory -/

/-- R63, R212: the bytes of a pixel, red first, alpha only with four channels. -/
def pixelBytes (c : Byte) (p : Pixel) : List Byte := if c = 4 then [p.r, p.g, p.b, p.a] else [p.r, p.g, p.b]

/-- The bytes of `n` copies of a pixel (R212). -/
def copyBytes (c : Byte) (p : Pixel) : Nat → List Byte
  | 0 => []
  | n + 1 => pixelBytes c p ++ copyBytes c p n

/-- R191: the pixel of the bytes read; with three channels the alpha lane holds 255, which is not architectural (R29). -/
def pixelOf (c r g b a : Byte) : Pixel := if c = 4 then ⟨r, g, b, a⟩ else ⟨r, g, b, 255⟩

/-! ### Chunk choice -/

/-- R194: RAW_RGB exactly when alpha is unchanged or absent. -/
def rawChunk (c : Byte) (prev p : Pixel) : Instr :=
  if c = 3 ∨ p.a = prev.a then .rgb p.r p.g p.b else .rgba p.r p.g p.b p.a

/-- R192 steps 2 to 5: the chunk of a pixel that is no run, in the mandatory order INDEX, DIFF, LUMA, RAW. -/
def selectChunk (c : Byte) (prev : Pixel) (k : Cache) (p : Pixel) : Instr :=
  match lookup c k p with
  | some idx => .index idx
  | none =>
    if diffOk c p prev then .diff (delta p prev).dr (delta p prev).dg (delta p prev).db
    else if lumaOk c p prev then
      .luma (delta p prev).dg ((delta p prev).dr - (delta p prev).dg) ((delta p prev).db - (delta p prev).dg)
    else rawChunk c prev p

end Sys2Proof.Machine
end

