-- ==== Sys2Proof/Machine/Ops.lean ====
section
/-! DEFINITION. The operations the meanings share: the engine's checked memory accesses (60_exceptions.md R269), pixel
reads (R191), emit (R196), emit_pixels (R212), the error ending (R261), the success completion (R247), START (R241) and
the reset of the block (R290). -/

namespace Sys2Proof.Machine

/-- What the block's step answers. -/
abbrev Outcome := Host.Outcome State Fault Refusal

/-- Why an engine step does not go through: `raise` of a code (R261), or a fault of the model. -/
inductive Stop where
  | raise (c : ErrCode)
  | fault (f : Fault)
  deriving DecidableEq, Repr

/-- `NPIX`, a mathematical integer (R24). -/
def State.npix (s : State) : Nat := s.lw.toNat * s.lh.toNat

/-! ### Memory accesses -/

/-- Whether the platform accepts an access: `MEM_OK(addr, kind)` (R269). -/
def Platform.memOk (p : Platform) (a : Nat) (k : AccessKind) : Bool :=
  !(p.deny.any fun d => d.kind == k && decide (d.lo ≤ a) && decide (a < d.hi))

/-- One engine access: an address system memory does not have is a fault of the model (log 12); a refused access raises
BUS_ERROR and does not take place (R269). -/
def access (p : Platform) (a : Nat) (k : AccessKind) : Except Stop Unit :=
  if Config.addressEnd ≤ a then .error (.fault .noSuchAddress)
  else if p.memOk a k then .ok () else .error (.raise .busError)

/-- `MemRead(a, 1)` (R8, R269). -/
def loadByte (s : State) (a : Nat) : Except Stop Byte := do
  access s.platform a .read
  return s.mem.read a

/-- `n` bytes read from `a` up. -/
def loadBytes (s : State) (a : Nat) : Nat → Except Stop (List Byte)
  | 0 => .ok []
  | n + 1 => do
    let b ← loadByte s a
    let bs ← loadBytes s (a + 1) n
    return b :: bs

/-- `MemWrite` of bytes from `a` up (R8, R269). -/
def storeBytes (p : Platform) (m : Memory) (a : Nat) : List Byte → Except Stop Memory
  | [] => .ok m
  | b :: bs => do
    access p a .write
    storeBytes p (m.write a b) (a + 1) bs

/-! ### How an operation ends -/

/-- Whether the operation may have written destination bytes: not before its first memory access, which no CHECK step
makes (R242, R70 (a); log 15). -/
def Phase.mayHaveWritten : Phase → Bool
  | .idle => false
  | .check => false
  | .header => true
  | .body => true
  | .tail => true

/-- The destination region made unspecified if the operation may have written to it (R261, R290; log 7, log 8). -/
def State.loseDestination (s : State) : State :=
  if s.phase.mayHaveWritten then
    { s with mem := s.mem.obscure s.dstBase.toNat (s.dstBase.toNat + s.dstCap.toNat) s.draws, draws := s.draws + 1 }
  else s

/-- `raise X` (R261): THE error ending, the block's only trap entry. Nothing of the step that raises it is written
(R262), so it takes the state before that step. `OUT_LEN`, `IMG_*` and the working registers keep their values. -/
def State.raise (s : State) (c : ErrCode) : State :=
  { (s.loseDestination.setFlags s.ctrl ⟨false, s.status.done, true⟩) with phase := .idle, errcode := c.num }

/-- The success completion (R247). -/
def State.complete (s : State) : State :=
  { (s.setFlags s.ctrl ⟨false, true, s.status.err⟩) with phase := .idle }

/-- An engine step's answer, from the state before it: a `raise` is an error ending (R261, R262). -/
def settle (s : State) : Except Stop State → Outcome
  | .ok t => .next t
  | .error (.raise c) => .next (s.raise c)
  | .error (.fault f) => .fault f

/-- Raise a code if a check fails. -/
def require (ok : Bool) (c : ErrCode) : Except Stop Unit := if ok then .ok () else .error (.raise c)

/-! ### How an operation begins -/

/-- START with a command (R241): not while BUSY = 1 (R240). -/
def State.start (s : State) (c : Ctrl) : State :=
  if s.status.busy then s
  else { (s.setFlags c Status.running) with errcode := 0, outLen := 0, phase := .check }

/-- The region check (R244), on mathematical integers. -/
def State.regionsOk (s : State) : Bool :=
  decide (s.srcBase.toNat + s.srcLen.toNat ≤ Config.addressEnd) &&
  decide (s.dstBase.toNat + s.dstCap.toNat ≤ Config.addressEnd) &&
  !(decide (0 < s.srcLen.toNat) && decide (0 < s.dstCap.toNat) &&
    decide (s.srcBase.toNat < s.dstBase.toNat + s.dstCap.toNat) &&
    decide (s.dstBase.toNat < s.srcBase.toNat + s.srcLen.toNat))

/-- Hardware reset (R290): every piece of the block's state to its value in R47, the working registers as at
`State.reset` (log 1, log 24); system memory is not touched, but what an abandoned operation may have written is
unspecified (log 8). -/
def State.resetBlock (s : State) : State :=
  { State.reset with
    mem := s.loseDestination.mem, draws := s.loseDestination.draws
    platform := s.platform, host := s.host, rdata := s.rdata }

/-! ### Pixels -/

/-- R191: the alpha byte, read only with four channels. -/
def loadAlpha (s : State) (a : Nat) : Except Stop Byte := if s.lc = 4 then loadByte s a else .ok 255

/-- The address of source pixel `i` (R63, R191). -/
def State.srcPixel (s : State) (i : Nat) : Nat := s.srcBase.toNat + i * s.lc.toNat

/-- R191: pixel `i` of the source buffer. -/
def loadPixel (s : State) (i : Nat) : Except Stop Pixel := do
  let r ← loadByte s (s.srcPixel i)
  let g ← loadByte s (s.srcPixel i + 1)
  let b ← loadByte s (s.srcPixel i + 2)
  let al ← loadAlpha s (s.srcPixel i + 3)
  return pixelOf s.lc r g b al

/-- R193's scan: the run's length, from `n` on, looking at most `fuel` pixels further. -/
def runScan (s : State) (p : Pixel) : Nat → Nat → Except Stop Nat
  | 0, n => .ok n
  | fuel + 1, n =>
    if s.pix + n < s.npix then do
      let q ← loadPixel s (s.pix + n)
      if eqC s.lc q p then runScan s p fuel (n + 1) else return n
    else .ok n

/-- R196: output with a capacity check, made before any byte is written. -/
def emit (s : State) (bs : List Byte) : Except Stop State := do
  require (decide (s.wp + bs.length ≤ s.dstCap.toNat)) .capacityExceeded
  let m ← storeBytes s.platform s.mem (s.dstBase.toNat + s.wp) bs
  return { s with mem := m, wp := s.wp + bs.length }

/-- R195: the cache and `PREV` after a chunk for pixel `p`, and `PIX` past the `n` pixels it codes. -/
def State.coded (s : State) (p : Pixel) (n : Nat) : State :=
  { s with cache := update s.lc s.cache p, prev := p, pix := s.pix + n }

/-- The address of destination pixel `i` (R63, R212). -/
def State.dstPixel (s : State) (i : Nat) : Nat := s.dstBase.toNat + i * s.lc.toNat

/-- One pixel of R212's loop. -/
def putPixel (s : State) (p : Pixel) : Except Stop State := do
  let m ← storeBytes s.platform s.mem (s.dstPixel s.pix) (pixelBytes s.lc p)
  return { s with mem := m, cache := update s.lc s.cache p, prev := p, pix := s.pix + 1 }

/-- R212's loop, `n` times. -/
def putPixels (p : Pixel) : Nat → State → Except Stop State
  | 0, s => .ok s
  | n + 1, s => do
    let t ← putPixel s p
    putPixels p n t

/-- R211 and R212: the pixels of a chunk written, then `RP` past the chunk. -/
def chunkStep (s : State) (p : Pixel) (n len : Nat) : Except Stop State := do
  require (decide (s.pix + n ≤ s.npix)) .pixelCountMismatch
  let t ← putPixels p n s
  return { t with rp := s.rp + len }

end Sys2Proof.Machine
end

