-- ==== Sys2Proof/Machine/Chunks.lean ====
section
/-! DEFINITION. The meanings of the six chunks (43_chunks.md, execute rules), run by the decoder's BODY step (45_decoder.md
R211). The chunk's bytes have been fetched and their count checked before (Machine/Decoder.lean; log 26). -/

namespace Sys2Proof.Machine

/-- RAW_RGB (R160): one pixel, 4 bytes. -/
def execRgb (r g b : Byte) (s : State) : Outcome := settle s (chunkStep s (rgbPixel s.prev r g b) 1 4)

/-- RAW_RGBA (R162): one pixel, 5 bytes. -/
def execRgba (r g b a : Byte) (s : State) : Outcome := settle s (chunkStep s (rgbaPixel r g b a) 1 5)

/-- INDEX (R164): one pixel, 1 byte. -/
def execIndex (idx : Fin 64) (s : State) : Outcome := settle s (chunkStep s (indexPixel s.cache idx) 1 1)

/-- DIFF (R166): one pixel, 1 byte. -/
def execDiff (dr dg db : Int) (s : State) : Outcome := settle s (chunkStep s (diffPixel s.prev dr dg db) 1 1)

/-- LUMA (R168): one pixel, 2 bytes. -/
def execLuma (dg drg dbg : Int) (s : State) : Outcome := settle s (chunkStep s (lumaPixel s.prev dg drg dbg) 1 2)

/-- RUN (R170): `n` copies of the previous pixel, 1 byte. -/
def execRun (n : Nat) (s : State) : Outcome := settle s (chunkStep s (runPixel s.prev) n 1)

end Sys2Proof.Machine
end

