-- ==== Sys2Proof/Machine/Commands.lean ====
section
/-! DEFINITION. The meanings of the commands, `CTRL` writes with START = 1 (46_commands.md R241, R240), and the engine's
CHECK step that begins every operation (R242 to R244). -/

namespace Sys2Proof.Machine

/-- ENCODE: CMD 0 started (R241). -/
def execEncodeCmd (irqEn : Bool) (s : State) : Outcome := .next (s.start ⟨0, irqEn⟩)

/-- DECODE: CMD 1 started (R241). -/
def execDecodeCmd (irqEn : Bool) (s : State) : Outcome := .next (s.start ⟨1, irqEn⟩)

/-- reserved_command: started like any (R241); its CHECK step raises ILLEGAL_COMMAND (R242). -/
def execReservedCmd (cmd : BitVec 2) (irqEn : Bool) (s : State) : Outcome := .next (s.start ⟨cmd, irqEn⟩)

/-- R243: encode validation, the first failing check raising. -/
def State.validateEncode (s : State) : Except Stop Unit := do
  require (s.imgFormat.channels == 3 || s.imgFormat.channels == 4) .valChannels
  require (s.imgFormat.colorspace == 0 || s.imgFormat.colorspace == 1) .valColorspace
  require (s.imgWidth != 0 && s.imgHeight != 0) .valZeroDimension
  require (s.srcLen != 0) .valEmptyBuffer
  require (decide (s.srcLen.toNat = s.imgWidth.toNat * s.imgHeight.toNat * s.imgFormat.channels.toNat)) .valPixelCount

/-- R190: the encoder initialised from the host's registers. -/
def State.beginEncode (s : State) : State :=
  { s with
    op := .enc, lw := s.imgWidth, lh := s.imgHeight, lc := s.imgFormat.channels, lcs := s.imgFormat.colorspace
    prev := Pixel.seed, cache := Cache.fresh, pix := 0, wp := 0, phase := .header }

/-- R242: the CHECK step. One that ends in error leaves `OP` as it was (R262; log 23). -/
def checkStep (s : State) : Outcome :=
  settle s
    (if s.ctrl.cmd = 0 then do
      s.validateEncode
      require s.regionsOk .bufferFault
      return s.beginEncode
    else if s.ctrl.cmd = 1 then do
      require s.regionsOk .bufferFault
      return { s with op := .dec, phase := .header }
    else .error (.raise .illegalCommand))

end Sys2Proof.Machine
end

