-- ==== Sys2Proof/Machine/Framing.lean ====
section
/-! DEFINITION. The meanings of the two framing items (42_framing.md), run by the decoder's HEADER and TAIL steps. -/

namespace Sys2Proof.Machine

/-- R210, with the fields of R141: the decoder initialised from a header. -/
def State.beginDecode (s : State) (w h : Word) (c cs : Byte) : State :=
  { s with
    lw := w, lh := h, lc := c, lcs := cs, rp := Config.headerLen
    prev := Pixel.seed, cache := Cache.fresh, pix := 0, phase := .body }

/-- HDR: checks 2 to 4 of R142 in their order (check 1, the magic, is the decoder's), then the capacity check and the
initialisation of R210. -/
def execHdr (w h : Word) (c cs : Byte) (s : State) : Outcome :=
  settle s do
    require (c == 3 || c == 4) .invalidChannels
    require (cs == 0 || cs == 1) .invalidColorspace
    require (w != 0 && h != 0) .zeroDimension
    require (decide (w.toNat * h.toNat * c.toNat ≤ s.dstCap.toNat)) .capacityExceeded
    return s.beginDecode w h c cs

/-- R213: the image's description and the pixel byte count in the result registers. -/
def State.reportImage (s : State) : State :=
  { s with
    imgWidth := s.lw, imgHeight := s.lh, imgFormat := ⟨s.lc, s.lcs⟩
    outLen := BitVec.ofNat 32 (s.npix * s.lc.toNat) }

/-- END: the marker has been verified (R144), `RP` passes it, the image is reported (R213), and the operation completes
(R247). -/
def execEndMarker (s : State) : Outcome :=
  .next ({ s with rp := s.rp + Config.markerLen } : State).reportImage.complete

end Sys2Proof.Machine
end

