-- ==== Sys2Proof/Machine/Dispatch.lean ====
section
/-! DEFINITION. One arm per instruction, each one call of its meaning. -/

namespace Sys2Proof.Machine

def exec (i : Instr) (s : State) : Host.Outcome State Fault Refusal :=
  match i with
  | .rgb r g b => Sys2Proof.Machine.execRgb r g b s
  | .rgba r g b a => Sys2Proof.Machine.execRgba r g b a s
  | .index idx => Sys2Proof.Machine.execIndex idx s
  | .diff dr dg db => Sys2Proof.Machine.execDiff dr dg db s
  | .luma dg drg dbg => Sys2Proof.Machine.execLuma dg drg dbg s
  | .run n => Sys2Proof.Machine.execRun n s
  | .hdr w h c cs => Sys2Proof.Machine.execHdr w h c cs s
  | .endMarker => Sys2Proof.Machine.execEndMarker s
  | .encodeCmd irqEn => Sys2Proof.Machine.execEncodeCmd irqEn s
  | .decodeCmd irqEn => Sys2Proof.Machine.execDecodeCmd irqEn s
  | .reservedCmd cmd irqEn => Sys2Proof.Machine.execReservedCmd cmd irqEn s

end Sys2Proof.Machine
end

