-- ==== Sys2Proof/Machine/Decoder.lean ====
section
/-! DEFINITION. The decoder's HEADER, BODY and TAIL steps (45_decoder.md, 42_framing.md R141 and R144): an item's bytes
are fetched from the source region, decoded, and the instruction run by `exec`. -/

namespace Sys2Proof.Machine

/-- The error a rejection raises: the header's (R141, R142), the marker's (R144), a chunk's (R211). A rejected command
is no engine matter: the host's port asks for none. -/
def rejectCode : DecodeError → ErrCode
  | .truncated => .truncatedStream
  | .badMagic => .badMagic
  | .badMarker => .missingEndMarker
  | .noStart => .illegalCommand

/-- The bytes fetched, decoded at a place. -/
def decodeFetched (p : Place) (bs : List Byte) : Except Stop Instr :=
  match decode p bs with
  | .instr i _ => .ok i
  | .reject e => .error (.raise (rejectCode e))

/-- HEADER's fetch (R141). -/
def fetchHeader (s : State) : Except Stop Instr := do
  require (decide (Config.headerLen ≤ s.srcLen.toNat)) .truncatedStream
  let bs ← loadBytes s s.srcBase.toNat Config.headerLen
  decodeFetched .header bs

/-- BODY's fetch, its checks in the order of R263 step 5: a tag byte left, the tag read, the trailing bytes inside the
stream (R160, R162, R168), the operand reads. Bytes are bounded by `SRC_LEN` (R211, D8). -/
def fetchChunk (s : State) : Except Stop Instr := do
  require (decide (s.rp < s.srcLen.toNat)) .truncatedStream
  let t ← loadByte s (s.srcBase.toNat + s.rp)
  require (decide (s.rp + (classify t).length ≤ s.srcLen.toNat)) .truncatedStream
  let ops ← loadBytes s (s.srcBase.toNat + s.rp + 1) ((classify t).length - 1)
  decodeFetched .chunk (t :: ops)

/-- TAIL's fetch (R144): exactly eight bytes left, and they are the marker (90_conflicts.md C2). -/
def fetchMarker (s : State) : Except Stop Instr := do
  require (decide (s.srcLen.toNat = s.rp + Config.markerLen)) .missingEndMarker
  let bs ← loadBytes s (s.srcBase.toNat + s.rp) Config.markerLen
  decodeFetched .tail bs

/-- A fetched instruction run; a fetch that does not go through ends as `settle` says. -/
def runFetched (s : State) : Except Stop Instr → Outcome
  | .ok i => exec i s
  | .error e => settle s (.error e)

/-- One engine step of a decode, by phase (R28). -/
def decodeStep (s : State) : Outcome :=
  match s.phase with
  | .idle => .next s
  | .check => checkStep s
  | .header => runFetched s (fetchHeader s)
  | .body => if s.pix = s.npix then .next { s with phase := .tail } else runFetched s (fetchChunk s)
  | .tail => runFetched s (fetchMarker s)

end Sys2Proof.Machine
end

