-- ==== Sys2Proof/Machine/Encoder.lean ====
section
/-! DEFINITION. The encoder's HEADER, BODY and TAIL steps (44_encoder.md, 42_framing.md R140 and R143). The bytes of
every item it emits are the encoder function's (Decode.lean). -/

namespace Sys2Proof.Machine

/-- HEADER (R140). -/
def encHeader (s : State) : Except Stop State := do
  let t ← emit s (encode (.hdr s.lw s.lh s.lc s.lcs))
  return { t with phase := .body }

/-- R193: the pixel equals `PREV`, so the whole run is coded by one RUN chunk; the cache is updated once and `PREV`
stays. -/
def encRun (s : State) (p : Pixel) : Except Stop State := do
  let n ← runScan s p (Config.runMax - 1) 1
  let t ← emit s (encode (.run n))
  return { t with cache := update s.lc s.cache p, pix := s.pix + n }

/-- R192 steps 2 to 6: one chunk for one pixel, then R195's update. -/
def encPixel (s : State) (p : Pixel) : Except Stop State := do
  let t ← emit s (encode (selectChunk s.lc s.prev s.cache p))
  return t.coded p 1

/-- BODY (R192). -/
def encBody (s : State) : Except Stop State :=
  if s.pix = s.npix then .ok { s with phase := .tail }
  else do
    let p ← loadPixel s s.pix
    if eqC s.lc p s.prev then encRun s p else encPixel s p

/-- TAIL (R143, R197): the end marker, then `OUT_LEN` and the success completion (R247). -/
def encTail (s : State) : Except Stop State := do
  let t ← emit s (encode .endMarker)
  return ({ t with outLen := BitVec.ofNat 32 t.wp } : State).complete

/-- One engine step of an encode, by phase (R28). -/
def encodeStep (s : State) : Outcome :=
  match s.phase with
  | .idle => .next s
  | .check => checkStep s
  | .header => settle s (encHeader s)
  | .body => settle s (encBody s)
  | .tail => settle s (encTail s)

end Sys2Proof.Machine
end

