-- ==== Sys2Proof/Machine/HostPort.lean ====
section
/-! DEFINITION. The host's port: the register window (10_state.md R31 to R43, 46_commands.md R240 to R248), the host's
own accesses to system memory (R249, R71), reset (R290), and the engine's step by `OP` and `PHASE` (R28). -/

namespace Sys2Proof.Machine

/-- The engine's step: only while `PHASE != IDLE` (R20, R28); idle, it changes nothing (R272). CHECK comes before `OP`
is set (R242). -/
def engineStep (s : State) : Outcome :=
  match s.op with
  | .enc => encodeStep s
  | .dec => decodeStep s

/-- The registers of the window (R31). -/
inductive Reg where
  | ctrl | status | errcode | imgWidth | imgHeight | imgFormat | srcBase | srcLen | dstBase | dstCap | outLen | reserved
  deriving DecidableEq, Repr

/-- R31: the register at an offset; 0x2C to 0x3C are reserved (R43). -/
def regAt : Nat → Reg
  | 0x00 => .ctrl
  | 0x04 => .status
  | 0x08 => .errcode
  | 0x0C => .imgWidth
  | 0x10 => .imgHeight
  | 0x14 => .imgFormat
  | 0x18 => .srcBase
  | 0x1C => .srcLen
  | 0x20 => .dstBase
  | 0x24 => .dstCap
  | 0x28 => .outLen
  | _ => .reserved

/-- R246: the value a register reads as, reserved bits 0, START 0. -/
def State.readReg (s : State) : Reg → Word
  | .ctrl => 0#28 ++ BitVec.ofBool s.ctrl.irqEn ++ s.ctrl.cmd ++ 0#1
  | .status => 0#29 ++ BitVec.ofBool s.status.err ++ BitVec.ofBool s.status.done ++ BitVec.ofBool s.status.busy
  | .errcode => 0#27 ++ s.errcode
  | .imgWidth => s.imgWidth
  | .imgHeight => s.imgHeight
  | .imgFormat => 0#16 ++ s.imgFormat.colorspace ++ s.imgFormat.channels
  | .srcBase => s.srcBase
  | .srcLen => s.srcLen
  | .dstBase => s.dstBase
  | .dstCap => s.dstCap
  | .outLen => s.outLen
  | .reserved => 0

/-- A `CTRL` write while BUSY = 0 (R241): a command if START = 1, else only CMD and IRQ_EN. -/
def writeCtrl (s : State) (v : Word) : Outcome :=
  match decodeCtrl v with
  | .instr i _ => exec i s
  | .reject _ => .next (s.setFlags ⟨v.extractLsb' 1 2, v.getLsbD 3⟩ s.status)

/-- A `STATUS` write while BUSY = 0: write one to clear DONE and ERR (R245). -/
def State.writeStatus (s : State) (v : Word) : State :=
  s.setFlags s.ctrl ⟨s.status.busy, s.status.done && !v.getLsbD 1, s.status.err && !v.getLsbD 2⟩

/-- A register write (R240): no effect while BUSY = 1; otherwise the register's own rule. Writes to the read-only
registers and to reserved offsets have no effect (R248). -/
def writeReg (s : State) (r : Reg) (v : Word) : Outcome :=
  if s.status.busy then .next s
  else match r with
  | .ctrl => writeCtrl s v
  | .status => .next (s.writeStatus v)
  | .errcode => .next s
  | .imgWidth => .next { s with imgWidth := v }
  | .imgHeight => .next { s with imgHeight := v }
  | .imgFormat => .next { s with imgFormat := ⟨v.extractLsb' 0 8, v.extractLsb' 8 8⟩ }
  | .srcBase => .next { s with srcBase := v }
  | .srcLen => .next { s with srcLen := v }
  | .dstBase => .next { s with dstBase := v }
  | .dstCap => .next { s with dstCap := v }
  | .outLen => .next s
  | .reserved => .next s

/-- The window offset of an admitted access: aligned, 32 bits, inside the window (R43, R65). -/
def windowOffset (p : Platform) (addr size : Nat) : Option Nat :=
  if p.regBase ≤ addr ∧ addr < p.regBase + Config.windowLen ∧ (addr - p.regBase) % 4 = 0 ∧ size = 4 then
    some (addr - p.regBase)
  else none

/-- Whether an address is a byte of the source region (R39). -/
def State.inSource (s : State) (a : Nat) : Bool :=
  decide (s.srcBase.toNat ≤ a) && decide (a < s.srcBase.toNat + s.srcLen.toNat)

/-- Whether an address is a byte of the destination region (R41). -/
def State.inDestination (s : State) (a : Nat) : Bool :=
  decide (s.dstBase.toNat ≤ a) && decide (a < s.dstBase.toNat + s.dstCap.toNat)

/-- A host's byte read of system memory: of the destination while BUSY = 1, a fresh free value (R71, U8; log 9);
otherwise the byte. -/
def State.hostRead (s : State) (a : Nat) : State :=
  if s.status.busy && s.inDestination a then
    { s with rdata := (Config.freeByte s.draws a).setWidth 32, draws := s.draws + 1 }
  else { s with rdata := (s.mem.read a).setWidth 32 }

/-- One host move (R20). -/
def hostStep (m : HostMove) (s : State) : Outcome :=
  match m with
  | .wait => engineStep s
  | .reset => .next s.resetBlock
  | .regWrite addr size v =>
    match windowOffset s.platform addr size with
    | some o => writeReg s (regAt o) v
    | none => .refused .windowAccess
  | .regRead addr size =>
    match windowOffset s.platform addr size with
    | some o => .next { s with rdata := s.readReg (regAt o) }
    | none => .refused .windowAccess
  | .memWrite addr v =>
    if s.status.busy && (s.inSource addr.toNat || s.inDestination addr.toNat) then .refused .hostWriteWhileBusy
    else .next { s with mem := s.mem.write addr.toNat v }
  | .memRead addr => .next (s.hostRead addr.toNat)

/-- One step: the host's next move if it has one, else the engine's step (log 5). -/
def moveStep (s : State) : Outcome :=
  match s.host with
  | [] => engineStep s
  | m :: rest => hostStep m { s with host := rest }

end Sys2Proof.Machine
end

