-- ==== Sys2Proof/Machine/Loader.lean ====
section
/-! DEFINITION. Placing one instruction where the next step takes it (log 19): a stream item at the decoder's read
position, a command at the head of the host's queue. -/

namespace Sys2Proof.Machine

/-- A decode standing at a phase, with the regions and the image that any one item needs: source at 0, destination
0x10000 to 0x1FFFF, 62 by 1 pixels of four channels, none written (all written at TAIL). -/
def State.openDecode (s : State) (ph : Phase) : State :=
  { s with
    ctrl := ⟨1, s.ctrl.irqEn⟩, status := Status.running, irq := false, errcode := 0, outLen := 0
    srcBase := 0, srcLen := 14, dstBase := 0x10000, dstCap := 0x10000
    lw := 62, lh := 1, lc := 4, lcs := 0, pix := (if ph = .tail then 62 else 0), rp := 14
    phase := ph, op := .dec, host := [] }

/-- The state as it is where a decode already stands at the phase, with nothing from the host and every access allowed;
otherwise such a decode opened. -/
def State.atDecode (s : State) (ph : Phase) : State :=
  let t := { s with host := [], platform := { s.platform with deny := [] } }
  if s.phase = ph ∧ s.op = .dec ∧ (ph = .body → s.pix < s.npix) then t else t.openDecode ph

/-- The bytes stored at the read position, the stream ending no earlier than `len` bytes on. -/
def State.withItem (s : State) (bs : List Byte) (len : Nat) : State :=
  { s with
    mem := s.mem.writeBytes (s.srcBase.toNat + s.rp) bs
    srcLen := BitVec.ofNat 32 (max s.srcLen.toNat (s.rp + len)) }

/-- The header's bytes stored at the start of the source. -/
def State.withHeader (s : State) (bs : List Byte) : State :=
  { s with
    mem := s.mem.writeBytes s.srcBase.toNat bs
    srcLen := BitVec.ofNat 32 (max s.srcLen.toNat Config.headerLen) }

/-- The marker's bytes stored at the read position, the stream ending right after them. -/
def State.withMarker (s : State) (bs : List Byte) : State :=
  { s with
    mem := s.mem.writeBytes (s.srcBase.toNat + s.rp) bs
    srcLen := BitVec.ofNat 32 (s.rp + Config.markerLen) }

/-- A table word placed for the next step. -/
def State.placeWord (s : State) (nbits w : Nat) : State :=
  let bs := tableItem nbits w
  match tablePlace nbits w with
  | .header => (s.atDecode .header).withHeader bs
  | .chunk => (s.atDecode .body).withItem bs 14
  | .tail => (s.atDecode .tail).withMarker (bs.take Config.markerLen)
  | .ctrl =>
    { (s.setFlags s.ctrl ⟨false, s.status.done, s.status.err⟩) with
      phase := .idle, host := [.regWrite s.platform.regBase 4 (BitVec.ofNat 32 w)] }

end Sys2Proof.Machine
end

