-- ==== Sys2Proof/Machine/Step.lean ====
section
/-! DEFINITION. The step function, and the placing of one instruction for the next step. -/

namespace Sys2Proof.Machine

/-- One step of the machine (R20, R28): the host's next move if it has one, else the engine's step. -/
def step (s : State) : Host.Outcome State Fault Refusal := moveStep s

/-- The state with an instruction's table word stored where the next step takes its instruction from. -/
def State.withFetchWord (s : State) (nbits w : Nat) : State := s.placeWord nbits w

end Sys2Proof.Machine
end

