-- ==== Sys2Proof/Machine/Codec.lean ====
section
/-! DEFINITION. The whole operations as total functions of their input, `encode(Image) -> bytes` and
`decode(bytes) -> Image` (00_scope.md R2, 44_encoder.md R198, 45_decoder.md R214), over the same shared functions as the
step machine. The step machine does not call them; statements compare the two. -/

namespace Sys2Proof.Machine

/-- An image: header fields and the packed pixel buffer (R63). -/
structure Image where
  w : Word
  h : Word
  c : Byte
  cs : Byte
  data : List Byte
  deriving DecidableEq, Repr

/-- The images an encode accepts (R243, R39). -/
def Image.valid (im : Image) : Bool :=
  (im.c == 3 || im.c == 4) && (im.cs == 0 || im.cs == 1) && im.w != 0 && im.h != 0 &&
    decide (im.data.length = im.w.toNat * im.h.toNat * im.c.toNat)

/-- `PREV` and `CACHE` of one call (R22, R23, R46). -/
structure Coder where
  prev : Pixel
  cache : Cache
  deriving DecidableEq, Repr

/-- The state a call begins with (R190, R210). -/
def Coder.fresh : Coder := ⟨Pixel.seed, Cache.fresh⟩

/-- After an emitted pixel (R123, R195, R212). -/
def Coder.note (k : Coder) (c : Byte) (p : Pixel) : Coder := ⟨p, update c k.cache p⟩

/-- The pixels of a packed buffer (R63, R191). -/
def pixelsOf (c : Byte) : List Byte → List Pixel
  | r :: g :: b :: rest =>
    if c = 4 then
      match rest with
      | a :: rest => pixelOf c r g b a :: pixelsOf c rest
      | [] => []
    else pixelOf c r g b 255 :: pixelsOf c rest
  | _ => []

/-- How many of the next pixels, at most `fuel`, equal `p` without a break (R193). -/
def runLength (c : Byte) (p : Pixel) : Nat → List Pixel → Nat
  | 0, _ => 0
  | _ + 1, [] => 0
  | fuel + 1, q :: rest => if eqC c q p then runLength c p fuel rest + 1 else 0

/-- The chunks of a pixel sequence (R192, R193, R195), one round of `fuel` for each chunk. -/
def encodeChunks (c : Byte) : Nat → Coder → List Pixel → List Instr
  | 0, _, _ => []
  | _ + 1, _, [] => []
  | fuel + 1, k, p :: rest =>
    if eqC c p k.prev then
      .run (runLength c p (Config.runMax - 1) rest + 1) ::
        encodeChunks c fuel ⟨k.prev, update c k.cache p⟩ (rest.drop (runLength c p (Config.runMax - 1) rest))
    else selectChunk c k.prev k.cache p :: encodeChunks c fuel (k.note c p) rest

/-- The chunk stream's bytes. -/
def chunkBytes (is : List Instr) : List Byte := is.flatMap encode

/-- R198: header, chunks, end marker. -/
def encodeImage (im : Image) : List Byte :=
  encode (.hdr im.w im.h im.c im.cs) ++
    chunkBytes (encodeChunks im.c (pixelsOf im.c im.data).length Coder.fresh (pixelsOf im.c im.data)) ++
    encode .endMarker

/-- The pixel and the count a chunk gives (R160, R162, R164, R166, R168, R170); the other items are no chunks. -/
def chunkEffect (k : Coder) : Instr → Pixel × Nat
  | .rgb r g b => (rgbPixel k.prev r g b, 1)
  | .rgba r g b a => (rgbaPixel r g b a, 1)
  | .index idx => (indexPixel k.cache idx, 1)
  | .diff dr dg db => (diffPixel k.prev dr dg db, 1)
  | .luma dg drg dbg => (lumaPixel k.prev dg drg dbg, 1)
  | .run n => (runPixel k.prev, n)
  | .hdr _ _ _ _ => (k.prev, 0)
  | .endMarker => (k.prev, 0)
  | .encodeCmd _ => (k.prev, 0)
  | .decodeCmd _ => (k.prev, 0)
  | .reservedCmd _ _ => (k.prev, 0)

/-- `n` emitted pixels, one after the other (R212). -/
def Coder.noteMany (k : Coder) (c : Byte) (p : Pixel) : Nat → Coder
  | 0 => k
  | n + 1 => (k.note c p).noteMany c p n

/-- R211 repeated until `need` pixels have been produced: the pixel bytes and the bytes left, or the first error. One
round of `fuel` for each chunk. -/
def decodeChunks (c : Byte) : Nat → Coder → Nat → List Byte → Except ErrCode (List Byte × List Byte)
  | _, _, 0, bs => .ok ([], bs)
  | 0, _, _ + 1, _ => .error .truncatedStream
  | fuel + 1, k, need + 1, bs =>
    match decodeChunk bs with
    | .reject _ => .error .truncatedStream
    | .instr i rest =>
      let e := chunkEffect k i
      if need + 1 < e.2 then .error .pixelCountMismatch
      else
        match decodeChunks c fuel (k.noteMany c e.1 e.2) (need + 1 - e.2) rest with
        | .ok (out, left) => .ok (copyBytes c e.1 e.2 ++ out, left)
        | .error x => .error x

/-- R214: header (R141, R142), capacity (R210), chunks (R211), marker (R144). -/
def decodeImage (cap : Nat) (bs : List Byte) : Except ErrCode Image :=
  match decodeHeader bs with
  | .reject .badMagic => .error .badMagic
  | .reject _ => .error .truncatedStream
  | .instr (.hdr w h c cs) rest =>
    if !(c == 3 || c == 4) then .error .invalidChannels
    else if !(cs == 0 || cs == 1) then .error .invalidColorspace
    else if w == 0 || h == 0 then .error .zeroDimension
    else if cap < w.toNat * h.toNat * c.toNat then .error .capacityExceeded
    else
      match decodeChunks c rest.length Coder.fresh (w.toNat * h.toNat) rest with
      | .error x => .error x
      | .ok (out, left) => if left = markerBytes then .ok ⟨w, h, c, cs, out⟩ else .error .missingEndMarker
  | .instr _ _ => .error .badMagic

end Sys2Proof.Machine
end

