-- ==== Sys2Proof/Safety.lean ====
section
/-! DEFINITION. What a good state is: the invariant that every step keeps, each field from the rule it names. -/

namespace Sys2Proof.Machine

/-- The platform accepts the engine's reads of the `n` bytes from `a` up, and system memory has them (R60, R269). -/
def State.CanRead (s : State) (a n : Nat) : Prop :=
  ∀ i, i < n → a + i < Config.addressEnd ∧ s.platform.memOk (a + i) .read = true

/-- The platform accepts the engine's writes of the `n` bytes from `a` up, and system memory has them (R60, R269). -/
def State.CanWrite (s : State) (a n : Nat) : Prop :=
  ∀ i, i < n → a + i < Config.addressEnd ∧ s.platform.memOk (a + i) .write = true

/-- Source pixel `i` as memory holds it (R63, R191). -/
def State.pixelAt (s : State) (i : Nat) : Pixel :=
  pixelOf s.lc (s.mem.read (s.srcPixel i)) (s.mem.read (s.srcPixel i + 1)) (s.mem.read (s.srcPixel i + 2))
    (s.mem.read (s.srcPixel i + 3))

/-- R193: the pixel at PIX equals PREV, so do the `n - 1` pixels after it, and all `n`, at most `RUN_MAX`, can be read. -/
structure State.RunOf (s : State) (n : Nat) : Prop where
  length : 1 ≤ n ∧ n ≤ 62
  inImage : s.pix + n ≤ s.npix
  first : eqC s.lc (s.pixelAt s.pix) s.prev = true
  others : ∀ j, 1 ≤ j → j < n → eqC s.lc (s.pixelAt (s.pix + j)) (s.pixelAt s.pix) = true
  reads : ∀ j, j < n → s.CanRead (s.srcPixel (s.pix + j)) s.lc.toNat

/-- The phases after CHECK, in which the engine accesses memory. -/
def Phase.working (p : Phase) : Prop := p = .header ∨ p = .body ∨ p = .tail

/-- R125: a slot holds the zero pixel of its reset, or a pixel whose own slot it is. -/
def Cache.own (c : Byte) (k : Cache) : Prop := ∀ i : Fin 64, slot k i = Pixel.zero ∨ indexOf c (slot k i) = i

/-- `LC` and `LCS` legal, the dimensions not zero (R24, R145). -/
structure State.ImageLegal (s : State) : Prop where
  channels : s.lc = 3 ∨ s.lc = 4
  colorspace : s.lcs = 0 ∨ s.lcs = 1
  width : s.lw ≠ 0
  height : s.lh ≠ 0

/-- An encode past its CHECK step. -/
structure State.Encoding (s : State) : Prop where
  /-- R190: the command and the image come from the host's registers, which cannot change while BUSY = 1. -/
  command : s.ctrl.cmd = 0
  image : s.lw = s.imgWidth ∧ s.lh = s.imgHeight ∧ s.lc = s.imgFormat.channels ∧ s.lcs = s.imgFormat.colorspace
  legal : s.ImageLegal
  /-- R243 check 5. -/
  source : s.srcLen.toNat = s.npix * s.lc.toNat
  /-- R25. -/
  pixels : s.pix ≤ s.npix
  /-- R27. -/
  written : s.wp ≤ s.dstCap.toNat
  /-- R125. -/
  cacheOwn : Cache.own s.lc s.cache
  atHeader : s.phase = .header → s.pix = 0 ∧ s.wp = 0
  atTail : s.phase = .tail → s.pix = s.npix

/-- A decode past its HEADER step. -/
structure State.Decoding (s : State) : Prop where
  legal : s.ImageLegal
  /-- R210. -/
  capacity : s.npix * s.lc.toNat ≤ s.dstCap.toNat
  /-- R25. -/
  pixels : s.pix ≤ s.npix
  /-- R26. -/
  readLow : Config.headerLen ≤ s.rp
  readHigh : s.rp ≤ s.srcLen.toNat
  atTail : s.phase = .tail → s.pix = s.npix

/-- The invariant. -/
structure State.Inv (s : State) : Prop where
  /-- System memory keeps its canonical form (R60). -/
  memory : s.mem.wf
  /-- R28: `PHASE = IDLE` exactly when `STATUS.BUSY = 0`. -/
  busyPhase : s.phase = .idle ↔ s.status.busy = false
  /-- R33: at most one of BUSY, DONE and ERR is 1. -/
  oneFlag : ¬(s.status.busy = true ∧ s.status.done = true) ∧ ¬(s.status.busy = true ∧ s.status.err = true) ∧
    ¬(s.status.done = true ∧ s.status.err = true)
  /-- R44. -/
  line : s.irq = irqLevel s.ctrl s.status
  /-- R260, U2: the reserved codes are never written. -/
  code : s.errcode.toNat ≤ 16
  /-- R34, R42: 0 while running. -/
  running : s.status.busy = true → s.errcode = 0 ∧ s.outLen = 0
  /-- R34: 0 after success. -/
  succeeded : s.status.done = true → s.errcode = 0
  /-- R34, R42: a cause and no output after an error. -/
  failed : s.status.err = true → s.errcode ≠ 0 ∧ s.outLen = 0
  /-- R61, R244: past CHECK the regions are legal and share no byte. -/
  regions : s.phase.working → s.regionsOk = true
  encoding : s.phase.working → s.op = .enc → s.Encoding
  decodeCommand : s.phase.working → s.op = .dec → s.ctrl.cmd = 1
  decoding : s.phase = .body ∨ s.phase = .tail → s.op = .dec → s.Decoding

end Sys2Proof.Machine
end

