-- ==== Sys2Proof/Certificates/Slice0/Obligations.lean ====
section
/-! DEFINITION. The statements for the provers. Each docstring names the rule it formalises, or says what it rests on. -/

open Sys2Proof Sys2Proof.Machine

/-! ### Encoding -/

/-- Decoding the encoding of a well-formed instruction gives it back, whatever bytes follow (layouts R81, R87, R89, R90). -/
def Obligations.DecodeOfEncodeIsInstruction : Prop :=
  ∀ (i : Instr) (rest : List Byte), i.wf = true → decode i.place (encode i ++ rest) = .instr i rest

/-- In the stream every bit counts: encoding what the decoder read gives the bytes back (R81 to R83, R89, R90). -/
def Obligations.EncodeOfDecodeIsBytes : Prop :=
  ∀ (p : Place) (bs : List Byte) (i : Instr) (rest : List Byte),
    p ≠ .ctrl → decode p bs = .instr i rest → i.place = p ∧ encode i ++ rest = bs

/-- R82, R84: the classification is total, and the first byte alone fixes a chunk's length. -/
def Obligations.TagSelectsOneChunk : Prop :=
  ∀ (t : Byte) (more : List Byte), (classify t).length ≤ more.length + 1 →
    ∃ i, decode .chunk (t :: more) = .instr i (more.drop ((classify t).length - 1)) ∧
      i.place = .chunk ∧ i.wf = true ∧ i.length = (classify t).length

/-- R86: the opcode map by value of byte 0. -/
def Obligations.OpcodeMap : Prop :=
  ∀ (t : Byte) (more : List Byte),
    (t.toNat ≤ 0x3F → ∃ idx : Fin 64, idx.val = t.toNat ∧ decode .chunk (t :: more) = .instr (.index idx) more) ∧
    (0x40 ≤ t.toNat → t.toNat ≤ 0x7F → ∃ dr dg db, decode .chunk (t :: more) = .instr (.diff dr dg db) more) ∧
    (0x80 ≤ t.toNat → t.toNat ≤ 0xBF →
      ∀ u, ∃ dg drg dbg, decode .chunk (t :: u :: more) = .instr (.luma dg drg dbg) more) ∧
    (0xC0 ≤ t.toNat → t.toNat ≤ 0xFD → decode .chunk (t :: more) = .instr (.run (t.toNat - 0xC0 + 1)) more) ∧
    (t.toNat = 0xFE → ∀ r g b, decode .chunk (t :: r :: g :: b :: more) = .instr (.rgb r g b) more) ∧
    (t.toNat = 0xFF → ∀ r g b a, decode .chunk (t :: r :: g :: b :: a :: more) = .instr (.rgba r g b a) more)

/-- R83: the fields of DIFF, LUMA and RUN, less their biases, by arithmetic on the bytes. -/
def Obligations.BiasedFieldsAssembled : Prop :=
  ∀ (t u : Byte) (more : List Byte),
    (t.toNat / 64 = 1 → decode .chunk (t :: more) =
      .instr (.diff ((t.toNat / 16 % 4 : Nat) - 2) ((t.toNat / 4 % 4 : Nat) - 2) ((t.toNat % 4 : Nat) - 2)) more) ∧
    (t.toNat / 64 = 2 → decode .chunk (t :: u :: more) =
      .instr (.luma ((t.toNat % 64 : Nat) - 32) ((u.toNat / 16 : Nat) - 8) ((u.toNat % 16 : Nat) - 8)) more) ∧
    (t.toNat / 64 = 3 → t.toNat % 64 < 62 → decode .chunk (t :: more) = .instr (.run (t.toNat % 64 + 1)) more)

/-- R88 and the serialize rules R161, R163, R165, R167, R169, R171, R140, R143: the bytes of each item, by arithmetic on its
operands. -/
def Obligations.SerializedBytes : Prop :=
  (∀ r g b a : Byte, encode (.rgb r g b) = [0xFE, r, g, b] ∧ encode (.rgba r g b a) = [0xFF, r, g, b, a]) ∧
  (∀ k : Fin 64, encode (.index k) = [BitVec.ofNat 8 k.val]) ∧
  (∀ dr dg db : Int, -2 ≤ dr → dr ≤ 1 → -2 ≤ dg → dg ≤ 1 → -2 ≤ db → db ≤ 1 →
    encode (.diff dr dg db) = [BitVec.ofInt 8 (0x40 + 16 * (dr + 2) + 4 * (dg + 2) + (db + 2))]) ∧
  (∀ dg drg dbg : Int, -32 ≤ dg → dg ≤ 31 → -8 ≤ drg → drg ≤ 7 → -8 ≤ dbg → dbg ≤ 7 →
    encode (.luma dg drg dbg) = [BitVec.ofInt 8 (0x80 + (dg + 32)), BitVec.ofInt 8 (16 * (drg + 8) + (dbg + 8))]) ∧
  (∀ n : Nat, 1 ≤ n → n ≤ 62 → encode (.run n) = [BitVec.ofNat 8 (0xC0 + (n - 1))]) ∧
  (∀ (w h : Word) (c cs : Byte), encode (.hdr w h c cs) =
    [0x71, 0x6F, 0x69, 0x66,
     BitVec.ofNat 8 (w.toNat / 2 ^ 24), BitVec.ofNat 8 (w.toNat / 2 ^ 16), BitVec.ofNat 8 (w.toNat / 2 ^ 8),
     BitVec.ofNat 8 w.toNat,
     BitVec.ofNat 8 (h.toNat / 2 ^ 24), BitVec.ofNat 8 (h.toNat / 2 ^ 16), BitVec.ofNat 8 (h.toNat / 2 ^ 8),
     BitVec.ofNat 8 h.toNat, c, cs]) ∧
  encode .endMarker = [0, 0, 0, 0, 0, 0, 0, 1]

/-- R87: the command words. The model's choice: the bits that R87 ignores are written 0 (log 22), and the word's bytes are
listed least significant first (log 20). -/
def Obligations.CommandWords : Prop :=
  ∀ (cmd : BitVec 2) (irqEn : Bool),
    encode (.encodeCmd irqEn) = [BitVec.ofNat 8 (irqEn.toNat * 8 + 1), 0, 0, 0] ∧
    encode (.decodeCmd irqEn) = [BitVec.ofNat 8 (irqEn.toNat * 8 + 3), 0, 0, 0] ∧
    encode (.reservedCmd cmd irqEn) = [BitVec.ofNat 8 (irqEn.toNat * 8 + cmd.toNat * 2 + 1), 0, 0, 0] ∧
    (∀ v : Word, decode .ctrl (leBytes v) =
      if v.getLsbD 0 = false then .reject .noStart
      else if v.extractLsb' 1 2 = 0 then .instr (.encodeCmd (v.getLsbD 3)) []
      else if v.extractLsb' 1 2 = 1 then .instr (.decodeCmd (v.getLsbD 3)) []
      else .instr (.reservedCmd (v.extractLsb' 1 2) (v.getLsbD 3)) [])

/-- Words written out from the spec's layouts decode to what they stand for (43_chunks.md and 42_framing.md examples). The
model's choice: a command's word is given as four bytes, least significant first (log 20; R64 fixes no byte lanes). -/
def Obligations.SampleWordsDecode : Prop :=
  decode .chunk [0xFE, 0x64, 0x00, 0x00] = .instr (.rgb 100 0 0) [] ∧
  decode .chunk [0xFF, 0x64, 0x00, 0x00, 0x80] = .instr (.rgba 100 0 0 128) [] ∧
  decode .chunk [0x35] = .instr (.index 53) [] ∧
  decode .chunk [0x4D] = .instr (.diff (-2) 1 (-1)) [] ∧
  decode .chunk [0xB2, 0x6A] = .instr (.luma 18 (-2) 2) [] ∧
  decode .chunk [0xC7] = .instr (.run 8) [] ∧
  decode .header [0x71, 0x6F, 0x69, 0x66, 0, 0, 1, 0, 0, 0, 0, 0x80, 4, 0] = .instr (.hdr 256 128 4 0) [] ∧
  decode .tail [0, 0, 0, 0, 0, 0, 0, 1] = .instr .endMarker [] ∧
  decode .ctrl [0x9, 0, 0, 0] = .instr (.encodeCmd true) [] ∧
  decode .ctrl [0x3, 0, 0, 0] = .instr (.decodeCmd false) [] ∧
  decode .ctrl [0xF, 0, 0, 0] = .instr (.reservedCmd 3 true) []

/-! ### Delta arithmetic unit -/

/-- R100: the formula, its range, that it is the difference modulo 256, and the rule's boundary values. -/
def Obligations.WraparoundDelta : Prop :=
  (∀ c p : Byte,
    wd c p = ((c.toNat : Int) - (p.toNat : Int) + 128) % 256 - 128 ∧ -128 ≤ wd c p ∧ wd c p ≤ 127 ∧
    (wd c p - ((c.toNat : Int) - (p.toNat : Int))) % 256 = 0) ∧
  wd 0 255 = 1 ∧ wd 255 0 = -1 ∧ wd 128 0 = -128 ∧ wd 0 128 = -128 ∧ (∀ c : Byte, wd c c = 0)

/-- R104: addition modulo 256. -/
def Obligations.AdditionModulo256 : Prop :=
  (∀ (x : Byte) (d : Int), ((add8 x d).toNat : Int) = ((x.toNat : Int) + d) % 256) ∧
  add8 255 1 = 0 ∧ add8 0 (-2) = 254

/-- R105: the inverse law, and that a DIFF or LUMA chunk of an eligible pixel, serialised and decoded again, rebuilds it
over the lanes that are part of the pixel. -/
def Obligations.DeltaChunksRebuildPixel : Prop :=
  (∀ c p : Byte, add8 p (wd c p) = c) ∧
  (∀ (c : Byte) (q p : Pixel) (rest : List Byte), diffOk c q p = true →
    ∃ dr dg db,
      decode .chunk (encode (.diff (delta q p).dr (delta q p).dg (delta q p).db) ++ rest) = .instr (.diff dr dg db) rest ∧
      eqC c (diffPixel p dr dg db) q = true) ∧
  (∀ (c : Byte) (q p : Pixel) (rest : List Byte), lumaOk c q p = true →
    ∃ dg drg dbg,
      decode .chunk (encode (.luma (delta q p).dg ((delta q p).dr - (delta q p).dg) ((delta q p).db - (delta q p).dg)) ++
        rest) = .instr (.luma dg drg dbg) rest ∧
      eqC c (lumaPixel p dg drg dbg) q = true)

/-- R106: reading a difference of 128 as +128 instead of -128 changes neither eligibility test. -/
def Obligations.BoundaryDeltaNeverSelects : Prop :=
  ∀ (c : Byte) (q p : Pixel) (dr dg db : Int),
    (dr = wd q.r p.r ∨ (wd q.r p.r = -128 ∧ dr = 128)) →
    (dg = wd q.g p.g ∨ (wd q.g p.g = -128 ∧ dg = 128)) →
    (db = wd q.b p.b ∨ (wd q.b p.b = -128 ∧ db = 128)) →
    (diffOk c q p = true ↔
      ((c = 3 ∨ q.a = p.a) ∧ (-2 ≤ dr ∧ dr ≤ 1) ∧ (-2 ≤ dg ∧ dg ≤ 1) ∧ (-2 ≤ db ∧ db ≤ 1))) ∧
    (lumaOk c q p = true ↔
      ((c = 3 ∨ q.a = p.a) ∧ (-32 ≤ dg ∧ dg ≤ 31) ∧ (-8 ≤ dr - dg ∧ dr - dg ≤ 7) ∧ (-8 ≤ db - dg ∧ db - dg ≤ 7)))

/-! ### Recent-color cache -/

/-- R120: the hash, without the alpha term when C = 3, and the bound of its sum. -/
def Obligations.SlotHash : Prop :=
  ∀ p : Pixel,
    (indexOf 3 p).val = (p.r.toNat * 3 + p.g.toNat * 5 + p.b.toNat * 7) % 64 ∧
    (indexOf 4 p).val = (p.r.toNat * 3 + p.g.toNat * 5 + p.b.toNat * 7 + p.a.toNat * 11) % 64 ∧
    p.r.toNat * 3 + p.g.toNat * 5 + p.b.toNat * 7 + p.a.toNat * 11 ≤ 6630

/-- R122: an update writes the pixel into its own slot, all four lanes, and no other slot; writing a pixel that is already
present changes nothing. -/
def Obligations.UpdateWritesOwnSlot : Prop :=
  ∀ (c : Byte) (k : Cache) (p : Pixel),
    (∀ i : Fin 64, slot (update c k p) i = if i = indexOf c p then p else slot k i) ∧
    (slot k (indexOf c p) = p → update c k p = k)

/-- R121, R124: a lookup examines the pixel's own slot alone, and sees the update just before it. -/
def Obligations.LookupSeesUpdate : Prop :=
  ∀ (c : Byte) (k : Cache) (p q : Pixel),
    lookup c (update c k p) p = some (indexOf c p) ∧
    (indexOf c q ≠ indexOf c p → lookup c (update c k p) q = lookup c k q) ∧
    (∀ i, lookup c k q = some i ↔ i = indexOf c q ∧ eqC c (slot k (indexOf c q)) q = true) ∧
    (lookup c k q = none ↔ eqC c (slot k (indexOf c q)) q = false)

/-! ### The chunks' meanings. In each, PIX is short of NPIX and the pixel's bytes may be written (R212), and the result
is the whole next state: what the equation does not change is the chunk's frame. -/

/-- R160: alpha is PREV's, 4 bytes. -/
def Obligations.RgbChunkResult : Prop :=
  ∀ (r g b : Byte) (s : State), s.lc = 3 ∨ s.lc = 4 → s.pix + 1 ≤ s.npix →
    s.CanWrite (s.dstPixel s.pix) s.lc.toNat →
    exec (.rgb r g b) s = .next { s with
      mem := s.mem.writeBytes (s.dstPixel s.pix) (pixelBytes s.lc ⟨r, g, b, s.prev.a⟩)
      cache := update s.lc s.cache ⟨r, g, b, s.prev.a⟩, prev := ⟨r, g, b, s.prev.a⟩, pix := s.pix + 1, rp := s.rp + 4 }

/-- R162: four lanes from the bytes, 5 bytes, in an RGB image as well. -/
def Obligations.RgbaChunkResult : Prop :=
  ∀ (r g b a : Byte) (s : State), s.lc = 3 ∨ s.lc = 4 → s.pix + 1 ≤ s.npix →
    s.CanWrite (s.dstPixel s.pix) s.lc.toNat →
    exec (.rgba r g b a) s = .next { s with
      mem := s.mem.writeBytes (s.dstPixel s.pix) (pixelBytes s.lc ⟨r, g, b, a⟩)
      cache := update s.lc s.cache ⟨r, g, b, a⟩, prev := ⟨r, g, b, a⟩, pix := s.pix + 1, rp := s.rp + 5 }

/-- R164: the slot verbatim, 1 byte. -/
def Obligations.IndexChunkResult : Prop :=
  ∀ (idx : Fin 64) (s : State), s.lc = 3 ∨ s.lc = 4 → s.pix + 1 ≤ s.npix →
    s.CanWrite (s.dstPixel s.pix) s.lc.toNat →
    exec (.index idx) s = .next { s with
      mem := s.mem.writeBytes (s.dstPixel s.pix) (pixelBytes s.lc (slot s.cache idx))
      cache := update s.lc s.cache (slot s.cache idx), prev := slot s.cache idx, pix := s.pix + 1, rp := s.rp + 1 }

/-- R166: the deltas added modulo 256, alpha unchanged, 1 byte. -/
def Obligations.DiffChunkResult : Prop :=
  ∀ (dr dg db : Int) (p : Pixel) (s : State), s.lc = 3 ∨ s.lc = 4 → s.pix + 1 ≤ s.npix →
    s.CanWrite (s.dstPixel s.pix) s.lc.toNat →
    p = ⟨add8 s.prev.r dr, add8 s.prev.g dg, add8 s.prev.b db, s.prev.a⟩ →
    exec (.diff dr dg db) s = .next { s with
      mem := s.mem.writeBytes (s.dstPixel s.pix) (pixelBytes s.lc p)
      cache := update s.lc s.cache p, prev := p, pix := s.pix + 1, rp := s.rp + 1 }

/-- R168: the whole sums reduced modulo 256, alpha unchanged, 2 bytes. -/
def Obligations.LumaChunkResult : Prop :=
  ∀ (dg drg dbg : Int) (p : Pixel) (s : State), s.lc = 3 ∨ s.lc = 4 → s.pix + 1 ≤ s.npix →
    s.CanWrite (s.dstPixel s.pix) s.lc.toNat →
    p = ⟨add8 s.prev.r (dg + drg), add8 s.prev.g dg, add8 s.prev.b (dg + dbg), s.prev.a⟩ →
    exec (.luma dg drg dbg) s = .next { s with
      mem := s.mem.writeBytes (s.dstPixel s.pix) (pixelBytes s.lc p)
      cache := update s.lc s.cache p, prev := p, pix := s.pix + 1, rp := s.rp + 2 }

/-- R170: `n` copies of PREV, each written to memory and to the cache, 1 byte. -/
def Obligations.RunChunkResult : Prop :=
  ∀ (n : Nat) (s : State), 1 ≤ n → s.lc = 3 ∨ s.lc = 4 → s.pix + n ≤ s.npix →
    s.CanWrite (s.dstPixel s.pix) (n * s.lc.toNat) →
    exec (.run n) s = .next { s with
      mem := s.mem.writeBytes (s.dstPixel s.pix) (List.replicate n (pixelBytes s.lc s.prev)).flatten
      cache := update s.lc s.cache s.prev, pix := s.pix + n, rp := s.rp + 1 }

/-- R212, R263 step 5 (e) and (f): the pixels of a chunk that overshoot raise PIXEL_COUNT_MISMATCH before any is written;
a refused write raises BUS_ERROR; otherwise all are written and RP passes the chunk (R211). -/
def Obligations.PixelsEmittedOrRaised : Prop :=
  ∀ (s : State) (p : Pixel) (n len : Nat), s.lc = 3 ∨ s.lc = 4 → 1 ≤ n →
    (s.npix < s.pix + n → chunkStep s p n len = .error (.raise .pixelCountMismatch)) ∧
    (s.pix + n ≤ s.npix → s.CanWrite (s.dstPixel s.pix) (n * s.lc.toNat) →
      chunkStep s p n len = .ok { s with
        mem := s.mem.writeBytes (s.dstPixel s.pix) (List.replicate n (pixelBytes s.lc p)).flatten
        cache := update s.lc s.cache p, prev := p, pix := s.pix + n, rp := s.rp + len }) ∧
    (s.pix + n ≤ s.npix → s.dstPixel s.pix + n * s.lc.toNat ≤ Config.addressEnd →
      (∃ j, j < n * s.lc.toNat ∧ s.platform.memOk (s.dstPixel s.pix + j) .write = false) →
      chunkStep s p n len = .error (.raise .busError))

/-- The frame of the six chunks: a chunk that does not end the operation in error writes `CACHE`, `PREV`, `PIX`, `RP` and
the bytes of its pixels, from the address of destination pixel PIX on, and nothing else (R45, R211, R212). -/
def Obligations.ChunkFrame : Prop :=
  ∀ (i : Instr) (s t : State), i.place = .chunk → s.lc = 3 ∨ s.lc = 4 → exec i s = .next t →
    (t = s.raise .pixelCountMismatch ∨ t = s.raise .busError) ∨
    ((∃ mem cache prev pix rp, t = { s with mem := mem, cache := cache, prev := prev, pix := pix, rp := rp }) ∧
      t.rp = s.rp + i.length ∧
      (∀ a, a < s.dstPixel s.pix ∨ s.dstPixel t.pix ≤ a → t.mem.read a = s.mem.read a))

/-! ### The framing items' meanings -/

/-- R141, R142, R210: a header whose checks pass and whose image fits initialises the decode. -/
def Obligations.HeaderInitialisesDecode : Prop :=
  ∀ (w h : Word) (c cs : Byte) (s : State), c = 3 ∨ c = 4 → cs = 0 ∨ cs = 1 → w ≠ 0 → h ≠ 0 →
    w.toNat * h.toNat * c.toNat ≤ s.dstCap.toNat →
    exec (.hdr w h c cs) s = .next { s with
      lw := w, lh := h, lc := c, lcs := cs, rp := 14, prev := ⟨0, 0, 0, 255⟩
      cache := Vector.replicate 64 ⟨0, 0, 0, 0⟩, pix := 0, phase := .body }

/-- R142 checks 2 to 4 and R210's capacity check, in their order. -/
def Obligations.HeaderChecksInOrder : Prop :=
  ∀ (w h : Word) (c cs : Byte) (s : State),
    (¬(c = 3 ∨ c = 4) → exec (.hdr w h c cs) s = .next (s.raise .invalidChannels)) ∧
    (c = 3 ∨ c = 4 → ¬(cs = 0 ∨ cs = 1) → exec (.hdr w h c cs) s = .next (s.raise .invalidColorspace)) ∧
    (c = 3 ∨ c = 4 → cs = 0 ∨ cs = 1 → w = 0 ∨ h = 0 → exec (.hdr w h c cs) s = .next (s.raise .zeroDimension)) ∧
    (c = 3 ∨ c = 4 → cs = 0 ∨ cs = 1 → w ≠ 0 → h ≠ 0 → s.dstCap.toNat < w.toNat * h.toNat * c.toNat →
      exec (.hdr w h c cs) s = .next (s.raise .capacityExceeded))

/-- R213, R247: the end marker reports the image and completes the operation. -/
def Obligations.EndMarkerCompletes : Prop :=
  ∀ s : State, exec .endMarker s = .next { s with
    rp := s.rp + 8, imgWidth := s.lw, imgHeight := s.lh, imgFormat := ⟨s.lc, s.lcs⟩
    outLen := BitVec.ofNat 32 (s.npix * s.lc.toNat)
    status := ⟨false, true, s.status.err⟩, irq := s.ctrl.irqEn, phase := .idle }

/-- The frame of the items that are no chunks: the framing items and the commands store no byte of memory unless they end
the operation in error (R141, R144, R241). -/
def Obligations.FramingAndCommandFrame : Prop :=
  ∀ (i : Instr) (s t : State), i.place ≠ .chunk → exec i s = .next t →
    (∃ c, t = s.raise c) ∨
    (t.mem = s.mem ∧ t.platform = s.platform ∧ t.host = s.host ∧ t.rdata = s.rdata ∧ t.draws = s.draws ∧
      t.op = s.op ∧ t.wp = s.wp ∧ t.srcBase = s.srcBase ∧ t.srcLen = s.srcLen ∧ t.dstBase = s.dstBase ∧
      t.dstCap = s.dstCap ∧ (t.ctrl = s.ctrl ∨ i.place = .ctrl) ∧
      ((t.imgWidth = s.imgWidth ∧ t.imgHeight = s.imgHeight ∧ t.imgFormat = s.imgFormat) ∨ i.place = .tail) ∧
      ((t.prev = s.prev ∧ t.cache = s.cache ∧ t.pix = s.pix ∧ t.lw = s.lw ∧ t.lh = s.lh ∧ t.lc = s.lc ∧
        t.lcs = s.lcs) ∨ i.place = .header))

/-! ### The commands' meanings -/

/-- R241: each command, written while BUSY = 0, starts an operation. -/
def Obligations.CommandsStartOperation : Prop :=
  ∀ (cmd : BitVec 2) (irqEn : Bool) (s t : State), s.status.busy = false →
    t = { s with ctrl := ⟨cmd, irqEn⟩, status := ⟨true, false, false⟩, irq := false, errcode := 0, outLen := 0,
                 phase := .check } →
    (cmd = 0 → exec (.encodeCmd irqEn) s = .next t) ∧ (cmd = 1 → exec (.decodeCmd irqEn) s = .next t) ∧
    (cmd = 2 ∨ cmd = 3 → exec (.reservedCmd cmd irqEn) s = .next t)

/-- R240, R241: a START while BUSY = 1 changes nothing. -/
def Obligations.StartWhileBusyIgnored : Prop :=
  ∀ (cmd : BitVec 2) (irqEn : Bool) (s : State), s.status.busy = true →
    exec (.encodeCmd irqEn) s = .next s ∧ exec (.decodeCmd irqEn) s = .next s ∧
    exec (.reservedCmd cmd irqEn) s = .next s

/-! ### The engine's steps -/

/-- R242, R243, R244, R190: the CHECK step, every check in its order, and what it writes when all pass. Read by inference: a
CHECK step that ends in error leaves OP as it was (log 23, from R262), though R242 writes OP before its checks. -/
def Obligations.CheckStepRule : Prop :=
  ∀ s : State, s.host = [] → s.phase = .check →
    step s = .next (
      if s.ctrl.cmd = 2 ∨ s.ctrl.cmd = 3 then s.raise .illegalCommand
      else if s.ctrl.cmd = 0 ∧ ¬(s.imgFormat.channels = 3 ∨ s.imgFormat.channels = 4) then s.raise .valChannels
      else if s.ctrl.cmd = 0 ∧ ¬(s.imgFormat.colorspace = 0 ∨ s.imgFormat.colorspace = 1) then s.raise .valColorspace
      else if s.ctrl.cmd = 0 ∧ (s.imgWidth = 0 ∨ s.imgHeight = 0) then s.raise .valZeroDimension
      else if s.ctrl.cmd = 0 ∧ s.srcLen = 0 then s.raise .valEmptyBuffer
      else if s.ctrl.cmd = 0 ∧
          s.srcLen.toNat ≠ s.imgWidth.toNat * s.imgHeight.toNat * s.imgFormat.channels.toNat then s.raise .valPixelCount
      else if 2 ^ 32 < s.srcBase.toNat + s.srcLen.toNat ∨ 2 ^ 32 < s.dstBase.toNat + s.dstCap.toNat then
        s.raise .bufferFault
      else if 0 < s.srcLen.toNat ∧ 0 < s.dstCap.toNat ∧ s.srcBase.toNat < s.dstBase.toNat + s.dstCap.toNat ∧
          s.dstBase.toNat < s.srcBase.toNat + s.srcLen.toNat then s.raise .bufferFault
      else if s.ctrl.cmd = 0 then
        { s with op := .enc, lw := s.imgWidth, lh := s.imgHeight, lc := s.imgFormat.channels
                 lcs := s.imgFormat.colorspace, prev := ⟨0, 0, 0, 255⟩, cache := Vector.replicate 64 ⟨0, 0, 0, 0⟩
                 pix := 0, wp := 0, phase := .header }
      else { s with op := .dec, phase := .header })

/-- R196: emit checks the capacity before it writes a byte, and raises BUS_ERROR on a refused write. -/
def Obligations.EmitRule : Prop :=
  ∀ (s : State) (bs : List Byte),
    (s.dstCap.toNat < s.wp + bs.length → emit s bs = .error (.raise .capacityExceeded)) ∧
    (s.wp + bs.length ≤ s.dstCap.toNat → s.CanWrite (s.dstBase.toNat + s.wp) bs.length →
      emit s bs = .ok { s with
        mem := s.mem.writeBytes (s.dstBase.toNat + s.wp) bs, wp := s.wp + bs.length }) ∧
    (s.wp + bs.length ≤ s.dstCap.toNat → s.dstBase.toNat + s.wp + bs.length ≤ Config.addressEnd →
      (∃ j, j < bs.length ∧ s.platform.memOk (s.dstBase.toNat + s.wp + j) .write = false) →
      emit s bs = .error (.raise .busError))

/-- R140: the encoder's HEADER step emits the fourteen bytes and goes to BODY, or ends in CAPACITY_EXCEEDED or
BUS_ERROR. -/
def Obligations.EncoderHeaderStep : Prop :=
  ∀ s : State, s.host = [] → s.phase = .header → s.op = .enc →
    (s.dstCap.toNat < s.wp + 14 → step s = .next (s.raise .capacityExceeded)) ∧
    (s.wp + 14 ≤ s.dstCap.toNat → s.CanWrite (s.dstBase.toNat + s.wp) 14 →
      step s = .next { s with
        mem := s.mem.writeBytes (s.dstBase.toNat + s.wp)
          [0x71, 0x6F, 0x69, 0x66,
           BitVec.ofNat 8 (s.lw.toNat / 2 ^ 24), BitVec.ofNat 8 (s.lw.toNat / 2 ^ 16),
           BitVec.ofNat 8 (s.lw.toNat / 2 ^ 8), BitVec.ofNat 8 s.lw.toNat,
           BitVec.ofNat 8 (s.lh.toNat / 2 ^ 24), BitVec.ofNat 8 (s.lh.toNat / 2 ^ 16),
           BitVec.ofNat 8 (s.lh.toNat / 2 ^ 8), BitVec.ofNat 8 s.lh.toNat, s.lc, s.lcs]
        wp := s.wp + 14, phase := .body }) ∧
    (s.wp + 14 ≤ s.dstCap.toNat → s.dstBase.toNat + s.wp + 14 ≤ Config.addressEnd →
      (∃ j, j < 14 ∧ s.platform.memOk (s.dstBase.toNat + s.wp + j) .write = false) →
      step s = .next (s.raise .busError))

/-- R193: the encoder's BODY step on a pixel equal to PREV codes the longest run of at most 62 pixels as one RUN chunk,
updates the cache once and leaves PREV. -/
def Obligations.EncoderCodesRun : Prop :=
  ∀ (s : State) (n : Nat), s.host = [] → s.phase = .body → s.op = .enc → s.lc = 3 ∨ s.lc = 4 →
    1 ≤ n → n ≤ 62 → s.pix + n ≤ s.npix → eqC s.lc (s.pixelAt s.pix) s.prev = true →
    (∀ j, 1 ≤ j → j < n → eqC s.lc (s.pixelAt (s.pix + j)) (s.pixelAt s.pix) = true) →
    (n = 62 ∨ s.pix + n = s.npix ∨ eqC s.lc (s.pixelAt (s.pix + n)) (s.pixelAt s.pix) = false) →
    (∀ j, j ≤ n → j < 62 → s.pix + j < s.npix → s.CanRead (s.srcPixel (s.pix + j)) s.lc.toNat) →
    s.wp + 1 ≤ s.dstCap.toNat → s.CanWrite (s.dstBase.toNat + s.wp) 1 →
    step s = .next { s with
      mem := s.mem.write (s.dstBase.toNat + s.wp) (BitVec.ofNat 8 (0xC0 + (n - 1))), wp := s.wp + 1
      cache := update s.lc s.cache (s.pixelAt s.pix), pix := s.pix + n }

/-- R192 steps 2 to 6, R195: the encoder's BODY step on any other pixel codes it by the mandatory priority INDEX, DIFF,
LUMA, RAW, and updates the cache, PREV and PIX; at PIX = NPIX it goes to TAIL instead. -/
def Obligations.EncoderCodesPixel : Prop :=
  ∀ (s : State) (p : Pixel) (i : Instr), s.host = [] → s.phase = .body → s.op = .enc → s.lc = 3 ∨ s.lc = 4 →
    (s.pix = s.npix → step s = .next { s with phase := .tail }) ∧
    (s.pix < s.npix → s.CanRead (s.srcPixel s.pix) s.lc.toNat → p = s.pixelAt s.pix → eqC s.lc p s.prev = false →
      i = (if eqC s.lc (slot s.cache (indexOf s.lc p)) p then Instr.index (indexOf s.lc p)
           else if diffOk s.lc p s.prev then .diff (wd p.r s.prev.r) (wd p.g s.prev.g) (wd p.b s.prev.b)
           else if lumaOk s.lc p s.prev then
             .luma (wd p.g s.prev.g) (wd p.r s.prev.r - wd p.g s.prev.g) (wd p.b s.prev.b - wd p.g s.prev.g)
           else if s.lc = 3 ∨ p.a = s.prev.a then .rgb p.r p.g p.b
           else .rgba p.r p.g p.b p.a) →
      s.wp + i.length ≤ s.dstCap.toNat → s.CanWrite (s.dstBase.toNat + s.wp) i.length →
      step s = .next { s with
        mem := s.mem.writeBytes (s.dstBase.toNat + s.wp) (encode i), wp := s.wp + i.length
        cache := update s.lc s.cache p, prev := p, pix := s.pix + 1 })

/-- R263 step 5, R196, R269: how the encoder's BODY step ends in error, in the order of its checks. A refused byte of the
pixel at PIX, or of the pixel the run scan looks ahead at, is BUS_ERROR, whatever room is left; else a chunk that would
pass DST_CAP is CAPACITY_EXCEEDED, before any of it is written; else a refused byte of the chunk is BUS_ERROR. -/
def Obligations.CapacityEndsEncode : Prop :=
  ∀ s : State, s.host = [] → s.phase = .body → s.op = .enc → s.lc = 3 ∨ s.lc = 4 → s.pix < s.npix →
    (s.srcPixel s.pix + s.lc.toNat ≤ Config.addressEnd →
      (∃ j, j < s.lc.toNat ∧ s.platform.memOk (s.srcPixel s.pix + j) .read = false) → step s = .next (s.raise .busError)) ∧
    (∀ n, s.RunOf n → n < 62 → s.pix + n < s.npix →
      s.srcPixel (s.pix + n) + s.lc.toNat ≤ Config.addressEnd →
      (∃ j, j < s.lc.toNat ∧ s.platform.memOk (s.srcPixel (s.pix + n) + j) .read = false) →
      step s = .next (s.raise .busError)) ∧
    (∀ n, s.RunOf n →
      (n = 62 ∨ s.pix + n = s.npix ∨ (s.CanRead (s.srcPixel (s.pix + n)) s.lc.toNat ∧
        eqC s.lc (s.pixelAt (s.pix + n)) (s.pixelAt s.pix) = false)) →
      (s.dstCap.toNat < s.wp + 1 → step s = .next (s.raise .capacityExceeded)) ∧
      (s.wp + 1 ≤ s.dstCap.toNat → s.dstBase.toNat + s.wp < Config.addressEnd →
        s.platform.memOk (s.dstBase.toNat + s.wp) .write = false → step s = .next (s.raise .busError))) ∧
    (s.CanRead (s.srcPixel s.pix) ((s.npix - s.pix) * s.lc.toNat) → s.dstCap.toNat < s.wp + 1 →
      step s = .next (s.raise .capacityExceeded)) ∧
    (∀ len, s.CanRead (s.srcPixel s.pix) s.lc.toNat → eqC s.lc (s.pixelAt s.pix) s.prev = false →
      len = (selectChunk s.lc s.prev s.cache (s.pixelAt s.pix)).length →
      (s.dstCap.toNat < s.wp + len → step s = .next (s.raise .capacityExceeded)) ∧
      (s.wp + len ≤ s.dstCap.toNat → s.dstBase.toNat + s.wp + len ≤ Config.addressEnd →
        (∃ j, j < len ∧ s.platform.memOk (s.dstBase.toNat + s.wp + j) .write = false) →
        step s = .next (s.raise .busError)))

/-- R143, R197, R247: the encoder's TAIL step appends the end marker and completes with `OUT_LEN`, or ends in
CAPACITY_EXCEEDED or BUS_ERROR. -/
def Obligations.EncoderTailStep : Prop :=
  ∀ s : State, s.host = [] → s.phase = .tail → s.op = .enc →
    (s.dstCap.toNat < s.wp + 8 → step s = .next (s.raise .capacityExceeded)) ∧
    (s.wp + 8 ≤ s.dstCap.toNat → s.CanWrite (s.dstBase.toNat + s.wp) 8 →
      step s = .next { s with
        mem := s.mem.writeBytes (s.dstBase.toNat + s.wp) [0, 0, 0, 0, 0, 0, 0, 1], wp := s.wp + 8
        outLen := BitVec.ofNat 32 (s.wp + 8), status := ⟨false, true, s.status.err⟩, irq := s.ctrl.irqEn
        phase := .idle }) ∧
    (s.wp + 8 ≤ s.dstCap.toNat → s.dstBase.toNat + s.wp + 8 ≤ Config.addressEnd →
      (∃ j, j < 8 ∧ s.platform.memOk (s.dstBase.toNat + s.wp + j) .write = false) →
      step s = .next (s.raise .busError))

/-- R141, R142, R210: the decoder's HEADER step, every check in its order, and what it writes when all pass. -/
def Obligations.DecoderHeaderStep : Prop :=
  ∀ (s : State) (h : Nat → Byte) (w ht : Nat), s.host = [] → s.phase = .header → s.op = .dec →
    (∀ k, h k = s.mem.read (s.srcBase.toNat + k)) →
    w = (h 4).toNat * 2 ^ 24 + (h 5).toNat * 2 ^ 16 + (h 6).toNat * 2 ^ 8 + (h 7).toNat →
    ht = (h 8).toNat * 2 ^ 24 + (h 9).toNat * 2 ^ 16 + (h 10).toNat * 2 ^ 8 + (h 11).toNat →
    (s.srcLen.toNat < 14 → step s = .next (s.raise .truncatedStream)) ∧
    (14 ≤ s.srcLen.toNat → s.srcBase.toNat + 14 ≤ Config.addressEnd →
      (∃ j, j < 14 ∧ s.platform.memOk (s.srcBase.toNat + j) .read = false) → step s = .next (s.raise .busError)) ∧
    (14 ≤ s.srcLen.toNat → s.CanRead s.srcBase.toNat 14 →
      step s = .next (
        if ¬(h 0 = 0x71 ∧ h 1 = 0x6F ∧ h 2 = 0x69 ∧ h 3 = 0x66) then s.raise .badMagic
        else if ¬(h 12 = 3 ∨ h 12 = 4) then s.raise .invalidChannels
        else if ¬(h 13 = 0 ∨ h 13 = 1) then s.raise .invalidColorspace
        else if w = 0 ∨ ht = 0 then s.raise .zeroDimension
        else if s.dstCap.toNat < w * ht * (h 12).toNat then s.raise .capacityExceeded
        else { s with lw := BitVec.ofNat 32 w, lh := BitVec.ofNat 32 ht, lc := h 12, lcs := h 13, rp := 14
                      prev := ⟨0, 0, 0, 255⟩, cache := Vector.replicate 64 ⟨0, 0, 0, 0⟩, pix := 0, phase := .body }))

/-- R211, R263 step 5 (a) to (d): how the decoder's BODY step ends when a chunk's bytes are not there, and that it goes to
TAIL at PIX = NPIX. -/
def Obligations.DecoderBodyFetch : Prop :=
  ∀ (s : State) (t : Byte), s.host = [] → s.phase = .body → s.op = .dec →
    t = s.mem.read (s.srcBase.toNat + s.rp) →
    (s.pix = s.npix → step s = .next { s with phase := .tail }) ∧
    (s.pix ≠ s.npix → s.srcLen.toNat ≤ s.rp → step s = .next (s.raise .truncatedStream)) ∧
    (s.pix ≠ s.npix → s.rp < s.srcLen.toNat → s.srcBase.toNat + s.rp < Config.addressEnd →
      s.platform.memOk (s.srcBase.toNat + s.rp) .read = false → step s = .next (s.raise .busError)) ∧
    (s.pix ≠ s.npix → s.rp < s.srcLen.toNat → s.CanRead (s.srcBase.toNat + s.rp) 1 →
      s.srcLen.toNat < s.rp + (classify t).length → step s = .next (s.raise .truncatedStream)) ∧
    (s.pix ≠ s.npix → s.CanRead (s.srcBase.toNat + s.rp) 1 → s.rp + (classify t).length ≤ s.srcLen.toNat →
      s.srcBase.toNat + s.rp + (classify t).length ≤ Config.addressEnd →
      (∃ j, j < (classify t).length ∧ s.platform.memOk (s.srcBase.toNat + s.rp + j) .read = false) →
      step s = .next (s.raise .busError))

/-- R144, R213, R247: the decoder's TAIL step. Exactly eight bytes must be left and be the marker. -/
def Obligations.DecoderTailStep : Prop :=
  ∀ s : State, s.host = [] → s.phase = .tail → s.op = .dec →
    (s.srcLen.toNat ≠ s.rp + 8 → step s = .next (s.raise .missingEndMarker)) ∧
    (s.srcLen.toNat = s.rp + 8 → s.CanRead (s.srcBase.toNat + s.rp) 8 →
      s.mem.readBytes (s.srcBase.toNat + s.rp) 8 ≠ [0, 0, 0, 0, 0, 0, 0, 1] →
      step s = .next (s.raise .missingEndMarker)) ∧
    (s.srcLen.toNat = s.rp + 8 → s.srcBase.toNat + s.rp + 8 ≤ Config.addressEnd →
      (∃ j, j < 8 ∧ s.platform.memOk (s.srcBase.toNat + s.rp + j) .read = false) → step s = .next (s.raise .busError)) ∧
    (s.srcLen.toNat = s.rp + 8 → s.CanRead (s.srcBase.toNat + s.rp) 8 →
      s.mem.readBytes (s.srcBase.toNat + s.rp) 8 = [0, 0, 0, 0, 0, 0, 0, 1] →
      step s = .next { s with
        rp := s.rp + 8, imgWidth := s.lw, imgHeight := s.lh, imgFormat := ⟨s.lc, s.lcs⟩
        outLen := BitVec.ofNat 32 (s.npix * s.lc.toNat)
        status := ⟨false, true, s.status.err⟩, irq := s.ctrl.irqEn, phase := .idle })

/-- A step runs the decoded instruction: a chunk at RP, the header at the start of the source, the marker at RP, a command
in the host's next CTRL write. A host move that does nothing leaves the step to the engine (log 5). -/
def Obligations.StepRunsDecodedInstruction : Prop :=
  ∀ (s : State) (i : Instr),
    (s.host = [] → s.phase = .body → s.op = .dec → s.pix ≠ s.npix → s.CanRead (s.srcBase.toNat + s.rp) i.length →
      s.rp + i.length ≤ s.srcLen.toNat →
      decode .chunk (s.mem.readBytes (s.srcBase.toNat + s.rp) i.length) = .instr i [] → step s = exec i s) ∧
    (s.host = [] → s.phase = .header → s.op = .dec → s.CanRead s.srcBase.toNat 14 → 14 ≤ s.srcLen.toNat →
      decode .header (s.mem.readBytes s.srcBase.toNat 14) = .instr i [] → step s = exec i s) ∧
    (s.host = [] → s.phase = .tail → s.op = .dec → s.CanRead (s.srcBase.toNat + s.rp) 8 →
      s.srcLen.toNat = s.rp + 8 →
      decode .tail (s.mem.readBytes (s.srcBase.toNat + s.rp) 8) = .instr i [] → step s = exec i s) ∧
    (∀ (v : Word) (moves : List HostMove), s.host = .regWrite s.platform.regBase 4 v :: moves → s.status.busy = false →
      decode .ctrl (leBytes v) = .instr i [] → step s = exec i { s with host := moves }) ∧
    (∀ moves : List HostMove, s.host = .wait :: moves → step s = engineStep { s with host := moves })

/-- R272: the idle engine changes nothing. -/
def Obligations.IdleEngineRests : Prop :=
  ∀ s : State, s.phase = .idle → s.host = [] → step s = .next s

/-! ### The host's port. The host's move stands at the head of the queue `host`, the model's own (log 5). -/

/-- R240, R241, R245, R248: what a host write to each offset of the window does. -/
def Obligations.RegisterWrite : Prop :=
  ∀ (s u : State) (o : Nat) (v : Word) (moves : List HostMove), o < 64 → o % 4 = 0 →
    s.host = .regWrite (s.platform.regBase + o) 4 v :: moves → u = { s with host := moves } →
    step s = .next (
      if s.status.busy then u
      else if o = 0x00 then
        (if v.getLsbD 0 then
          { u with ctrl := ⟨v.extractLsb' 1 2, v.getLsbD 3⟩, status := ⟨true, false, false⟩, irq := false, errcode := 0,
                   outLen := 0, phase := .check }
        else { u with ctrl := ⟨v.extractLsb' 1 2, v.getLsbD 3⟩, irq := v.getLsbD 3 && (s.status.done || s.status.err) })
      else if o = 0x04 then
        { u with status := ⟨s.status.busy, s.status.done && !v.getLsbD 1, s.status.err && !v.getLsbD 2⟩
                 irq := s.ctrl.irqEn && ((s.status.done && !v.getLsbD 1) || (s.status.err && !v.getLsbD 2)) }
      else if o = 0x0C then { u with imgWidth := v }
      else if o = 0x10 then { u with imgHeight := v }
      else if o = 0x14 then { u with imgFormat := ⟨v.extractLsb' 0 8, v.extractLsb' 8 8⟩ }
      else if o = 0x18 then { u with srcBase := v }
      else if o = 0x1C then { u with srcLen := v }
      else if o = 0x20 then { u with dstBase := v }
      else if o = 0x24 then { u with dstCap := v }
      else u)

/-- R246: what a host read of each offset of the window returns, at any time, with no side effect. -/
def Obligations.RegisterRead : Prop :=
  ∀ (s : State) (o : Nat) (moves : List HostMove), o < 64 → o % 4 = 0 →
    s.host = .regRead (s.platform.regBase + o) 4 :: moves →
    ∃ v : Word, step s = .next { s with host := moves, rdata := v } ∧
      v.toNat =
        (if o = 0x00 then s.ctrl.irqEn.toNat * 8 + s.ctrl.cmd.toNat * 2
        else if o = 0x04 then s.status.err.toNat * 4 + s.status.done.toNat * 2 + s.status.busy.toNat
        else if o = 0x08 then s.errcode.toNat
        else if o = 0x0C then s.imgWidth.toNat
        else if o = 0x10 then s.imgHeight.toNat
        else if o = 0x14 then s.imgFormat.colorspace.toNat * 256 + s.imgFormat.channels.toNat
        else if o = 0x18 then s.srcBase.toNat
        else if o = 0x1C then s.srcLen.toNat
        else if o = 0x20 then s.dstBase.toNat
        else if o = 0x24 then s.dstCap.toNat
        else if o = 0x28 then s.outLen.toNat
        else 0)

/-- R65, R43: any other access to the window is refused. -/
def Obligations.UnadmittedAccessRefused : Prop :=
  ∀ (s : State) (addr size : Nat) (v : Word) (moves : List HostMove),
    s.host = .regWrite addr size v :: moves ∨ s.host = .regRead addr size :: moves →
    ¬(∃ o, o < 64 ∧ o % 4 = 0 ∧ size = 4 ∧ addr = s.platform.regBase + o) →
    step s = .refused .windowAccess

/-- R71, R249: the host's accesses to system memory. A write to either region while BUSY = 1 is no move of the host; what
it reads of the destination then is a fresh free value. -/
def Obligations.HostMemoryPort : Prop :=
  ∀ (s u : State) (a : Word) (v : Byte) (moves : List HostMove), u = { s with host := moves } →
    (s.host = .memWrite a v :: moves →
      step s = if s.status.busy = true ∧ (s.inSource a.toNat = true ∨ s.inDestination a.toNat = true) then
          .refused .hostWriteWhileBusy
        else .next { u with mem := s.mem.write a.toNat v }) ∧
    (s.host = .memRead a :: moves →
      step s = .next (
        if s.status.busy = true ∧ s.inDestination a.toNat = true then
          { u with rdata := (Config.freeByte s.draws a.toNat).setWidth 32, draws := s.draws + 1 }
        else { u with rdata := (s.mem.read a.toNat).setWidth 32 }))

/-- R290, R291, R47: hardware reset, for every piece of state the spec gives a reset value. Memory is not touched; but for
an abandoned operation that may have written to its destination, those bytes read as a free value (log 8). -/
def Obligations.HardwareReset : Prop :=
  ∀ (s : State) (moves : List HostMove), s.host = .reset :: moves →
    ∃ t, step s = .next t ∧
      t.ctrl = ⟨0, false⟩ ∧ t.status = ⟨false, false, false⟩ ∧ t.errcode = 0 ∧ t.imgWidth = 0 ∧ t.imgHeight = 0 ∧
      t.imgFormat = ⟨0, 0⟩ ∧ t.srcBase = 0 ∧ t.srcLen = 0 ∧ t.dstBase = 0 ∧ t.dstCap = 0 ∧ t.outLen = 0 ∧
      t.irq = false ∧ t.phase = .idle ∧ t.host = moves ∧ t.platform = s.platform ∧ t.rdata = s.rdata ∧
      (∀ a, s.inDestination a = false ∨ s.phase = .idle → t.mem.read a = s.mem.read a) ∧
      (∀ a, s.inDestination a = true → a < Config.addressEnd → s.phase.working →
        t.mem.read a = Config.freeByte s.draws a)

/-! ### Endings -/

/-- R261, R260: the error ending. Only the flags, the code and the phase change, `irq` with them, and destination bytes
become unspecified once the operation may have written to them: they read as a free value (log 7). -/
def Obligations.ErrorEnding : Prop :=
  ∀ (s : State) (c : ErrCode),
    (∃ mem draws, s.raise c = { s with
      phase := .idle, status := ⟨false, s.status.done, true⟩, irq := s.ctrl.irqEn
      errcode := (match c with
        | .badMagic => 1 | .invalidChannels => 2 | .invalidColorspace => 3 | .zeroDimension => 4 | .truncatedStream => 5
        | .missingEndMarker => 6 | .pixelCountMismatch => 7 | .valEmptyBuffer => 8 | .valPixelCount => 9
        | .valChannels => 10 | .valColorspace => 11 | .valZeroDimension => 12 | .capacityExceeded => 13
        | .illegalCommand => 14 | .bufferFault => 15 | .busError => 16)
      mem := mem, draws := draws }) ∧
    (∀ a, s.inDestination a = false → (s.raise c).mem.read a = s.mem.read a) ∧
    (∀ a, s.inDestination a = true → a < Config.addressEnd → s.phase.working →
      (s.raise c).mem.read a = Config.freeByte s.draws a)

/-- R262: errors are precise. An engine step that sets ERR is an error ending from the state before that step. -/
def Obligations.ErrorsArePrecise : Prop :=
  ∀ s t : State, s.status.err = false → engineStep s = .next t → t.status.err = true → ∃ c, t = s.raise c

/-! ### Invariants and safety -/

/-- The invariant holds right after reset. -/
def Obligations.ResetMeetsInvariant : Prop := State.reset.Inv

/-- Every step, the engine's or the host's, keeps the invariant: canonical memory, PHASE = IDLE exactly when BUSY = 0, at
most one flag, `irq` as its level, no reserved error code, regions legal past CHECK, the counters in their ranges, and in
an encode every cache slot zero or its pixel's own (R28, R33, R34, R42, R44, R24 to R27, R61, R125). -/
def Obligations.StepKeepsInvariant : Prop :=
  ∀ s t : State, s.Inv → step s = .next t → t.Inv

/-- From a good state no step faults: every engine access is to an address system memory has (R60, R243, R244, R210). -/
def Obligations.StepNeverFaults : Prop :=
  ∀ (s : State) (f : Fault), s.Inv → step s ≠ .fault f

/-- R41, R60, R70 (d): the engine writes no byte outside the destination region. -/
def Obligations.EngineWritesOnlyDestination : Prop :=
  ∀ s t : State, s.Inv → engineStep s = .next t → ∀ a, s.inDestination a = false → t.mem.read a = s.mem.read a

/-- R60, R70 (d): the engine reads no byte outside the source region. With memory exchanged for one that agrees on the
source region, an engine step, and any number of steps while the host does nothing, answer a next state that differs in
memory alone, and every byte the two memories agreed on they still agree on: what was outside the source went nowhere. -/
def Obligations.EngineReadsOnlySource : Prop :=
  ∀ (s : State) (m : Memory), s.Inv → m.wf → (∀ a, s.inSource a = true → m.read a = s.mem.read a) →
    (∀ t, engineStep s = .next t →
      ∃ m' : Memory, engineStep { s with mem := m } = .next { t with mem := m' } ∧ m'.wf ∧
        ∀ a, m.read a = s.mem.read a → m'.read a = t.mem.read a) ∧
    (∀ (k : Nat) (t : State), s.host = [] → core.run k s = .next t →
      ∃ m' : Memory, core.run k { s with mem := m } = .next { t with mem := m' } ∧ m'.wf ∧
        ∀ a, m.read a = s.mem.read a → m'.read a = t.mem.read a)

/-- R46, R2: no working register's old value shows. Two states in CHECK that differ in working registers alone agree, after
any number of steps, on everything but working registers, or stop alike. -/
def Obligations.OldWorkingRegistersNeverShow : Prop :=
  ∀ (s : State) (prev : Pixel) (cache : Cache) (lw lh : Word) (lc lcs : Byte) (pix rp wp : Nat) (op : Op) (k : Nat),
    s.phase = .check →
    match core.run k s,
      core.run k { s with prev := prev, cache := cache, lw := lw, lh := lh, lc := lc, lcs := lcs, pix := pix, rp := rp,
                          wp := wp, op := op } with
    | .next t, .next u =>
      u = { t with prev := u.prev, cache := u.cache, lw := u.lw, lh := u.lh, lc := u.lc, lcs := u.lcs, pix := u.pix,
                   rp := u.rp, wp := u.wp, op := u.op }
    | .fault f, .fault g => f = g
    | .refused r, .refused q => r = q
    | _, _ => False

/-- R29: with three channels no output depends on an alpha lane. An engine step in BODY or TAIL from two states that differ
in the alpha lanes of PREV and CACHE alone gives two states that differ in those alone. -/
def Obligations.AlphaLaneNeverShows : Prop :=
  ∀ (s t : State) (a : Byte) (k : Cache), s.lc = 3 → s.phase = .body ∨ s.phase = .tail →
    (∀ i, ∃ x, slot k i = { slot s.cache i with a := x }) → engineStep s = .next t →
    ∃ u, engineStep { s with prev := { s.prev with a := a }, cache := k } = .next u ∧
      u = { t with prev := u.prev, cache := u.cache } ∧ (∃ x, u.prev = { t.prev with a := x }) ∧
      (∀ i, ∃ x, slot u.cache i = { slot t.cache i with a := x })

/-! ### Whole operations -/

/-- R199: an encode ends within NPIX + 4 engine steps from its CHECK step, each BODY step ends the body or raises PIX, and
the output is no longer than the rule's bound. -/
def Obligations.EncodeEndsInTime : Prop :=
  (∀ s : State, s.Inv → s.host = [] → s.phase = .check → s.ctrl.cmd = 0 →
    ∃ k t, k ≤ s.imgWidth.toNat * s.imgHeight.toNat + 4 ∧ core.run k s = .next t ∧ t.phase = .idle ∧
      (t.status.done = true ∨ t.status.err = true) ∧
      t.outLen.toNat ≤ 14 + s.imgWidth.toNat * s.imgHeight.toNat * (s.imgFormat.channels.toNat + 1) + 8) ∧
  (∀ s t : State, s.Inv → s.phase = .body → s.op = .enc → engineStep s = .next t → t.phase ≠ .body ∨ s.pix + 1 ≤ t.pix)

/-- R216: a decode ends within min(NPIX, SRC_LEN - 14) + 4 engine steps from its CHECK step, NPIX being the product of the
dimensions in the header bytes; each BODY step ends the body, raises an error, or consumes at least one byte and produces
at least one pixel. The model's choice (log 30): for SRC_LEN < 14, where the rule's SRC_LEN - 14 is negative, it is read
as 0, so the bound is 4. -/
def Obligations.DecodeEndsInTime : Prop :=
  (∀ (s : State) (h : Nat → Byte) (w ht : Nat), s.Inv → s.host = [] → s.phase = .check → s.ctrl.cmd = 1 →
    (∀ k, h k = s.mem.read (s.srcBase.toNat + k)) →
    w = (h 4).toNat * 2 ^ 24 + (h 5).toNat * 2 ^ 16 + (h 6).toNat * 2 ^ 8 + (h 7).toNat →
    ht = (h 8).toNat * 2 ^ 24 + (h 9).toNat * 2 ^ 16 + (h 10).toNat * 2 ^ 8 + (h 11).toNat →
    ∃ k t, k ≤ min (w * ht) (s.srcLen.toNat - 14) + 4 ∧ core.run k s = .next t ∧ t.phase = .idle ∧
      (t.status.done = true ∨ t.status.err = true)) ∧
  (∀ s t : State, s.Inv → s.phase = .body → s.op = .dec → engineStep s = .next t →
    t.phase ≠ .body ∨ (s.rp + 1 ≤ t.rp ∧ s.pix + 1 ≤ t.pix))

/-- R217: decoding what encoding gives returns the image, its header fields and every pixel byte. -/
def Obligations.RoundTrip : Prop :=
  ∀ (im : Image) (cap : Nat), im.valid = true → im.data.length ≤ cap → decodeImage cap (encodeImage im) = .ok im

/-- R198, R299: an encode that meets no capacity or bus error ends with DONE and has written exactly
`encode(LW, LH, LC, LCS, pixels)` at the start of the destination. -/
def Obligations.EncodeRunWritesEncoding : Prop :=
  ∀ (s : State) (out : List Byte), s.Inv → s.host = [] → s.phase = .check → s.ctrl.cmd = 0 →
    (∃ u, s.validateEncode = .ok u) → s.regionsOk = true →
    s.CanRead s.srcBase.toNat s.srcLen.toNat → s.CanWrite s.dstBase.toNat s.dstCap.toNat →
    out = encodeImage ⟨s.imgWidth, s.imgHeight, s.imgFormat.channels, s.imgFormat.colorspace,
      s.mem.readBytes s.srcBase.toNat s.srcLen.toNat⟩ →
    out.length ≤ s.dstCap.toNat →
    ∃ k t, core.run k s = .next t ∧ t.phase = .idle ∧ t.status = ⟨false, true, false⟩ ∧ t.errcode = 0 ∧
      t.outLen.toNat = out.length ∧ t.mem = s.mem.writeBytes s.dstBase.toNat out

/-- R214, R299: a decode that meets no bus error ends as `decode(bytes)` says: with DONE, the image reported and exactly its
pixel bytes written, or with ERR and the first error's code. -/
def Obligations.DecodeRunWritesDecoding : Prop :=
  ∀ s : State, s.Inv → s.host = [] → s.phase = .check → s.ctrl.cmd = 1 → s.regionsOk = true →
    s.CanRead s.srcBase.toNat s.srcLen.toNat → s.CanWrite s.dstBase.toNat s.dstCap.toNat →
    ∃ k t, core.run k s = .next t ∧ t.phase = .idle ∧
      match decodeImage s.dstCap.toNat (s.mem.readBytes s.srcBase.toNat s.srcLen.toNat) with
      | .ok im => t.status = ⟨false, true, false⟩ ∧ t.errcode = 0 ∧ t.imgWidth = im.w ∧ t.imgHeight = im.h ∧
          t.imgFormat = ⟨im.c, im.cs⟩ ∧ t.outLen.toNat = im.data.length ∧
          t.mem = s.mem.writeBytes s.dstBase.toNat im.data
      | .error c => t.status = ⟨false, false, true⟩ ∧ t.errcode = c.num ∧ t.outLen = 0
end

