-- ==== Sys2Proof/Laws/Decode.lean ====
section
/-! SUPPORT. The small lemmas of the decoder's helpers: byte order, biased fields, lengths. -/

namespace Sys2Proof

/-! ### Byte order -/

theorem beWord_getLsbD (b3 b2 b1 b0 : Byte) (i : Nat) :
    (beWord b3 b2 b1 b0).getLsbD i =
      if i < 8 then b0.getLsbD i
      else if i < 16 then b1.getLsbD (i - 8)
      else if i < 24 then b2.getLsbD (i - 16)
      else b3.getLsbD (i - 24) := by
  unfold beWord
  rw [BitVec.getLsbD_append, BitVec.getLsbD_append, BitVec.getLsbD_append]
  simp only [Nat.sub_sub]
  repeat' split
  all_goals first | rfl | omega

/-- A word put together from its own bytes. -/
theorem beWord_beBytes (w : Word) :
    beWord (w.extractLsb' 24 8) (w.extractLsb' 16 8) (w.extractLsb' 8 8) (w.extractLsb' 0 8) = w := by
  refine BitVec.eq_of_getLsbD_eq fun i hi => ?_
  rw [beWord_getLsbD]
  simp only [BitVec.getLsbD_extractLsb']
  repeat' split
  · simp [*]
  · simp [show i - 8 < 8 by omega, show 8 + (i - 8) = i by omega]
  · simp [show i - 16 < 8 by omega, show 16 + (i - 16) = i by omega]
  · simp [show i - 24 < 8 by omega, show 24 + (i - 24) = i by omega]

/-- The bytes of a word put together from bytes. -/
theorem beBytes_beWord (b3 b2 b1 b0 : Byte) : beBytes (beWord b3 b2 b1 b0) = [b3, b2, b1, b0] := by
  have h : ∀ (k : Nat) (b : Byte), (∀ i, i < 8 → (beWord b3 b2 b1 b0).getLsbD (k + i) = b.getLsbD i) →
      (beWord b3 b2 b1 b0).extractLsb' k 8 = b := fun k b hk =>
    BitVec.eq_of_getLsbD_eq fun i hi => by rw [BitVec.getLsbD_extractLsb', hk i hi]; simp [hi]
  unfold beBytes
  rw [h 24 b3, h 16 b2, h 8 b1, h 0 b0] <;> intro i hi <;> rw [beWord_getLsbD]
  · simp [hi]
  · simp [show ¬8 + i < 8 by omega, show 8 + i < 16 by omega]
  · simp [show ¬16 + i < 8 by omega, show ¬16 + i < 16 by omega, show 16 + i < 24 by omega]
  · simp [show ¬24 + i < 8 by omega, show ¬24 + i < 16 by omega, show ¬24 + i < 24 by omega]

/-- The value of a big-endian word (R62). -/
theorem beWord_toNat (b3 b2 b1 b0 : Byte) :
    (beWord b3 b2 b1 b0).toNat = b3.toNat * 2 ^ 24 + b2.toNat * 2 ^ 16 + b1.toNat * 2 ^ 8 + b0.toNat := by
  have h : ∀ (x : Nat) (b : Byte), x <<< 8 ||| b.toNat = x * 2 ^ 8 + b.toNat := fun x b => by
    rw [Nat.shiftLeft_eq, Nat.mul_comm, ← Nat.two_pow_add_eq_or_of_lt b.isLt]
  unfold beWord
  rw [BitVec.toNat_append, BitVec.toNat_append, BitVec.toNat_append, h, h, h]
  omega

/-! ### Biased fields -/

/-- A field is its operand again, for every operand the field holds (R83). -/
theorem unbias_biased (n : Nat) (v bias : Int) (h0 : 0 ≤ v + bias) (h1 : v + bias < ((2 ^ n : Nat) : Int)) :
    unbias (biased n v bias) bias = v := by
  simp only [unbias, biased, BitVec.toNat_ofInt]
  rw [Int.emod_eq_of_lt h0 h1]
  omega

/-- An operand's field is the field it came from (R83). -/
theorem biased_unbias {n : Nat} (f : BitVec n) (bias : Int) : biased n (unbias f bias) bias = f := by
  simp [unbias, biased]

/-! ### Lengths -/

theorem ChunkKind.length_pos (k : ChunkKind) : 1 ≤ k.length := by cases k <;> decide

theorem ChunkKind.length_le (k : ChunkKind) : k.length ≤ 5 := by cases k <;> decide

theorem beBytes_length (w : Word) : (beBytes w).length = 4 := rfl

theorem tableBytes_length (n w : Nat) : (tableBytes n w).length = n := by
  induction n generalizing w with
  | zero => rfl
  | succ n ih => simp [tableBytes, ih]

/-! ### Rejections -/

/-- A chunk is rejected only for want of bytes: no tag value is unassigned (R85). -/
theorem decodeChunk_reject {bs : List Byte} {e : DecodeError} (h : decodeChunk bs = .reject e) : e = .truncated := by
  unfold decodeChunk at h
  split at h
  · cases h; rfl
  · split at h <;> cases h <;> rfl

/-- A chunk decoded is a chunk, and its length the class's (R84). -/
theorem decodeChunk_instr {t : Byte} {more rest : List Byte} {i : Instr} (h : decodeChunk (t :: more) = .instr i rest) :
    i.place = .chunk ∧ i.length = (classify t).length ∧ rest = more.drop (i.length - 1) ∧
      i.length ≤ more.length + 1 := by
  unfold decodeChunk at h
  simp only at h
  split at h <;> cases h <;> rename_i hk <;> simp_all [Instr.place, Instr.length, ChunkKind.length, decodeIndex,
    decodeDiff, decodeLuma, decodeRun]

end Sys2Proof
end

