-- ==== Sys2Proof/Laws/Memory.lean ====
section
/-! SUPPORT. The laws of system memory: read after write, what a write and an obscuring leave alone, and that both keep
the canonical form. -/

namespace Sys2Proof.Machine

/-! ### Cells -/

/-- Every listed address is above `a`. -/
def Above (a : Nat) (l : List Host.Cell) : Prop := ∀ c ∈ l, a < c.1

/-- The canonical form of the cells alone. -/
def CellsRise (l : List Host.Cell) : Prop := l.Pairwise fun c d => c.1 < d.1

theorem cellAt_of_above {a : Nat} : ∀ {l : List Host.Cell}, Above a l → cellAt l a = Config.unlistedByte
  | [], _ => rfl
  | (k, v) :: rest, h => by
    have hk : a < k := h (k, v) (by simp)
    have hr : Above a rest := fun c hc => h c (by simp [hc])
    simp [cellAt, Nat.ne_of_gt hk, cellAt_of_above hr]

theorem cellAt_consCell_other {a b : Nat} (h : b ≠ a) (v : Byte) (l : List Host.Cell) :
    cellAt (consCell a v l) b = cellAt l b := by
  unfold consCell
  split
  · rfl
  · simp [cellAt, Ne.symm h]

theorem cellAt_consCell_same {a : Nat} (v : Byte) {l : List Host.Cell} (h : Above a l) :
    cellAt (consCell a v l) a = v := by
  unfold consCell
  split
  · rename_i hv; rw [cellAt_of_above h, hv]
  · simp [cellAt]

theorem cellAt_setCell_other {a b : Nat} (h : b ≠ a) (v : Byte) :
    ∀ l : List Host.Cell, cellAt (setCell l a v) b = cellAt l b
  | [] => by simp [setCell, cellAt_consCell_other h]
  | (k, x) :: rest => by
    unfold setCell
    split
    · rw [cellAt_consCell_other h]
    · split
      · rename_i hk
        rw [cellAt_consCell_other h]
        simp [cellAt, ← hk, Ne.symm h]
      · simp [cellAt, cellAt_setCell_other h v rest]

theorem cellAt_setCell_same {a : Nat} (v : Byte) :
    ∀ {l : List Host.Cell}, CellsRise l → cellAt (setCell l a v) a = v
  | [], _ => cellAt_consCell_same v (by simp [Above])
  | (k, x) :: rest, h => by
    have hr : Above k rest := fun c hc => (List.pairwise_cons.1 h).1 c hc
    unfold setCell
    split
    · rename_i hk
      refine cellAt_consCell_same v fun c hc => ?_
      rcases List.mem_cons.1 hc with rfl | hc
      · exact hk
      · exact Nat.lt_trans hk (hr c hc)
    · split
      · rename_i hk; exact cellAt_consCell_same v (hk ▸ hr)
      · rename_i h1 h2
        simp [cellAt, Ne.symm h2, cellAt_setCell_same v (List.pairwise_cons.1 h).2]

theorem mem_consCell {a : Nat} {v : Byte} {l : List Host.Cell} {c : Host.Cell} (h : c ∈ consCell a v l) :
    (c = (a, v) ∧ v ≠ Config.unlistedByte) ∨ c ∈ l := by
  unfold consCell at h
  split at h
  · exact .inr h
  · rename_i hv
    rcases List.mem_cons.1 h with rfl | h
    · exact .inl ⟨rfl, hv⟩
    · exact .inr h

/-- A cell after a set is the new one, or an old one of another address. -/
theorem mem_setCell {a : Nat} {v : Byte} {c : Host.Cell} :
    ∀ {l : List Host.Cell}, CellsRise l → c ∈ setCell l a v →
      (c = (a, v) ∧ v ≠ Config.unlistedByte) ∨ (c ∈ l ∧ c.1 ≠ a)
  | [], _, h => by
    rcases mem_consCell h with h | h
    · exact .inl h
    · cases h
  | (k, x) :: rest, hw, h => by
    have hr := (List.pairwise_cons.1 hw).1
    unfold setCell at h
    split at h
    · rename_i hk
      rcases mem_consCell h with h | h
      · exact .inl h
      · refine .inr ⟨h, ?_⟩
        rcases List.mem_cons.1 h with rfl | h
        · exact Nat.ne_of_gt hk
        · exact Nat.ne_of_gt (Nat.lt_trans hk (hr c h))
    · split at h
      · rename_i hk
        rcases mem_consCell h with h | h
        · exact .inl h
        · exact .inr ⟨List.mem_cons_of_mem _ h, Nat.ne_of_gt (hk ▸ hr c h)⟩
      · rename_i h1 h2
        rcases List.mem_cons.1 h with rfl | h
        · exact .inr ⟨by simp, Ne.symm h2⟩
        · rcases mem_setCell (List.pairwise_cons.1 hw).2 h with h | ⟨h, hn⟩
          · exact .inl h
          · exact .inr ⟨List.mem_cons_of_mem _ h, hn⟩

theorem consCell_rise {a : Nat} (v : Byte) {l : List Host.Cell} (hl : CellsRise l) (h : Above a l) :
    CellsRise (consCell a v l) := by
  unfold consCell
  split
  · exact hl
  · exact List.pairwise_cons.2 ⟨fun c hc => h c hc, hl⟩

theorem setCell_rise {a : Nat} (v : Byte) : ∀ {l : List Host.Cell}, CellsRise l → CellsRise (setCell l a v)
  | [], _ => consCell_rise v List.Pairwise.nil (by simp [Above])
  | (k, x) :: rest, h => by
    have hr := (List.pairwise_cons.1 h).1
    have ht := (List.pairwise_cons.1 h).2
    unfold setCell
    split
    · rename_i hk
      refine consCell_rise v h fun c hc => ?_
      rcases List.mem_cons.1 hc with rfl | hc
      · exact hk
      · exact Nat.lt_trans hk (hr c hc)
    · split
      · rename_i hk; exact consCell_rise v ht fun c hc => hk ▸ hr c hc
      · rename_i h1 h2
        refine List.pairwise_cons.2 ⟨fun c hc => ?_, setCell_rise v ht⟩
        rcases mem_setCell ht hc with ⟨rfl, _⟩ | ⟨hc, _⟩
        · simp only; omega
        · exact hr c hc

/-! ### Unspecified ranges -/

/-- The number of the draw an address's free value comes from, if it is unspecified. -/
def drawAt (l : List Unspec) (a : Nat) : Option Nat := (l.find? fun u => u.covers a).map Unspec.draw

@[simp] theorem drawAt_nil (a : Nat) : drawAt [] a = none := rfl

theorem drawAt_cons (u : Unspec) (l : List Unspec) (a : Nat) :
    drawAt (u :: l) a = if u.covers a then some u.draw else drawAt l a := by
  unfold drawAt
  rw [List.find?_cons]
  cases u.covers a <;> simp

theorem drawAt_append (l₁ l₂ : List Unspec) (a : Nat) : drawAt (l₁ ++ l₂) a = (drawAt l₁ a).or (drawAt l₂ a) := by
  induction l₁ with
  | nil => simp
  | cons u l ih => rw [List.cons_append, drawAt_cons, drawAt_cons, ih]; split <;> simp

theorem Memory.read_eq (m : Memory) (a : Nat) :
    m.read a = match drawAt m.unspec a with
      | some d => Config.freeByte d a
      | none => cellAt m.cells a := by
  unfold Memory.read drawAt
  cases m.unspec.find? fun u => u.covers a <;> rfl

theorem Unspec.covers_iff (u : Unspec) (a : Nat) : u.covers a = true ↔ u.lo ≤ a ∧ a < u.hi := by
  simp [Unspec.covers]

theorem Unspec.mem_cut {lo hi : Nat} {u p : Unspec} :
    p ∈ u.cut lo hi ↔
      (p = ⟨u.lo, min u.hi lo, u.draw⟩ ∨ p = ⟨max u.lo hi, u.hi, u.draw⟩) ∧ p.lo < p.hi := by
  simp [Unspec.cut]

/-- Outside the cut, the pieces say what the range said. -/
theorem drawAt_cut_outside {lo hi a : Nat} (h : a < lo ∨ hi ≤ a) (u : Unspec) :
    drawAt (u.cut lo hi) a = if u.covers a then some u.draw else none := by
  unfold Unspec.cut
  simp only [List.filter_cons, List.filter_nil]
  split <;> split <;>
    simp only [drawAt_cons, drawAt_nil, Unspec.covers_iff, decide_eq_true_eq] at * <;>
    split <;> (try split) <;> (try split) <;> first | rfl | (exfalso; omega)

/-- Inside the cut, no piece is left. -/
theorem not_covers_of_mem_cut {lo hi a : Nat} (h1 : lo ≤ a) (h2 : a < hi) {u p : Unspec} (hp : p ∈ u.cut lo hi) :
    p.covers a = false := by
  rw [Bool.eq_false_iff]
  intro hc
  rw [Unspec.covers_iff] at hc
  rcases Unspec.mem_cut.1 hp with ⟨rfl | rfl, _⟩ <;> simp only at hc <;> omega

theorem drawAt_flatMap_cut_outside {lo hi a : Nat} (h : a < lo ∨ hi ≤ a) :
    ∀ l : List Unspec, drawAt (l.flatMap (Unspec.cut lo hi)) a = drawAt l a
  | [] => rfl
  | u :: l => by
    rw [List.flatMap_cons, drawAt_append, drawAt_cut_outside h, drawAt_flatMap_cut_outside h l, drawAt_cons]
    split <;> simp

theorem drawAt_eq_none {l : List Unspec} {a : Nat} (h : ∀ u ∈ l, u.covers a = false) : drawAt l a = none := by
  induction l with
  | nil => rfl
  | cons u l ih => rw [drawAt_cons, h u (by simp), ih fun x hx => h x (by simp [hx])]; rfl

theorem drawAt_flatMap_cut_inside {lo hi a : Nat} (h1 : lo ≤ a) (h2 : a < hi) (l : List Unspec) :
    drawAt (l.flatMap (Unspec.cut lo hi)) a = none := by
  refine drawAt_eq_none fun p hp => ?_
  obtain ⟨u, _, hu⟩ := List.mem_flatMap.1 hp
  exact not_covers_of_mem_cut h1 h2 hu

theorem mem_insertUnspec {u x : Unspec} : ∀ {l : List Unspec}, x ∈ insertUnspec u l ↔ x = u ∨ x ∈ l
  | [] => by simp [insertUnspec]
  | y :: l => by
    unfold insertUnspec
    split
    · simp
    · simp only [List.mem_cons, mem_insertUnspec (l := l)]; tauto

theorem drawAt_insert_outside {u : Unspec} {a : Nat} (h : u.covers a = false) :
    ∀ l : List Unspec, drawAt (insertUnspec u l) a = drawAt l a
  | [] => by simp [insertUnspec, drawAt_cons, h]
  | y :: l => by
    unfold insertUnspec
    split
    · rw [drawAt_cons, h]; rfl
    · rw [drawAt_cons, drawAt_cons, drawAt_insert_outside h l]

theorem drawAt_insert_inside {u : Unspec} {a : Nat} (h : u.covers a = true) :
    ∀ {l : List Unspec}, (∀ x ∈ l, x.covers a = false) → drawAt (insertUnspec u l) a = some u.draw
  | [], _ => by simp [insertUnspec, drawAt_cons, h]
  | y :: l, hl => by
    unfold insertUnspec
    split
    · rw [drawAt_cons, h]; rfl
    · rw [drawAt_cons, hl y (by simp), drawAt_insert_inside h fun x hx => hl x (by simp [hx])]; rfl

/-- The order and separation of unspecified ranges. -/
def RangesRise (l : List Unspec) : Prop := l.Pairwise fun u v => u.hi ≤ v.lo

theorem flatMap_cut_rise {lo hi : Nat} (hle : lo ≤ hi) {l : List Unspec} (hl : RangesRise l) :
    RangesRise (l.flatMap (Unspec.cut lo hi)) := by
  refine List.pairwise_flatMap.2 ⟨fun u _ => ?_, hl.imp fun {u v} huv p hp q hq => ?_⟩
  · refine List.Pairwise.filter _ ?_
    simp only [List.pairwise_cons, List.mem_cons, List.not_mem_nil, or_false, forall_eq, List.Pairwise.nil, and_true,
      IsEmpty.forall_iff, implies_true]
    omega
  · rcases Unspec.mem_cut.1 hp with ⟨rfl | rfl, hp⟩ <;> rcases Unspec.mem_cut.1 hq with ⟨rfl | rfl, hq⟩ <;>
      simp only at hp hq ⊢ <;> omega

theorem insertUnspec_rise {u : Unspec} (hu : u.lo < u.hi) :
    ∀ {l : List Unspec}, RangesRise l → (∀ x ∈ l, x.lo < x.hi ∧ (x.hi ≤ u.lo ∨ u.hi ≤ x.lo)) →
      RangesRise (insertUnspec u l)
  | [], _, _ => List.pairwise_singleton _ _
  | y :: l, hl, h => by
    have hy := h y (by simp)
    have ht := List.pairwise_cons.1 hl
    unfold insertUnspec
    split
    · refine List.pairwise_cons.2 ⟨fun x hx => ?_, hl⟩
      rcases List.mem_cons.1 hx with rfl | hx
      · omega
      · have h1 := ht.1 x hx
        have h2 := h x (by simp [hx])
        omega
    · refine List.pairwise_cons.2 ⟨fun x hx => ?_, insertUnspec_rise hu ht.2 fun x hx => h x (by simp [hx])⟩
      rcases mem_insertUnspec.1 hx with rfl | hx
      · omega
      · exact ht.1 x hx

/-! ### Memory -/

/-- Read after write, the same address (R66: reads return the last value written). -/
theorem Memory.read_write_same {m : Memory} (h : m.wf) (a : Nat) (v : Byte) : (m.write a v).read a = v := by
  rw [Memory.read_eq]
  have hd : drawAt (m.write a v).unspec a = none := drawAt_flatMap_cut_inside (Nat.le_refl a) (Nat.lt_succ_self a) _
  rw [hd]
  exact cellAt_setCell_same v h.1

/-- A write leaves every other address alone. -/
theorem Memory.read_write_other (m : Memory) {a b : Nat} (h : b ≠ a) (v : Byte) : (m.write a v).read b = m.read b := by
  rw [Memory.read_eq, Memory.read_eq]
  have hd : drawAt (m.write a v).unspec b = drawAt m.unspec b := drawAt_flatMap_cut_outside (by omega) _
  have hc : cellAt (m.write a v).cells b = cellAt m.cells b := cellAt_setCell_other h v _
  rw [hd, hc]

/-- A write to system memory keeps the canonical form. -/
theorem Memory.wf_write {m : Memory} (h : m.wf) {a : Nat} (ha : a < Config.addressEnd) (v : Byte) :
    (m.write a v).wf := by
  obtain ⟨hc, hm, hr, hn⟩ := h
  refine ⟨setCell_rise v hc, fun c hcm => ?_, flatMap_cut_rise (by omega) hr, fun p hp => ?_⟩
  · rcases mem_setCell hc hcm with ⟨rfl, hv⟩ | ⟨hcl, hne⟩
    · refine ⟨ha, hv, fun p hp => ?_⟩
      obtain ⟨u, _, hu⟩ := List.mem_flatMap.1 hp
      exact not_covers_of_mem_cut (Nat.le_refl a) (Nat.lt_succ_self a) hu
    · obtain ⟨h1, h2, h3⟩ := hm c hcl
      refine ⟨h1, h2, fun p hp => ?_⟩
      obtain ⟨u, hul, hu⟩ := List.mem_flatMap.1 hp
      have hcu := h3 u hul
      rw [Bool.eq_false_iff] at hcu ⊢
      intro hpc
      rw [Unspec.covers_iff] at hpc
      refine hcu ((Unspec.covers_iff _ _).2 ?_)
      rcases Unspec.mem_cut.1 hu with ⟨rfl | rfl, _⟩ <;> simp only at hpc <;> omega
  · obtain ⟨u, hul, hu⟩ := List.mem_flatMap.1 hp
    have := hn u hul
    rcases Unspec.mem_cut.1 hu with ⟨rfl | rfl, hlt⟩ <;> simp only at hlt ⊢ <;> omega

theorem cellAt_filter {f : Host.Cell → Bool} {a : Nat} (h : ∀ c : Host.Cell, c.1 = a → f c = true) :
    ∀ l : List Host.Cell, cellAt (l.filter f) a = cellAt l a
  | [] => rfl
  | (k, v) :: l => by
    rw [List.filter_cons]
    split
    · simp [cellAt, cellAt_filter h l]
    · rename_i hf
      have hk : k ≠ a := fun hk => hf (h (k, v) hk)
      simp [cellAt, hk, cellAt_filter h l]

/-- Obscuring a range leaves every address outside it alone. -/
theorem Memory.read_obscure_outside (m : Memory) {lo hi a : Nat} (h : a < lo ∨ hi ≤ a) (d : Nat) :
    (m.obscure lo hi d).read a = m.read a := by
  unfold Memory.obscure
  simp only
  split
  · have ha : a < lo ∨ min hi Config.addressEnd ≤ a := by omega
    rw [Memory.read_eq, Memory.read_eq]
    simp only
    rw [drawAt_insert_outside (by rw [Bool.eq_false_iff]; intro hc; rw [Unspec.covers_iff] at hc; simp only at hc; omega),
      drawAt_flatMap_cut_outside ha, cellAt_filter]
    intro c hc
    simp only [Bool.or_eq_true, decide_eq_true_eq]
    omega
  · rfl

/-- Every byte of an obscured range of system memory reads as the free value of the draw. -/
theorem Memory.read_obscure_inside (m : Memory) {lo hi a : Nat} (h1 : lo ≤ a) (h2 : a < hi) (h3 : a < Config.addressEnd)
    (d : Nat) : (m.obscure lo hi d).read a = Config.freeByte d a := by
  unfold Memory.obscure
  have hlt : lo < min hi Config.addressEnd := by omega
  simp only [hlt, if_true]
  rw [Memory.read_eq]
  simp only
  rw [drawAt_insert_inside]
  · rw [Unspec.covers_iff]; simp only; omega
  · intro p hp
    obtain ⟨u, _, hu⟩ := List.mem_flatMap.1 hp
    exact not_covers_of_mem_cut h1 (by omega) hu

/-- Obscuring keeps the canonical form. -/
theorem Memory.wf_obscure {m : Memory} (h : m.wf) (lo hi d : Nat) : (m.obscure lo hi d).wf := by
  unfold Memory.obscure
  simp only
  split
  · rename_i hlt
    obtain ⟨hc, hm, hr, hn⟩ := h
    have hcut : ∀ p ∈ m.unspec.flatMap (Unspec.cut lo (min hi Config.addressEnd)),
        p.lo < p.hi ∧ p.hi ≤ Config.addressEnd ∧ (p.hi ≤ lo ∨ min hi Config.addressEnd ≤ p.lo) := by
      intro p hp
      obtain ⟨u, hul, hu⟩ := List.mem_flatMap.1 hp
      have := hn u hul
      rcases Unspec.mem_cut.1 hu with ⟨rfl | rfl, hl⟩ <;> simp only at hl ⊢ <;> omega
    refine ⟨List.Pairwise.filter _ hc, fun c hcm => ?_, ?_, fun p hp => ?_⟩
    · obtain ⟨hcl, hf⟩ := List.mem_filter.1 hcm
      simp only [Bool.or_eq_true, decide_eq_true_eq] at hf
      obtain ⟨h1, h2, h3⟩ := hm c hcl
      refine ⟨h1, h2, fun p hp => ?_⟩
      rw [Bool.eq_false_iff]
      intro hpc
      rw [Unspec.covers_iff] at hpc
      rcases mem_insertUnspec.1 hp with rfl | hp
      · simp only at hpc; omega
      · obtain ⟨u, hul, hu⟩ := List.mem_flatMap.1 hp
        have hcu := h3 u hul
        rw [Bool.eq_false_iff] at hcu
        refine hcu ((Unspec.covers_iff _ _).2 ?_)
        rcases Unspec.mem_cut.1 hu with ⟨rfl | rfl, _⟩ <;> simp only at hpc <;> omega
    · exact insertUnspec_rise hlt (flatMap_cut_rise (Nat.le_of_lt hlt) hr) fun p hp => ⟨(hcut p hp).1, (hcut p hp).2.2⟩
    · rcases mem_insertUnspec.1 hp with rfl | hp
      · exact ⟨hlt, by simp only; omega⟩
      · exact ⟨(hcut p hp).1, (hcut p hp).2.1⟩
  · exact h

theorem Memory.wf_empty : Memory.empty.wf := by decide

/-! ### Runs of bytes -/

@[simp] theorem Memory.writeBytes_nil (m : Memory) (a : Nat) : m.writeBytes a [] = m := rfl

theorem Memory.writeBytes_cons (m : Memory) (a : Nat) (b : Byte) (bs : List Byte) :
    m.writeBytes a (b :: bs) = (m.write a b).writeBytes (a + 1) bs := rfl

theorem Memory.writeBytes_append (m : Memory) (a : Nat) (xs ys : List Byte) :
    m.writeBytes a (xs ++ ys) = (m.writeBytes a xs).writeBytes (a + xs.length) ys := by
  induction xs generalizing m a with
  | nil => simp
  | cons x xs ih =>
    simp only [List.cons_append, Memory.writeBytes_cons, ih, List.length_cons]
    congr 1; omega

/-- Bytes written leave every address outside them alone. -/
theorem Memory.read_writeBytes_outside (m : Memory) {a b : Nat} (bs : List Byte) (h : b < a ∨ a + bs.length ≤ b) :
    (m.writeBytes a bs).read b = m.read b := by
  induction bs generalizing m a with
  | nil => rfl
  | cons x bs ih =>
    simp only [List.length_cons] at h
    rw [Memory.writeBytes_cons, ih _ (by omega), Memory.read_write_other _ (by omega)]

/-- Bytes written to system memory keep the canonical form. -/
theorem Memory.wf_writeBytes {m : Memory} (hm : m.wf) {a : Nat} (bs : List Byte)
    (h : a + bs.length ≤ Config.addressEnd) : (m.writeBytes a bs).wf := by
  induction bs generalizing m a with
  | nil => exact hm
  | cons x bs ih =>
    simp only [List.length_cons] at h
    exact ih (Memory.wf_write hm (by omega) x) (by omega)

/-- Bytes written read back. -/
theorem Memory.readBytes_writeBytes {m : Memory} (hm : m.wf) {a : Nat} (bs : List Byte)
    (h : a + bs.length ≤ Config.addressEnd) : (m.writeBytes a bs).readBytes a bs.length = bs := by
  induction bs generalizing m a with
  | nil => rfl
  | cons x bs ih =>
    simp only [List.length_cons] at h ⊢
    rw [Memory.writeBytes_cons]
    unfold Memory.readBytes
    rw [Memory.read_writeBytes_outside _ _ (by omega), Memory.read_write_same hm,
      ih (Memory.wf_write hm (by omega) x) (by omega)]

@[simp] theorem Memory.readBytes_length (m : Memory) (a n : Nat) : (m.readBytes a n).length = n := by
  induction n generalizing a with
  | zero => rfl
  | succ n ih => simp [Memory.readBytes, ih]

/-- Reading bytes depends on those bytes alone. -/
theorem Memory.readBytes_congr {m m' : Memory} {a n : Nat} (h : ∀ k, a ≤ k → k < a + n → m.read k = m'.read k) :
    m.readBytes a n = m'.readBytes a n := by
  induction n generalizing a with
  | zero => rfl
  | succ n ih =>
    unfold Memory.readBytes
    rw [h a (by omega) (by omega), ih fun k h1 h2 => h k (by omega) (by omega)]

theorem Memory.readBytes_append (m : Memory) (a n k : Nat) :
    m.readBytes a (n + k) = m.readBytes a n ++ m.readBytes (a + n) k := by
  induction n generalizing a with
  | zero => simp [Memory.readBytes]
  | succ n ih =>
    rw [Nat.succ_add]
    simp only [Memory.readBytes, List.cons_append, ih]
    rw [show a + 1 + n = a + (n + 1) by omega]

end Sys2Proof.Machine
end

