-- ==== Sys2Proof/Laws/State.lean ====
section
/-! SUPPORT. What each named update of State leaves in each field, so that no later proof unfolds an update. -/

namespace Sys2Proof.Machine

/-! `setFlags` -/

section
variable (s : State) (c : Ctrl) (st : Status)

@[simp] theorem State.setFlags_ctrl : (s.setFlags c st).ctrl = c := rfl
@[simp] theorem State.setFlags_status : (s.setFlags c st).status = st := rfl
@[simp] theorem State.setFlags_errcode : (s.setFlags c st).errcode = s.errcode := rfl
@[simp] theorem State.setFlags_imgWidth : (s.setFlags c st).imgWidth = s.imgWidth := rfl
@[simp] theorem State.setFlags_imgHeight : (s.setFlags c st).imgHeight = s.imgHeight := rfl
@[simp] theorem State.setFlags_imgFormat : (s.setFlags c st).imgFormat = s.imgFormat := rfl
@[simp] theorem State.setFlags_srcBase : (s.setFlags c st).srcBase = s.srcBase := rfl
@[simp] theorem State.setFlags_srcLen : (s.setFlags c st).srcLen = s.srcLen := rfl
@[simp] theorem State.setFlags_dstBase : (s.setFlags c st).dstBase = s.dstBase := rfl
@[simp] theorem State.setFlags_dstCap : (s.setFlags c st).dstCap = s.dstCap := rfl
@[simp] theorem State.setFlags_outLen : (s.setFlags c st).outLen = s.outLen := rfl
@[simp] theorem State.setFlags_irq : (s.setFlags c st).irq = irqLevel c st := rfl
@[simp] theorem State.setFlags_prev : (s.setFlags c st).prev = s.prev := rfl
@[simp] theorem State.setFlags_cache : (s.setFlags c st).cache = s.cache := rfl
@[simp] theorem State.setFlags_lw : (s.setFlags c st).lw = s.lw := rfl
@[simp] theorem State.setFlags_lh : (s.setFlags c st).lh = s.lh := rfl
@[simp] theorem State.setFlags_lc : (s.setFlags c st).lc = s.lc := rfl
@[simp] theorem State.setFlags_lcs : (s.setFlags c st).lcs = s.lcs := rfl
@[simp] theorem State.setFlags_pix : (s.setFlags c st).pix = s.pix := rfl
@[simp] theorem State.setFlags_rp : (s.setFlags c st).rp = s.rp := rfl
@[simp] theorem State.setFlags_wp : (s.setFlags c st).wp = s.wp := rfl
@[simp] theorem State.setFlags_phase : (s.setFlags c st).phase = s.phase := rfl
@[simp] theorem State.setFlags_op : (s.setFlags c st).op = s.op := rfl
@[simp] theorem State.setFlags_mem : (s.setFlags c st).mem = s.mem := rfl
@[simp] theorem State.setFlags_platform : (s.setFlags c st).platform = s.platform := rfl
@[simp] theorem State.setFlags_host : (s.setFlags c st).host = s.host := rfl
@[simp] theorem State.setFlags_rdata : (s.setFlags c st).rdata = s.rdata := rfl
@[simp] theorem State.setFlags_draws : (s.setFlags c st).draws = s.draws := rfl

end

/-! `loseDestination` -/

section
variable (s : State) 

@[simp] theorem State.loseDestination_ctrl : (s.loseDestination).ctrl = s.ctrl := by unfold State.loseDestination; split <;> rfl
@[simp] theorem State.loseDestination_status : (s.loseDestination).status = s.status := by unfold State.loseDestination; split <;> rfl
@[simp] theorem State.loseDestination_errcode : (s.loseDestination).errcode = s.errcode := by unfold State.loseDestination; split <;> rfl
@[simp] theorem State.loseDestination_imgWidth : (s.loseDestination).imgWidth = s.imgWidth := by unfold State.loseDestination; split <;> rfl
@[simp] theorem State.loseDestination_imgHeight : (s.loseDestination).imgHeight = s.imgHeight := by unfold State.loseDestination; split <;> rfl
@[simp] theorem State.loseDestination_imgFormat : (s.loseDestination).imgFormat = s.imgFormat := by unfold State.loseDestination; split <;> rfl
@[simp] theorem State.loseDestination_srcBase : (s.loseDestination).srcBase = s.srcBase := by unfold State.loseDestination; split <;> rfl
@[simp] theorem State.loseDestination_srcLen : (s.loseDestination).srcLen = s.srcLen := by unfold State.loseDestination; split <;> rfl
@[simp] theorem State.loseDestination_dstBase : (s.loseDestination).dstBase = s.dstBase := by unfold State.loseDestination; split <;> rfl
@[simp] theorem State.loseDestination_dstCap : (s.loseDestination).dstCap = s.dstCap := by unfold State.loseDestination; split <;> rfl
@[simp] theorem State.loseDestination_outLen : (s.loseDestination).outLen = s.outLen := by unfold State.loseDestination; split <;> rfl
@[simp] theorem State.loseDestination_irq : (s.loseDestination).irq = s.irq := by unfold State.loseDestination; split <;> rfl
@[simp] theorem State.loseDestination_prev : (s.loseDestination).prev = s.prev := by unfold State.loseDestination; split <;> rfl
@[simp] theorem State.loseDestination_cache : (s.loseDestination).cache = s.cache := by unfold State.loseDestination; split <;> rfl
@[simp] theorem State.loseDestination_lw : (s.loseDestination).lw = s.lw := by unfold State.loseDestination; split <;> rfl
@[simp] theorem State.loseDestination_lh : (s.loseDestination).lh = s.lh := by unfold State.loseDestination; split <;> rfl
@[simp] theorem State.loseDestination_lc : (s.loseDestination).lc = s.lc := by unfold State.loseDestination; split <;> rfl
@[simp] theorem State.loseDestination_lcs : (s.loseDestination).lcs = s.lcs := by unfold State.loseDestination; split <;> rfl
@[simp] theorem State.loseDestination_pix : (s.loseDestination).pix = s.pix := by unfold State.loseDestination; split <;> rfl
@[simp] theorem State.loseDestination_rp : (s.loseDestination).rp = s.rp := by unfold State.loseDestination; split <;> rfl
@[simp] theorem State.loseDestination_wp : (s.loseDestination).wp = s.wp := by unfold State.loseDestination; split <;> rfl
@[simp] theorem State.loseDestination_phase : (s.loseDestination).phase = s.phase := by unfold State.loseDestination; split <;> rfl
@[simp] theorem State.loseDestination_op : (s.loseDestination).op = s.op := by unfold State.loseDestination; split <;> rfl
@[simp] theorem State.loseDestination_platform : (s.loseDestination).platform = s.platform := by unfold State.loseDestination; split <;> rfl
@[simp] theorem State.loseDestination_host : (s.loseDestination).host = s.host := by unfold State.loseDestination; split <;> rfl
@[simp] theorem State.loseDestination_rdata : (s.loseDestination).rdata = s.rdata := by unfold State.loseDestination; split <;> rfl

end

/-! `raise` -/

section
variable (s : State) (c : ErrCode)

@[simp] theorem State.raise_ctrl : (s.raise c).ctrl = s.ctrl := by simp [State.raise]
@[simp] theorem State.raise_status : (s.raise c).status = ⟨false, s.status.done, true⟩ := by simp [State.raise]
@[simp] theorem State.raise_errcode : (s.raise c).errcode = c.num := by simp [State.raise]
@[simp] theorem State.raise_imgWidth : (s.raise c).imgWidth = s.imgWidth := by simp [State.raise]
@[simp] theorem State.raise_imgHeight : (s.raise c).imgHeight = s.imgHeight := by simp [State.raise]
@[simp] theorem State.raise_imgFormat : (s.raise c).imgFormat = s.imgFormat := by simp [State.raise]
@[simp] theorem State.raise_srcBase : (s.raise c).srcBase = s.srcBase := by simp [State.raise]
@[simp] theorem State.raise_srcLen : (s.raise c).srcLen = s.srcLen := by simp [State.raise]
@[simp] theorem State.raise_dstBase : (s.raise c).dstBase = s.dstBase := by simp [State.raise]
@[simp] theorem State.raise_dstCap : (s.raise c).dstCap = s.dstCap := by simp [State.raise]
@[simp] theorem State.raise_outLen : (s.raise c).outLen = s.outLen := by simp [State.raise]
@[simp] theorem State.raise_irq : (s.raise c).irq = irqLevel s.ctrl ⟨false, s.status.done, true⟩ := by simp [State.raise]
@[simp] theorem State.raise_prev : (s.raise c).prev = s.prev := by simp [State.raise]
@[simp] theorem State.raise_cache : (s.raise c).cache = s.cache := by simp [State.raise]
@[simp] theorem State.raise_lw : (s.raise c).lw = s.lw := by simp [State.raise]
@[simp] theorem State.raise_lh : (s.raise c).lh = s.lh := by simp [State.raise]
@[simp] theorem State.raise_lc : (s.raise c).lc = s.lc := by simp [State.raise]
@[simp] theorem State.raise_lcs : (s.raise c).lcs = s.lcs := by simp [State.raise]
@[simp] theorem State.raise_pix : (s.raise c).pix = s.pix := by simp [State.raise]
@[simp] theorem State.raise_rp : (s.raise c).rp = s.rp := by simp [State.raise]
@[simp] theorem State.raise_wp : (s.raise c).wp = s.wp := by simp [State.raise]
@[simp] theorem State.raise_phase : (s.raise c).phase = .idle := by simp [State.raise]
@[simp] theorem State.raise_op : (s.raise c).op = s.op := by simp [State.raise]
@[simp] theorem State.raise_mem : (s.raise c).mem = s.loseDestination.mem := by simp [State.raise]
@[simp] theorem State.raise_platform : (s.raise c).platform = s.platform := by simp [State.raise]
@[simp] theorem State.raise_host : (s.raise c).host = s.host := by simp [State.raise]
@[simp] theorem State.raise_rdata : (s.raise c).rdata = s.rdata := by simp [State.raise]
@[simp] theorem State.raise_draws : (s.raise c).draws = s.loseDestination.draws := by simp [State.raise]

end

/-! `complete` -/

section
variable (s : State) 

@[simp] theorem State.complete_ctrl : (s.complete).ctrl = s.ctrl := rfl
@[simp] theorem State.complete_status : (s.complete).status = ⟨false, true, s.status.err⟩ := rfl
@[simp] theorem State.complete_errcode : (s.complete).errcode = s.errcode := rfl
@[simp] theorem State.complete_imgWidth : (s.complete).imgWidth = s.imgWidth := rfl
@[simp] theorem State.complete_imgHeight : (s.complete).imgHeight = s.imgHeight := rfl
@[simp] theorem State.complete_imgFormat : (s.complete).imgFormat = s.imgFormat := rfl
@[simp] theorem State.complete_srcBase : (s.complete).srcBase = s.srcBase := rfl
@[simp] theorem State.complete_srcLen : (s.complete).srcLen = s.srcLen := rfl
@[simp] theorem State.complete_dstBase : (s.complete).dstBase = s.dstBase := rfl
@[simp] theorem State.complete_dstCap : (s.complete).dstCap = s.dstCap := rfl
@[simp] theorem State.complete_outLen : (s.complete).outLen = s.outLen := rfl
@[simp] theorem State.complete_irq : (s.complete).irq = irqLevel s.ctrl ⟨false, true, s.status.err⟩ := rfl
@[simp] theorem State.complete_prev : (s.complete).prev = s.prev := rfl
@[simp] theorem State.complete_cache : (s.complete).cache = s.cache := rfl
@[simp] theorem State.complete_lw : (s.complete).lw = s.lw := rfl
@[simp] theorem State.complete_lh : (s.complete).lh = s.lh := rfl
@[simp] theorem State.complete_lc : (s.complete).lc = s.lc := rfl
@[simp] theorem State.complete_lcs : (s.complete).lcs = s.lcs := rfl
@[simp] theorem State.complete_pix : (s.complete).pix = s.pix := rfl
@[simp] theorem State.complete_rp : (s.complete).rp = s.rp := rfl
@[simp] theorem State.complete_wp : (s.complete).wp = s.wp := rfl
@[simp] theorem State.complete_phase : (s.complete).phase = .idle := rfl
@[simp] theorem State.complete_op : (s.complete).op = s.op := rfl
@[simp] theorem State.complete_mem : (s.complete).mem = s.mem := rfl
@[simp] theorem State.complete_platform : (s.complete).platform = s.platform := rfl
@[simp] theorem State.complete_host : (s.complete).host = s.host := rfl
@[simp] theorem State.complete_rdata : (s.complete).rdata = s.rdata := rfl
@[simp] theorem State.complete_draws : (s.complete).draws = s.draws := rfl

end

/-! `coded` -/

section
variable (s : State) (p : Pixel) (n : Nat)

@[simp] theorem State.coded_ctrl : (s.coded p n).ctrl = s.ctrl := rfl
@[simp] theorem State.coded_status : (s.coded p n).status = s.status := rfl
@[simp] theorem State.coded_errcode : (s.coded p n).errcode = s.errcode := rfl
@[simp] theorem State.coded_imgWidth : (s.coded p n).imgWidth = s.imgWidth := rfl
@[simp] theorem State.coded_imgHeight : (s.coded p n).imgHeight = s.imgHeight := rfl
@[simp] theorem State.coded_imgFormat : (s.coded p n).imgFormat = s.imgFormat := rfl
@[simp] theorem State.coded_srcBase : (s.coded p n).srcBase = s.srcBase := rfl
@[simp] theorem State.coded_srcLen : (s.coded p n).srcLen = s.srcLen := rfl
@[simp] theorem State.coded_dstBase : (s.coded p n).dstBase = s.dstBase := rfl
@[simp] theorem State.coded_dstCap : (s.coded p n).dstCap = s.dstCap := rfl
@[simp] theorem State.coded_outLen : (s.coded p n).outLen = s.outLen := rfl
@[simp] theorem State.coded_irq : (s.coded p n).irq = s.irq := rfl
@[simp] theorem State.coded_prev : (s.coded p n).prev = p := rfl
@[simp] theorem State.coded_cache : (s.coded p n).cache = update s.lc s.cache p := rfl
@[simp] theorem State.coded_lw : (s.coded p n).lw = s.lw := rfl
@[simp] theorem State.coded_lh : (s.coded p n).lh = s.lh := rfl
@[simp] theorem State.coded_lc : (s.coded p n).lc = s.lc := rfl
@[simp] theorem State.coded_lcs : (s.coded p n).lcs = s.lcs := rfl
@[simp] theorem State.coded_pix : (s.coded p n).pix = s.pix + n := rfl
@[simp] theorem State.coded_rp : (s.coded p n).rp = s.rp := rfl
@[simp] theorem State.coded_wp : (s.coded p n).wp = s.wp := rfl
@[simp] theorem State.coded_phase : (s.coded p n).phase = s.phase := rfl
@[simp] theorem State.coded_op : (s.coded p n).op = s.op := rfl
@[simp] theorem State.coded_mem : (s.coded p n).mem = s.mem := rfl
@[simp] theorem State.coded_platform : (s.coded p n).platform = s.platform := rfl
@[simp] theorem State.coded_host : (s.coded p n).host = s.host := rfl
@[simp] theorem State.coded_rdata : (s.coded p n).rdata = s.rdata := rfl
@[simp] theorem State.coded_draws : (s.coded p n).draws = s.draws := rfl

end

/-! `beginEncode` -/

section
variable (s : State) 

@[simp] theorem State.beginEncode_ctrl : (s.beginEncode).ctrl = s.ctrl := rfl
@[simp] theorem State.beginEncode_status : (s.beginEncode).status = s.status := rfl
@[simp] theorem State.beginEncode_errcode : (s.beginEncode).errcode = s.errcode := rfl
@[simp] theorem State.beginEncode_imgWidth : (s.beginEncode).imgWidth = s.imgWidth := rfl
@[simp] theorem State.beginEncode_imgHeight : (s.beginEncode).imgHeight = s.imgHeight := rfl
@[simp] theorem State.beginEncode_imgFormat : (s.beginEncode).imgFormat = s.imgFormat := rfl
@[simp] theorem State.beginEncode_srcBase : (s.beginEncode).srcBase = s.srcBase := rfl
@[simp] theorem State.beginEncode_srcLen : (s.beginEncode).srcLen = s.srcLen := rfl
@[simp] theorem State.beginEncode_dstBase : (s.beginEncode).dstBase = s.dstBase := rfl
@[simp] theorem State.beginEncode_dstCap : (s.beginEncode).dstCap = s.dstCap := rfl
@[simp] theorem State.beginEncode_outLen : (s.beginEncode).outLen = s.outLen := rfl
@[simp] theorem State.beginEncode_irq : (s.beginEncode).irq = s.irq := rfl
@[simp] theorem State.beginEncode_prev : (s.beginEncode).prev = Pixel.seed := rfl
@[simp] theorem State.beginEncode_cache : (s.beginEncode).cache = Cache.fresh := rfl
@[simp] theorem State.beginEncode_lw : (s.beginEncode).lw = s.imgWidth := rfl
@[simp] theorem State.beginEncode_lh : (s.beginEncode).lh = s.imgHeight := rfl
@[simp] theorem State.beginEncode_lc : (s.beginEncode).lc = s.imgFormat.channels := rfl
@[simp] theorem State.beginEncode_lcs : (s.beginEncode).lcs = s.imgFormat.colorspace := rfl
@[simp] theorem State.beginEncode_pix : (s.beginEncode).pix = 0 := rfl
@[simp] theorem State.beginEncode_rp : (s.beginEncode).rp = s.rp := rfl
@[simp] theorem State.beginEncode_wp : (s.beginEncode).wp = 0 := rfl
@[simp] theorem State.beginEncode_phase : (s.beginEncode).phase = .header := rfl
@[simp] theorem State.beginEncode_op : (s.beginEncode).op = .enc := rfl
@[simp] theorem State.beginEncode_mem : (s.beginEncode).mem = s.mem := rfl
@[simp] theorem State.beginEncode_platform : (s.beginEncode).platform = s.platform := rfl
@[simp] theorem State.beginEncode_host : (s.beginEncode).host = s.host := rfl
@[simp] theorem State.beginEncode_rdata : (s.beginEncode).rdata = s.rdata := rfl
@[simp] theorem State.beginEncode_draws : (s.beginEncode).draws = s.draws := rfl

end

/-! `beginDecode` -/

section
variable (s : State) (w h : Word) (c cs : Byte)

@[simp] theorem State.beginDecode_ctrl : (s.beginDecode w h c cs).ctrl = s.ctrl := rfl
@[simp] theorem State.beginDecode_status : (s.beginDecode w h c cs).status = s.status := rfl
@[simp] theorem State.beginDecode_errcode : (s.beginDecode w h c cs).errcode = s.errcode := rfl
@[simp] theorem State.beginDecode_imgWidth : (s.beginDecode w h c cs).imgWidth = s.imgWidth := rfl
@[simp] theorem State.beginDecode_imgHeight : (s.beginDecode w h c cs).imgHeight = s.imgHeight := rfl
@[simp] theorem State.beginDecode_imgFormat : (s.beginDecode w h c cs).imgFormat = s.imgFormat := rfl
@[simp] theorem State.beginDecode_srcBase : (s.beginDecode w h c cs).srcBase = s.srcBase := rfl
@[simp] theorem State.beginDecode_srcLen : (s.beginDecode w h c cs).srcLen = s.srcLen := rfl
@[simp] theorem State.beginDecode_dstBase : (s.beginDecode w h c cs).dstBase = s.dstBase := rfl
@[simp] theorem State.beginDecode_dstCap : (s.beginDecode w h c cs).dstCap = s.dstCap := rfl
@[simp] theorem State.beginDecode_outLen : (s.beginDecode w h c cs).outLen = s.outLen := rfl
@[simp] theorem State.beginDecode_irq : (s.beginDecode w h c cs).irq = s.irq := rfl
@[simp] theorem State.beginDecode_prev : (s.beginDecode w h c cs).prev = Pixel.seed := rfl
@[simp] theorem State.beginDecode_cache : (s.beginDecode w h c cs).cache = Cache.fresh := rfl
@[simp] theorem State.beginDecode_lw : (s.beginDecode w h c cs).lw = w := rfl
@[simp] theorem State.beginDecode_lh : (s.beginDecode w h c cs).lh = h := rfl
@[simp] theorem State.beginDecode_lc : (s.beginDecode w h c cs).lc = c := rfl
@[simp] theorem State.beginDecode_lcs : (s.beginDecode w h c cs).lcs = cs := rfl
@[simp] theorem State.beginDecode_pix : (s.beginDecode w h c cs).pix = 0 := rfl
@[simp] theorem State.beginDecode_rp : (s.beginDecode w h c cs).rp = Config.headerLen := rfl
@[simp] theorem State.beginDecode_wp : (s.beginDecode w h c cs).wp = s.wp := rfl
@[simp] theorem State.beginDecode_phase : (s.beginDecode w h c cs).phase = .body := rfl
@[simp] theorem State.beginDecode_op : (s.beginDecode w h c cs).op = s.op := rfl
@[simp] theorem State.beginDecode_mem : (s.beginDecode w h c cs).mem = s.mem := rfl
@[simp] theorem State.beginDecode_platform : (s.beginDecode w h c cs).platform = s.platform := rfl
@[simp] theorem State.beginDecode_host : (s.beginDecode w h c cs).host = s.host := rfl
@[simp] theorem State.beginDecode_rdata : (s.beginDecode w h c cs).rdata = s.rdata := rfl
@[simp] theorem State.beginDecode_draws : (s.beginDecode w h c cs).draws = s.draws := rfl

end

/-! `reportImage` -/

section
variable (s : State) 

@[simp] theorem State.reportImage_ctrl : (s.reportImage).ctrl = s.ctrl := rfl
@[simp] theorem State.reportImage_status : (s.reportImage).status = s.status := rfl
@[simp] theorem State.reportImage_errcode : (s.reportImage).errcode = s.errcode := rfl
@[simp] theorem State.reportImage_imgWidth : (s.reportImage).imgWidth = s.lw := rfl
@[simp] theorem State.reportImage_imgHeight : (s.reportImage).imgHeight = s.lh := rfl
@[simp] theorem State.reportImage_imgFormat : (s.reportImage).imgFormat = ⟨s.lc, s.lcs⟩ := rfl
@[simp] theorem State.reportImage_srcBase : (s.reportImage).srcBase = s.srcBase := rfl
@[simp] theorem State.reportImage_srcLen : (s.reportImage).srcLen = s.srcLen := rfl
@[simp] theorem State.reportImage_dstBase : (s.reportImage).dstBase = s.dstBase := rfl
@[simp] theorem State.reportImage_dstCap : (s.reportImage).dstCap = s.dstCap := rfl
@[simp] theorem State.reportImage_outLen : (s.reportImage).outLen = BitVec.ofNat 32 (s.npix * s.lc.toNat) := rfl
@[simp] theorem State.reportImage_irq : (s.reportImage).irq = s.irq := rfl
@[simp] theorem State.reportImage_prev : (s.reportImage).prev = s.prev := rfl
@[simp] theorem State.reportImage_cache : (s.reportImage).cache = s.cache := rfl
@[simp] theorem State.reportImage_lw : (s.reportImage).lw = s.lw := rfl
@[simp] theorem State.reportImage_lh : (s.reportImage).lh = s.lh := rfl
@[simp] theorem State.reportImage_lc : (s.reportImage).lc = s.lc := rfl
@[simp] theorem State.reportImage_lcs : (s.reportImage).lcs = s.lcs := rfl
@[simp] theorem State.reportImage_pix : (s.reportImage).pix = s.pix := rfl
@[simp] theorem State.reportImage_rp : (s.reportImage).rp = s.rp := rfl
@[simp] theorem State.reportImage_wp : (s.reportImage).wp = s.wp := rfl
@[simp] theorem State.reportImage_phase : (s.reportImage).phase = s.phase := rfl
@[simp] theorem State.reportImage_op : (s.reportImage).op = s.op := rfl
@[simp] theorem State.reportImage_mem : (s.reportImage).mem = s.mem := rfl
@[simp] theorem State.reportImage_platform : (s.reportImage).platform = s.platform := rfl
@[simp] theorem State.reportImage_host : (s.reportImage).host = s.host := rfl
@[simp] theorem State.reportImage_rdata : (s.reportImage).rdata = s.rdata := rfl
@[simp] theorem State.reportImage_draws : (s.reportImage).draws = s.draws := rfl

end

/-! START -/

theorem State.start_of_busy (s : State) (c : Ctrl) (h : s.status.busy = true) : s.start c = s := by
  simp [State.start, h]

theorem State.start_of_idle (s : State) (c : Ctrl) (h : s.status.busy = false) :
    s.start c = { (s.setFlags c Status.running) with errcode := 0, outLen := 0, phase := .check } := by
  simp [State.start, h]

end Sys2Proof.Machine
end

