-- ==== Sys2Proof/Laws/Ops.lean ====
section
/-! SUPPORT. One lemma or two for each shared operation: when it goes through and with what, and everything that follows
from its going through. -/

namespace Sys2Proof.Machine

/-! ### The engine-step monad -/

@[simp] theorem ok_bind {α β : Type} (a : α) (f : α → Except Stop β) : ((Except.ok a : Except Stop α) >>= f) = f a := rfl

@[simp] theorem error_bind {α β : Type} (e : Stop) (f : α → Except Stop β) :
    ((Except.error e : Except Stop α) >>= f) = Except.error e := rfl

@[simp] theorem pure_eq_ok {α : Type} (a : α) : (pure a : Except Stop α) = Except.ok a := rfl

/-- A bind goes through when both halves do. -/
theorem bind_eq_ok {α β : Type} {x : Except Stop α} {f : α → Except Stop β} {b : β} :
    (x >>= f) = .ok b ↔ ∃ a, x = .ok a ∧ f a = .ok b := by
  cases x with
  | ok a => exact ⟨fun h => ⟨a, rfl, h⟩, fun ⟨_, h1, h2⟩ => by cases h1; exact h2⟩
  | error e => exact ⟨fun h => (nomatch h), fun ⟨_, h1, _⟩ => (nomatch h1)⟩

/-- A bind stops where its first half does, or its second. -/
theorem bind_eq_error {α β : Type} {x : Except Stop α} {f : α → Except Stop β} {e : Stop} :
    (x >>= f) = .error e ↔ x = .error e ∨ ∃ a, x = .ok a ∧ f a = .error e := by
  cases x with
  | ok a => exact ⟨fun h => .inr ⟨a, rfl, h⟩, fun h => by
      rcases h with h | ⟨_, h1, h2⟩
      · exact nomatch h
      · cases h1; exact h2⟩
  | error e' => exact ⟨fun h => .inl (congrArg Except.error (Except.error.inj h)), fun h => by
      rcases h with h | ⟨_, h1, _⟩
      · exact congrArg Except.error (Except.error.inj h)
      · exact nomatch h1⟩

/-- Everything `settle` can answer. -/
theorem settle_next {s t : State} {e : Except Stop State} :
    settle s e = .next t ↔ e = .ok t ∨ ∃ c, e = .error (.raise c) ∧ t = s.raise c := by
  rcases e with (c | f) | u <;> simp [settle, eq_comm]

theorem settle_fault {s : State} {f : Fault} {e : Except Stop State} :
    settle s e = .fault f ↔ e = .error (.fault f) := by
  rcases e with (c | f) | u <;> simp [settle]

theorem settle_ne_refused {s : State} {r : Refusal} {e : Except Stop State} : settle s e ≠ .refused r := by
  rcases e with (c | f) | u <;> simp [settle]

theorem require_of_true {b : Bool} {c : ErrCode} (h : b = true) : require b c = .ok () := by simp [require, h]

theorem require_of_false {b : Bool} {c : ErrCode} (h : b = false) : require b c = .error (.raise c) := by
  simp [require, h]

theorem require_eq_ok {b : Bool} {c : ErrCode} {u : Unit} : require b c = .ok u ↔ b = true := by
  cases b <;> simp [require]

theorem require_eq_error {b : Bool} {c : ErrCode} {e : Stop} : require b c = .error e ↔ b = false ∧ e = .raise c := by
  cases b <;> simp [require, eq_comm]

/-! ### Accesses -/

theorem access_eq_ok {p : Platform} {a : Nat} {k : AccessKind} {u : Unit} :
    access p a k = .ok u ↔ a < Config.addressEnd ∧ p.memOk a k = true := by
  unfold access
  split
  · rename_i h
    exact ⟨fun h => (nomatch h), fun h' => absurd h'.1 (Nat.not_lt.2 h)⟩
  · rename_i h
    split
    · rename_i hm; exact ⟨fun _ => ⟨Nat.lt_of_not_le h, hm⟩, fun _ => rfl⟩
    · rename_i hm; exact ⟨fun h => (nomatch h), fun h' => absurd h'.2 hm⟩

/-- An access stops by BUS_ERROR, or by the model's fault outside system memory. -/
theorem access_eq_error {p : Platform} {a : Nat} {k : AccessKind} {e : Stop} :
    access p a k = .error e ↔
      (Config.addressEnd ≤ a ∧ e = .fault .noSuchAddress) ∨
      (a < Config.addressEnd ∧ p.memOk a k = false ∧ e = .raise .busError) := by
  unfold access
  split
  · rename_i h
    exact ⟨fun he => .inl ⟨h, (Except.error.inj he).symm⟩, fun he => by
      rcases he with ⟨_, rfl⟩ | ⟨h', _⟩
      · rfl
      · exact absurd h' (Nat.not_lt.2 h)⟩
  · rename_i h
    split
    · rename_i hm
      exact ⟨fun he => (nomatch he), fun he => by
        rcases he with ⟨h', _⟩ | ⟨_, hm', _⟩
        · exact absurd h' h
        · rw [hm] at hm'; cases hm'⟩
    · rename_i hm
      exact ⟨fun he => .inr ⟨Nat.lt_of_not_le h, Bool.eq_false_iff.2 hm, (Except.error.inj he).symm⟩, fun he => by
        rcases he with ⟨h', _⟩ | ⟨_, _, rfl⟩
        · exact absurd h' h
        · rfl⟩

theorem loadByte_eq_ok {s : State} {a : Nat} {b : Byte} :
    loadByte s a = .ok b ↔ (a < Config.addressEnd ∧ s.platform.memOk a .read = true) ∧ b = s.mem.read a := by
  simp only [loadByte, bind_eq_ok, access_eq_ok, pure_eq_ok, Except.ok.injEq, exists_const]
  exact and_congr_right fun _ => ⟨Eq.symm, Eq.symm⟩

theorem loadByte_of_canRead {s : State} {a : Nat} (h : a < Config.addressEnd) (hm : s.platform.memOk a .read = true) :
    loadByte s a = .ok (s.mem.read a) := loadByte_eq_ok.2 ⟨⟨h, hm⟩, rfl⟩

theorem loadByte_eq_error {s : State} {a : Nat} {e : Stop} :
    loadByte s a = .error e ↔ access s.platform a .read = .error e := by
  simp [loadByte, bind_eq_error]

theorem State.CanRead.tail {s : State} {a n : Nat} (h : s.CanRead a (n + 1)) : s.CanRead (a + 1) n := fun i hi => by
  have := h (i + 1) (by omega)
  rwa [show a + 1 + i = a + (i + 1) by omega]

theorem State.CanRead.head {s : State} {a n : Nat} (h : s.CanRead a (n + 1)) :
    a < Config.addressEnd ∧ s.platform.memOk a .read = true := h 0 (by omega)

theorem State.CanRead.cons {s : State} {a n : Nat} (h0 : a < Config.addressEnd ∧ s.platform.memOk a .read = true)
    (h : s.CanRead (a + 1) n) : s.CanRead a (n + 1) := fun i hi => by
  cases i with
  | zero => exact h0
  | succ i =>
    have := h i (by omega)
    rwa [show a + 1 + i = a + (i + 1) by omega] at this

/-- `loadBytes` goes through exactly where every byte may be read, and gives memory's bytes. -/
theorem loadBytes_eq_ok {s : State} {a n : Nat} {bs : List Byte} :
    loadBytes s a n = .ok bs ↔ s.CanRead a n ∧ bs = s.mem.readBytes a n := by
  induction n generalizing a bs with
  | zero =>
    exact ⟨fun h => ⟨fun i hi => absurd hi (Nat.not_lt_zero i), (Except.ok.inj h).symm⟩, fun h => h.2 ▸ rfl⟩
  | succ n ih =>
    simp only [loadBytes, Memory.readBytes, bind_eq_ok, loadByte_eq_ok, ih, pure_eq_ok, Except.ok.injEq]
    constructor
    · rintro ⟨_, ⟨h0, rfl⟩, _, ⟨h1, rfl⟩, rfl⟩
      exact ⟨h1.cons h0, rfl⟩
    · rintro ⟨h, rfl⟩
      exact ⟨_, ⟨h.head, rfl⟩, _, ⟨h.tail, rfl⟩, rfl⟩

/-- Where `loadBytes` stops, one of its accesses does. -/
theorem loadBytes_eq_error {s : State} {a n : Nat} {e : Stop} (h : loadBytes s a n = .error e) :
    ∃ i, i < n ∧ access s.platform (a + i) .read = .error e := by
  induction n generalizing a with
  | zero => simp [loadBytes] at h
  | succ n ih =>
    simp only [loadBytes, bind_eq_error, loadByte_eq_error] at h
    rcases h with h | ⟨_, _, h | ⟨_, _, h⟩⟩
    · exact ⟨0, by omega, h⟩
    · obtain ⟨i, hi, h⟩ := ih h
      exact ⟨i + 1, by omega, by rwa [show a + 1 + i = a + (i + 1) by omega] at h⟩
    · cases h

/-- Every byte of a run may be written. -/
def Platform.CanWrite (p : Platform) (a n : Nat) : Prop :=
  ∀ i, i < n → a + i < Config.addressEnd ∧ p.memOk (a + i) .write = true

theorem Platform.canWrite_succ {p : Platform} {a n : Nat} :
    p.CanWrite a (n + 1) ↔ (a < Config.addressEnd ∧ p.memOk a .write = true) ∧ p.CanWrite (a + 1) n := by
  constructor
  · intro h
    refine ⟨h 0 (by omega), fun i hi => ?_⟩
    have := h (i + 1) (by omega)
    rwa [show a + 1 + i = a + (i + 1) by omega]
  · rintro ⟨h0, h⟩ i hi
    cases i with
    | zero => exact h0
    | succ i =>
      have := h i (by omega)
      rwa [show a + 1 + i = a + (i + 1) by omega] at this

/-- `storeBytes` goes through exactly where every byte may be written, and writes them all. -/
theorem storeBytes_eq_ok {p : Platform} {m m' : Memory} {a : Nat} {bs : List Byte} :
    storeBytes p m a bs = .ok m' ↔ p.CanWrite a bs.length ∧ m' = m.writeBytes a bs := by
  induction bs generalizing m a with
  | nil =>
    exact ⟨fun h => ⟨fun i hi => absurd hi (Nat.not_lt_zero i), (Except.ok.inj h).symm⟩, fun h => h.2 ▸ rfl⟩
  | cons b bs ih =>
    simp only [storeBytes, bind_eq_ok, access_eq_ok, ih, List.length_cons, Platform.canWrite_succ,
      Memory.writeBytes_cons, exists_const, and_assoc]

/-- Where `storeBytes` stops, one of its accesses does. -/
theorem storeBytes_eq_error {p : Platform} {m : Memory} {a : Nat} {bs : List Byte} {e : Stop}
    (h : storeBytes p m a bs = .error e) : ∃ i, i < bs.length ∧ access p (a + i) .write = .error e := by
  induction bs generalizing m a with
  | nil => simp [storeBytes] at h
  | cons b bs ih =>
    simp only [storeBytes, bind_eq_error] at h
    rcases h with h | ⟨_, _, h⟩
    · exact ⟨0, by simp, h⟩
    · obtain ⟨i, hi, h⟩ := ih h
      exact ⟨i + 1, by simpa using hi, by rwa [show a + 1 + i = a + (i + 1) by omega] at h⟩

/-! ### Emission -/

/-- `emit` (R196) goes through exactly where the bytes fit `DST_CAP` and may be written. -/
theorem emit_eq_ok {s t : State} {bs : List Byte} :
    emit s bs = .ok t ↔
      s.wp + bs.length ≤ s.dstCap.toNat ∧ s.CanWrite (s.dstBase.toNat + s.wp) bs.length ∧
      t = { s with mem := s.mem.writeBytes (s.dstBase.toNat + s.wp) bs, wp := s.wp + bs.length } := by
  simp only [emit, bind_eq_ok, require_eq_ok, decide_eq_true_eq, storeBytes_eq_ok, pure_eq_ok, Except.ok.injEq,
    exists_const, eq_comm (b := t)]
  constructor
  · rintro ⟨h1, _, ⟨h2, rfl⟩, rfl⟩; exact ⟨h1, h2, rfl⟩
  · rintro ⟨h1, h2, rfl⟩; exact ⟨h1, _, ⟨h2, rfl⟩, rfl⟩

/-- Where `emit` stops: the capacity, or one access. -/
theorem emit_eq_error {s : State} {bs : List Byte} {e : Stop} (h : emit s bs = .error e) :
    (s.dstCap.toNat < s.wp + bs.length ∧ e = .raise .capacityExceeded) ∨
    (s.wp + bs.length ≤ s.dstCap.toNat ∧
      ∃ i, i < bs.length ∧ access s.platform (s.dstBase.toNat + s.wp + i) .write = .error e) := by
  simp only [emit, bind_eq_error, require_eq_error, require_eq_ok, decide_eq_false_iff_not, decide_eq_true_eq,
    pure_eq_ok] at h
  rcases h with ⟨h, rfl⟩ | ⟨_, h1, h | ⟨_, _, h⟩⟩
  · exact .inl ⟨by omega, rfl⟩
  · exact .inr ⟨h1, storeBytes_eq_error h⟩
  · cases h

/-! ### Pixels -/

theorem pixelBytes_length {c : Byte} (p : Pixel) (h : c = 3 ∨ c = 4) : (pixelBytes c p).length = c.toNat := by
  rcases h with rfl | rfl <;> rfl

theorem copyBytes_length {c : Byte} (p : Pixel) (h : c = 3 ∨ c = 4) (n : Nat) :
    (copyBytes c p n).length = n * c.toNat := by
  induction n with
  | zero => simp [copyBytes]
  | succ n ih => rw [copyBytes, List.length_append, ih, pixelBytes_length p h, Nat.succ_mul]; omega

@[simp] theorem copyBytes_one (c : Byte) (p : Pixel) : copyBytes c p 1 = pixelBytes c p := by simp [copyBytes]

/-- R122: the pixel is in its slot. -/
theorem slot_update_same (c : Byte) (k : Cache) (p : Pixel) : slot (update c k p) (indexOf c p) = p := by
  simp [slot, update]

/-- R122: no other slot changes. -/
theorem slot_update_other (c : Byte) (k : Cache) (p : Pixel) {i : Fin 64} (h : i ≠ indexOf c p) :
    slot (update c k p) i = slot k i := by
  have : (indexOf c p).val ≠ i.val := fun he => h (Fin.ext he.symm)
  simp [slot, update, Vector.getElem_set_ne, this]

/-- R122: writing a pixel that is already present changes nothing. -/
theorem update_update (c : Byte) (k : Cache) (p : Pixel) : update c (update c k p) p = update c k p := by
  simp [update]

/-- The state after `n` copies of a pixel have been emitted (R212). -/
def State.afterPixels (s : State) (p : Pixel) (n : Nat) : State :=
  { s with
    mem := s.mem.writeBytes (s.dstPixel s.pix) (copyBytes s.lc p n)
    cache := if n = 0 then s.cache else update s.lc s.cache p
    prev := if n = 0 then s.prev else p
    pix := s.pix + n }

theorem putPixel_eq_ok {s t : State} {p : Pixel} :
    putPixel s p = .ok t ↔
      s.CanWrite (s.dstPixel s.pix) (pixelBytes s.lc p).length ∧ t = s.afterPixels p 1 := by
  simp only [putPixel, bind_eq_ok, storeBytes_eq_ok, pure_eq_ok, Except.ok.injEq, eq_comm (b := t)]
  constructor
  · rintro ⟨_, ⟨h, rfl⟩, rfl⟩; exact ⟨h, by simp [State.afterPixels]⟩
  · rintro ⟨h, rfl⟩; exact ⟨_, ⟨h, rfl⟩, by simp [State.afterPixels]⟩

/-- The destination address of the next pixel. -/
theorem dstPixel_add (s : State) (i n : Nat) : s.dstPixel (i + n) = s.dstPixel i + n * s.lc.toNat := by
  simp only [State.dstPixel, Nat.add_mul]; omega

theorem canWrite_add {p : Platform} {a n k : Nat} : p.CanWrite a (n + k) ↔ p.CanWrite a n ∧ p.CanWrite (a + n) k := by
  constructor
  · intro h
    refine ⟨fun i hi => h i (by omega), fun i hi => ?_⟩
    have := h (n + i) (by omega)
    rwa [show a + n + i = a + (n + i) by omega]
  · rintro ⟨h1, h2⟩ i hi
    by_cases hin : i < n
    · exact h1 i hin
    · have := h2 (i - n) (by omega)
      rwa [show a + n + (i - n) = a + i by omega] at this

/-- `putPixels` (R212's loop) goes through exactly where every byte may be written. -/
theorem putPixels_eq_ok {p : Pixel} {n : Nat} {s t : State} (hc : s.lc = 3 ∨ s.lc = 4) :
    putPixels p n s = .ok t ↔
      s.CanWrite (s.dstPixel s.pix) (n * s.lc.toNat) ∧ t = s.afterPixels p n := by
  induction n generalizing s with
  | zero =>
    simp only [putPixels, Except.ok.injEq, Nat.zero_mul, State.afterPixels, copyBytes, Memory.writeBytes_nil,
      if_true, Nat.add_zero, eq_comm (b := t), State.CanWrite]
    simp
  | succ n ih =>
    simp only [putPixels, bind_eq_ok, putPixel_eq_ok, pixelBytes_length p hc]
    have hlen : (n + 1) * s.lc.toNat = s.lc.toNat + n * s.lc.toNat := by rw [Nat.succ_mul]; omega
    have hcw : s.CanWrite (s.dstPixel s.pix) ((n + 1) * s.lc.toNat) ↔
        s.CanWrite (s.dstPixel s.pix) s.lc.toNat ∧ s.CanWrite (s.dstPixel s.pix + s.lc.toNat) (n * s.lc.toNat) := by
      rw [hlen]; exact canWrite_add
    have hd : (s.afterPixels p 1).dstPixel (s.afterPixels p 1).pix = s.dstPixel s.pix + s.lc.toNat := by
      show s.dstPixel (s.pix + 1) = _
      rw [dstPixel_add, Nat.one_mul]
    have hstep : (s.afterPixels p 1).afterPixels p n = s.afterPixels p (n + 1) := by
      have hm : ((s.mem.writeBytes (s.dstPixel s.pix) (pixelBytes s.lc p)).writeBytes
            (s.dstPixel s.pix + s.lc.toNat) (copyBytes s.lc p n)) =
          s.mem.writeBytes (s.dstPixel s.pix) (copyBytes s.lc p (n + 1)) := by
        rw [copyBytes, Memory.writeBytes_append, pixelBytes_length p hc]
      unfold State.afterPixels at hd ⊢
      simp only [copyBytes_one, if_false, Nat.succ_ne_zero] at hd ⊢
      rw [hd, hm]
      simp only [update_update, ite_self, Nat.add_assoc, Nat.add_comm 1 n]
    constructor
    · rintro ⟨_, ⟨h1, rfl⟩, hput⟩
      obtain ⟨h2, ht⟩ := (ih (s := s.afterPixels p 1) hc).1 hput
      rw [hd] at h2
      exact ⟨hcw.2 ⟨h1, h2⟩, ht.trans hstep⟩
    · rintro ⟨h, rfl⟩
      obtain ⟨h1, h2⟩ := hcw.1 h
      refine ⟨_, ⟨h1, rfl⟩, (ih (s := s.afterPixels p 1) hc).2 ⟨?_, hstep.symm⟩⟩
      rw [hd]; exact h2

/-- Where `putPixels` stops, one of its accesses does. -/
theorem putPixels_eq_error {p : Pixel} {n : Nat} {s : State} {e : Stop} (hc : s.lc = 3 ∨ s.lc = 4)
    (h : putPixels p n s = .error e) :
    ∃ i, i < n * s.lc.toNat ∧ access s.platform (s.dstPixel s.pix + i) .write = .error e := by
  induction n generalizing s with
  | zero => simp [putPixels] at h
  | succ n ih =>
    have hlen : (n + 1) * s.lc.toNat = s.lc.toNat + n * s.lc.toNat := by rw [Nat.succ_mul]; omega
    simp only [putPixels, bind_eq_error, putPixel, pure_eq_ok] at h
    rcases h with (h | ⟨_, _, h⟩) | ⟨t, ht, h⟩
    · obtain ⟨i, hi, h⟩ := storeBytes_eq_error h
      rw [pixelBytes_length p hc] at hi
      exact ⟨i, by omega, h⟩
    · cases h
    · obtain ⟨_, rfl⟩ := putPixel_eq_ok.1 ht
      obtain ⟨i, hi, h⟩ := ih (s := s.afterPixels p 1) hc h
      refine ⟨s.lc.toNat + i, by rw [hlen]; exact Nat.add_lt_add_left hi _, ?_⟩
      have hd : (s.afterPixels p 1).dstPixel (s.afterPixels p 1).pix = s.dstPixel s.pix + s.lc.toNat := by
        show s.dstPixel (s.pix + 1) = _
        rw [dstPixel_add, Nat.one_mul]
      rw [hd, Nat.add_assoc] at h
      exact h

/-- A chunk's step (R211, R212) goes through exactly where its pixels are wanted and may be written. -/
theorem chunkStep_eq_ok {s t : State} {p : Pixel} {n len : Nat} (hc : s.lc = 3 ∨ s.lc = 4) :
    chunkStep s p n len = .ok t ↔
      s.pix + n ≤ s.npix ∧ s.CanWrite (s.dstPixel s.pix) (n * s.lc.toNat) ∧
      t = { s.afterPixels p n with rp := s.rp + len } := by
  simp only [chunkStep, bind_eq_ok, require_eq_ok, decide_eq_true_eq, putPixels_eq_ok hc, pure_eq_ok, Except.ok.injEq,
    exists_const, eq_comm (b := t)]
  constructor
  · rintro ⟨h1, _, ⟨h2, rfl⟩, rfl⟩; exact ⟨h1, h2, rfl⟩
  · rintro ⟨h1, h2, rfl⟩; exact ⟨h1, _, ⟨h2, rfl⟩, rfl⟩

/-- Where a chunk's step stops: too many pixels, or one access. -/
theorem chunkStep_eq_error {s : State} {p : Pixel} {n len : Nat} {e : Stop} (hc : s.lc = 3 ∨ s.lc = 4)
    (h : chunkStep s p n len = .error e) :
    (s.npix < s.pix + n ∧ e = .raise .pixelCountMismatch) ∨
    (s.pix + n ≤ s.npix ∧
      ∃ i, i < n * s.lc.toNat ∧ access s.platform (s.dstPixel s.pix + i) .write = .error e) := by
  simp only [chunkStep, bind_eq_error, require_eq_error, require_eq_ok, decide_eq_false_iff_not, decide_eq_true_eq,
    pure_eq_ok] at h
  rcases h with ⟨h, rfl⟩ | ⟨_, h1, h | ⟨_, _, h⟩⟩
  · exact .inl ⟨by omega, rfl⟩
  · exact .inr ⟨h1, putPixels_eq_error hc h⟩
  · cases h

/-- `loadPixel` (R191) goes through exactly where the pixel's bytes may be read. -/
theorem loadPixel_eq_ok {s : State} {i : Nat} {p : Pixel} (hc : s.lc = 3 ∨ s.lc = 4) :
    loadPixel s i = .ok p ↔ s.CanRead (s.srcPixel i) s.lc.toNat ∧ p = s.pixelAt i := by
  have hr : ∀ a, s.CanRead a 3 ↔ (a < Config.addressEnd ∧ s.platform.memOk a .read = true) ∧
      (a + 1 < Config.addressEnd ∧ s.platform.memOk (a + 1) .read = true) ∧
      (a + 2 < Config.addressEnd ∧ s.platform.memOk (a + 2) .read = true) := fun a =>
    ⟨fun h => ⟨h 0 (by omega), h 1 (by omega), h 2 (by omega)⟩, fun ⟨h0, h1, h2⟩ i hi => by
      match i, hi with
      | 0, _ => exact h0
      | 1, _ => exact h1
      | 2, _ => exact h2⟩
  have hr4 : ∀ a, s.CanRead a 4 ↔ s.CanRead a 3 ∧
      (a + 3 < Config.addressEnd ∧ s.platform.memOk (a + 3) .read = true) := fun a =>
    ⟨fun h => ⟨fun i hi => h i (by omega), h 3 (by omega)⟩, fun ⟨h0, h1⟩ i hi => by
      by_cases h3 : i < 3
      · exact h0 i h3
      · obtain rfl : i = 3 := by omega
        exact h1⟩
  have hal : ∀ a x, loadAlpha s a = .ok x ↔
      (s.lc = 4 ∧ (a < Config.addressEnd ∧ s.platform.memOk a .read = true) ∧ x = s.mem.read a) ∨
      (s.lc ≠ 4 ∧ x = 255) := fun a x => by
    unfold loadAlpha
    split
    · rename_i h4
      rw [loadByte_eq_ok]
      exact ⟨fun h => .inl ⟨h4, h⟩, fun h => h.elim (fun h => h.2) fun h => absurd h4 h.1⟩
    · rename_i h4
      exact ⟨fun h => .inr ⟨h4, (Except.ok.inj h).symm⟩, fun h => h.elim (fun h => absurd h.1 h4) fun h => h.2 ▸ rfl⟩
  simp only [loadPixel, bind_eq_ok, loadByte_eq_ok, hal, pure_eq_ok, Except.ok.injEq]
  rcases hc with hc | hc
  · have h3 : s.lc.toNat = 3 := by rw [hc]; rfl
    have h4 : s.lc ≠ 4 := by rw [hc]; decide
    rw [h3, hr]
    simp only [State.pixelAt, pixelOf, State.srcPixel, h4, if_false, h3, false_and, ne_eq, not_false_eq_true, true_and,
      false_or]
    constructor
    · rintro ⟨_, ⟨h0, rfl⟩, _, ⟨h1, rfl⟩, _, ⟨h2, rfl⟩, _, rfl, rfl⟩; exact ⟨⟨h0, h1, h2⟩, rfl⟩
    · rintro ⟨⟨h0, h1, h2⟩, rfl⟩; exact ⟨_, ⟨h0, rfl⟩, _, ⟨h1, rfl⟩, _, ⟨h2, rfl⟩, _, rfl, rfl⟩
  · have h4 : s.lc.toNat = 4 := by rw [hc]; rfl
    rw [h4, hr4, hr]
    simp only [State.pixelAt, pixelOf, State.srcPixel, hc, if_true, ne_eq, not_true_eq_false, false_and, or_false,
      true_and]
    constructor
    · rintro ⟨_, ⟨h0, rfl⟩, _, ⟨h1, rfl⟩, _, ⟨h2, rfl⟩, _, ⟨h3, rfl⟩, rfl⟩; exact ⟨⟨⟨h0, h1, h2⟩, h3⟩, rfl⟩
    · rintro ⟨⟨⟨h0, h1, h2⟩, h3⟩, rfl⟩; exact ⟨_, ⟨h0, rfl⟩, _, ⟨h1, rfl⟩, _, ⟨h2, rfl⟩, _, ⟨h3, rfl⟩, rfl⟩

/-- Where `loadPixel` stops, one of its accesses does. -/
theorem loadPixel_eq_error {s : State} {i : Nat} {e : Stop} (hc : s.lc = 3 ∨ s.lc = 4)
    (h : loadPixel s i = .error e) : ∃ j, j < s.lc.toNat ∧ access s.platform (s.srcPixel i + j) .read = .error e := by
  have h3 : 3 ≤ s.lc.toNat := by rcases hc with hc | hc <;> rw [hc] <;> decide
  simp only [loadPixel, bind_eq_error, loadByte_eq_error, pure_eq_ok] at h
  rcases h with h | ⟨_, _, h | ⟨_, _, h | ⟨_, _, h | ⟨_, _, h⟩⟩⟩⟩
  · exact ⟨0, by omega, h⟩
  · exact ⟨1, by omega, h⟩
  · exact ⟨2, by omega, h⟩
  · unfold loadAlpha at h
    split at h
    · rename_i h4
      exact ⟨3, by rw [h4]; decide, loadByte_eq_error.1 h⟩
    · cases h
  · cases h

/-- A pixel inside system memory with a refused byte raises BUS_ERROR (R191, R269). -/
theorem loadPixel_of_refused {s : State} {i : Nat} (hc : s.lc = 3 ∨ s.lc = 4)
    (ha : s.srcPixel i + s.lc.toNat ≤ Config.addressEnd)
    (hr : ∃ j, j < s.lc.toNat ∧ s.platform.memOk (s.srcPixel i + j) .read = false) :
    loadPixel s i = .error (.raise .busError) := by
  cases hl : loadPixel s i with
  | ok p =>
    obtain ⟨j, hj, hm⟩ := hr
    rw [((loadPixel_eq_ok hc).1 hl).1 j hj |>.2] at hm
    cases hm
  | error e =>
    obtain ⟨j, hj, he⟩ := loadPixel_eq_error hc hl
    rcases access_eq_error.1 he with ⟨h, _⟩ | ⟨_, _, rfl⟩
    · omega
    · rfl

/-- What the run scan (R193) gives when it goes through: a length within its bounds, every further pixel of the run equal
to `p`, and a reason for stopping. -/
theorem runScan_spec {s : State} {p : Pixel} (hc : s.lc = 3 ∨ s.lc = 4) {fuel n m : Nat}
    (h : runScan s p fuel n = .ok m) :
    n ≤ m ∧ m ≤ n + fuel ∧ (s.pix + n ≤ s.npix → s.pix + m ≤ s.npix) ∧
    (∀ j, n ≤ j → j < m → eqC s.lc (s.pixelAt (s.pix + j)) p = true) ∧
    (m = n + fuel ∨ s.npix ≤ s.pix + m ∨ eqC s.lc (s.pixelAt (s.pix + m)) p = false) := by
  induction fuel generalizing n with
  | zero =>
    cases h
    exact ⟨Nat.le_refl _, Nat.le_refl _, id, fun j h1 h2 => by omega, .inl rfl⟩
  | succ fuel ih =>
    unfold runScan at h
    split at h
    · rename_i hlt
      obtain ⟨q, hq, h⟩ := bind_eq_ok.1 h
      obtain ⟨_, rfl⟩ := (loadPixel_eq_ok hc).1 hq
      split at h
      · rename_i heq
        obtain ⟨h1, h2, h3, h4, h5⟩ := ih h
        refine ⟨by omega, by omega, fun _ => h3 (by omega), fun j hj1 hj2 => ?_, ?_⟩
        · by_cases hj : j = n
          · exact hj ▸ heq
          · exact h4 j (by omega) hj2
        · rcases h5 with h5 | h5
          · exact .inl (by omega)
          · exact .inr h5
      · rename_i hne
        cases h
        exact ⟨Nat.le_refl _, by omega, id, fun j h1 h2 => by omega, .inr (.inr (by simpa using hne))⟩
    · cases h
      exact ⟨Nat.le_refl _, by omega, id, fun j h1 h2 => by omega, .inr (.inl (by omega))⟩

/-- Where the run scan stops, one of its pixel reads does, inside the image. -/
theorem runScan_eq_error {s : State} {p : Pixel} {fuel n : Nat} {e : Stop} (h : runScan s p fuel n = .error e) :
    ∃ i, i < s.npix ∧ loadPixel s i = .error e := by
  induction fuel generalizing n with
  | zero => simp [runScan] at h
  | succ fuel ih =>
    unfold runScan at h
    split at h
    · rename_i hlt
      rcases bind_eq_error.1 h with h | ⟨q, _, h⟩
      · exact ⟨_, hlt, h⟩
      · split at h
        · exact ih h
        · cases h
    · cases h

/-- The run scan stops where the pixel it looks ahead at raises, the pixels before it being of the run (R193, R263). -/
theorem runScan_of_error {s : State} {p : Pixel} {m : Nat} {e : Stop} (hc : s.lc = 3 ∨ s.lc = 4)
    (hb : loadPixel s (s.pix + m) = .error e) (hm : s.pix + m < s.npix) {fuel n : Nat} (h1 : n ≤ m) (h2 : m < n + fuel)
    (hq : ∀ j, n ≤ j → j < m → eqC s.lc (s.pixelAt (s.pix + j)) p = true)
    (hr : ∀ j, n ≤ j → j < m → s.CanRead (s.srcPixel (s.pix + j)) s.lc.toNat) : runScan s p fuel n = .error e := by
  induction fuel generalizing n with
  | zero => omega
  | succ fuel ih =>
    rw [runScan, if_pos (show s.pix + n < s.npix by omega)]
    by_cases h : n = m
    · subst h; rw [hb]; rfl
    · rw [(loadPixel_eq_ok hc).2 ⟨hr n (by omega) (by omega), rfl⟩, ok_bind, if_pos (hq n (by omega) (by omega))]
      exact ih (by omega) (by omega) (fun j a b => hq j (by omega) b) fun j a b => hr j (by omega) b

/-! ### Error endings -/

/-- An error ending leaves every byte outside the destination region alone (R261). -/
theorem read_raise_outside (s : State) (c : ErrCode) {a : Nat}
    (h : a < s.dstBase.toNat ∨ s.dstBase.toNat + s.dstCap.toNat ≤ a) : (s.raise c).mem.read a = s.mem.read a := by
  rw [State.raise_mem]
  unfold State.loseDestination
  split
  · exact Memory.read_obscure_outside _ h _
  · rfl

/-- An error ending keeps memory's canonical form. -/
theorem wf_raise {s : State} (h : s.mem.wf) (c : ErrCode) : (s.raise c).mem.wf := by
  rw [State.raise_mem]
  unfold State.loseDestination
  split
  · exact Memory.wf_obscure h _ _ _
  · exact h

end Sys2Proof.Machine
end

