-- ==== Sys2Proof/Laws/PerInstr.lean ====
section
/-! SUPPORT. Facts about every instruction as syntax, one lemma for each constructor. -/

/-- The encoder gives as many bytes as the instruction takes (R84, R87, R89, R90). -/
def Sys2Proof.Laws.EncodedLength.Statement (i : Sys2Proof.Instr) : Prop := (Sys2Proof.encode i).length = i.length

namespace Sys2Proof.Laws.EncodedLength

theorem rgb (r g b : Byte) : Statement (.rgb r g b) := rfl
theorem rgba (r g b a : Byte) : Statement (.rgba r g b a) := rfl
theorem index (idx : Fin 64) : Statement (.index idx) := rfl
theorem diff (dr dg db : Int) : Statement (.diff dr dg db) := rfl
theorem luma (dg drg dbg : Int) : Statement (.luma dg drg dbg) := rfl
theorem run (n : Nat) : Statement (.run n) := rfl
theorem hdr (w h : Word) (c cs : Byte) : Statement (.hdr w h c cs) := rfl
theorem endMarker : Statement .endMarker := rfl
theorem encodeCmd (irqEn : Bool) : Statement (.encodeCmd irqEn) := rfl
theorem decodeCmd (irqEn : Bool) : Statement (.decodeCmd irqEn) := rfl
theorem reservedCmd (cmd : BitVec 2) (irqEn : Bool) : Statement (.reservedCmd cmd irqEn) := rfl

end Sys2Proof.Laws.EncodedLength

/-- The encoder's length, for every instruction. -/
theorem Sys2Proof.encode_length (i : Sys2Proof.Instr) : (Sys2Proof.encode i).length = i.length := by
  cases i <;> rfl
end

