-- ==== Sys2Proof/Laws/Engine.lean ====
section
/-! SUPPORT. What one engine step can do, said once: which step function runs at each phase, what a fetch gives, and the
inversion of a step that answers a next state or a fault. -/

namespace Sys2Proof.Machine

/-! ### Which step runs -/

theorem step_of_no_host {s : State} (h : s.host = []) : step s = engineStep s := by simp [step, moveStep, h]

theorem engineStep_idle {s : State} (h : s.phase = .idle) : engineStep s = .next s := by
  unfold engineStep encodeStep decodeStep
  rw [h]
  cases s.op <;> rfl

theorem engineStep_check {s : State} (h : s.phase = .check) : engineStep s = checkStep s := by
  unfold engineStep encodeStep decodeStep
  rw [h]
  cases s.op <;> rfl

theorem engineStep_encHeader {s : State} (hp : s.phase = .header) (ho : s.op = .enc) :
    engineStep s = settle s (encHeader s) := by simp [engineStep, ho, encodeStep, hp]

theorem engineStep_encBody {s : State} (hp : s.phase = .body) (ho : s.op = .enc) :
    engineStep s = settle s (encBody s) := by simp [engineStep, ho, encodeStep, hp]

theorem engineStep_encTail {s : State} (hp : s.phase = .tail) (ho : s.op = .enc) :
    engineStep s = settle s (encTail s) := by simp [engineStep, ho, encodeStep, hp]

theorem engineStep_decHeader {s : State} (hp : s.phase = .header) (ho : s.op = .dec) :
    engineStep s = runFetched s (fetchHeader s) := by simp [engineStep, ho, decodeStep, hp]

theorem engineStep_decBody {s : State} (hp : s.phase = .body) (ho : s.op = .dec) :
    engineStep s = if s.pix = s.npix then .next { s with phase := .tail } else runFetched s (fetchChunk s) := by
  simp [engineStep, ho, decodeStep, hp]

theorem engineStep_decTail {s : State} (hp : s.phase = .tail) (ho : s.op = .dec) :
    engineStep s = runFetched s (fetchMarker s) := by simp [engineStep, ho, decodeStep, hp]

/-! ### Fetches -/

theorem decodeFetched_eq_ok {p : Place} {bs : List Byte} {i : Instr} :
    decodeFetched p bs = .ok i ↔ ∃ rest, decode p bs = .instr i rest := by
  unfold decodeFetched
  cases decode p bs <;> simp

theorem decodeFetched_eq_error {p : Place} {bs : List Byte} {e : Stop} (h : decodeFetched p bs = .error e) :
    ∃ d, decode p bs = .reject d ∧ e = .raise (rejectCode d) := by
  unfold decodeFetched at h
  cases hd : decode p bs with
  | instr i rest => rw [hd] at h; cases h
  | reject d => rw [hd] at h; cases h; exact ⟨d, rfl, rfl⟩

/-- The decoder reads a header from fourteen bytes, or rejects the magic (R89, R142). -/
theorem decodeHeader_of_length {bs : List Byte} (h : bs.length = 14) :
    (∃ w ht c cs, decode .header bs = .instr (.hdr w ht c cs) []) ∨ decode .header bs = .reject .badMagic := by
  match bs, h with
  | [m0, m1, m2, m3, w3, w2, w1, w0, h3, h2, h1, h0, c, cs], _ =>
    unfold decode decodeHeader
    simp only
    split
    · exact .inl ⟨_, _, _, _, rfl⟩
    · exact .inr rfl

/-- The decoder reads the end marker from eight bytes, or rejects it (R90, R144). -/
theorem decodeMarker_of_length {bs : List Byte} (h : bs.length = 8) :
    decode .tail bs = if bs = markerBytes then .instr .endMarker [] else .reject .badMarker := by
  unfold decode decodeMarker
  simp only
  rw [List.take_of_length_le (by omega), List.drop_of_length_le (by omega)]

theorem fetchHeader_eq_ok {s : State} {i : Instr} :
    fetchHeader s = .ok i ↔
      14 ≤ s.srcLen.toNat ∧ s.CanRead s.srcBase.toNat 14 ∧
      ∃ w h c cs, i = .hdr w h c cs ∧ decode .header (s.mem.readBytes s.srcBase.toNat 14) = .instr i [] := by
  simp only [fetchHeader, bind_eq_ok, require_eq_ok, decide_eq_true_eq, loadBytes_eq_ok, decodeFetched_eq_ok,
    exists_const]
  refine and_congr_right fun _ => ⟨?_, ?_⟩
  · rintro ⟨_, ⟨hr, rfl⟩, rest, hd⟩
    refine ⟨hr, ?_⟩
    rcases decodeHeader_of_length (Memory.readBytes_length s.mem s.srcBase.toNat 14) with ⟨w, h, c, cs, he⟩ | he
    · rw [he] at hd ⊢
      cases hd
      exact ⟨w, h, c, cs, rfl, rfl⟩
    · rw [he] at hd; cases hd
  · rintro ⟨hr, _, _, _, _, _, hd⟩
    exact ⟨_, ⟨hr, rfl⟩, [], hd⟩

theorem fetchMarker_eq_ok {s : State} {i : Instr} :
    fetchMarker s = .ok i ↔
      s.srcLen.toNat = s.rp + 8 ∧ s.CanRead (s.srcBase.toNat + s.rp) 8 ∧ i = .endMarker ∧
      s.mem.readBytes (s.srcBase.toNat + s.rp) 8 = markerBytes := by
  simp only [fetchMarker, bind_eq_ok, require_eq_ok, decide_eq_true_eq, loadBytes_eq_ok, decodeFetched_eq_ok,
    exists_const]
  refine and_congr_right fun _ => ⟨?_, ?_⟩
  · rintro ⟨_, ⟨hr, rfl⟩, rest, hd⟩
    rw [decodeMarker_of_length (Memory.readBytes_length _ _ 8)] at hd
    split at hd
    · cases hd; exact ⟨hr, rfl, ‹_›⟩
    · cases hd
  · rintro ⟨hr, rfl, hm⟩
    exact ⟨_, ⟨hr, rfl⟩, [], by rw [decodeMarker_of_length (Memory.readBytes_length _ _ 8), if_pos hm]⟩

/-- A chunk's bytes after the first. -/
theorem readBytes_succ (m : Memory) (a n : Nat) : m.readBytes a (n + 1) = m.read a :: m.readBytes (a + 1) n := rfl

theorem fetchChunk_eq_ok {s : State} {i : Instr} :
    fetchChunk s = .ok i ↔
      s.rp + i.length ≤ s.srcLen.toNat ∧ s.CanRead (s.srcBase.toNat + s.rp) i.length ∧ i.place = .chunk ∧
      decode .chunk (s.mem.readBytes (s.srcBase.toNat + s.rp) i.length) = .instr i [] := by
  simp only [fetchChunk, bind_eq_ok, require_eq_ok, decide_eq_true_eq, loadByte_eq_ok, loadBytes_eq_ok,
    decodeFetched_eq_ok, exists_const]
  constructor
  · rintro ⟨_, t, ⟨h0, rfl⟩, h1, _, ⟨h2, rfl⟩, rest, hd⟩
    obtain ⟨hp, hl, hrest, _⟩ := decodeChunk_instr hd
    have hk := ChunkKind.length_pos (classify (s.mem.read (s.srcBase.toNat + s.rp)))
    obtain ⟨n, hn⟩ : ∃ n, i.length = n + 1 := ⟨i.length - 1, by omega⟩
    rw [← hl, hn, Nat.add_sub_cancel] at h2 hd
    rw [hn] at hrest
    refine ⟨by omega, hn ▸ State.CanRead.cons h0 h2, hp, ?_⟩
    rw [hn, readBytes_succ, hd, hrest, Nat.add_sub_cancel, ← hl, hn, List.drop_of_length_le (by simp)]
  · rintro ⟨h1, h2, hp, hd⟩
    cases hn : i.length with
    | zero => rw [hn] at hd; cases hd
    | succ n =>
      rw [hn] at h1 h2 hd
      obtain ⟨_, hl, _, _⟩ := decodeChunk_instr hd
      refine ⟨by omega, _, ⟨h2.head, rfl⟩, by omega, _, ⟨?_, rfl⟩, [], ?_⟩
      · rw [← hl, hn, Nat.add_sub_cancel]; exact h2.tail
      · rw [← hl, hn, Nat.add_sub_cancel]; exact hd

/-- Where a fetch stops: an error of the stream, or one access of the source region. -/
theorem fetch_eq_error {s : State} {e : Stop} (h : fetchHeader s = .error e ∨ fetchChunk s = .error e ∨ fetchMarker s = .error e)
    : (∃ c, e = .raise c) ∨ ∃ a, s.srcBase.toNat ≤ a ∧ a < s.srcBase.toNat + s.srcLen.toNat ∧
      access s.platform a .read = .error e := by
  rcases h with h | h | h
  · simp only [fetchHeader, bind_eq_error, require_eq_error, require_eq_ok, decide_eq_true_eq] at h
    rcases h with ⟨_, rfl⟩ | ⟨_, hl, h | ⟨_, _, h⟩⟩
    · exact .inl ⟨_, rfl⟩
    · obtain ⟨i, hi, h⟩ := loadBytes_eq_error h
      exact .inr ⟨_, by omega, by omega, h⟩
    · obtain ⟨d, _, rfl⟩ := decodeFetched_eq_error h; exact .inl ⟨_, rfl⟩
  · simp only [fetchChunk, bind_eq_error, require_eq_error, require_eq_ok, decide_eq_true_eq, loadByte_eq_error] at h
    rcases h with ⟨_, rfl⟩ | ⟨_, hl, h | ⟨_, _, ⟨_, rfl⟩ | ⟨_, hl, h | ⟨_, _, h⟩⟩⟩⟩
    · exact .inl ⟨_, rfl⟩
    · exact .inr ⟨_, by omega, by omega, h⟩
    · exact .inl ⟨_, rfl⟩
    · obtain ⟨i, hi, h⟩ := loadBytes_eq_error h
      exact .inr ⟨_, by omega, by omega, h⟩
    · obtain ⟨d, _, rfl⟩ := decodeFetched_eq_error h; exact .inl ⟨_, rfl⟩
  · simp only [fetchMarker, bind_eq_error, require_eq_error, require_eq_ok, decide_eq_true_eq] at h
    rcases h with ⟨_, rfl⟩ | ⟨_, hl, h | ⟨_, _, h⟩⟩
    · exact .inl ⟨_, rfl⟩
    · obtain ⟨i, hi, h⟩ := loadBytes_eq_error h
      exact .inr ⟨_, by omega, by omega, h⟩
    · obtain ⟨d, _, rfl⟩ := decodeFetched_eq_error h; exact .inl ⟨_, rfl⟩

/-- A chunk's meaning is the shared step on its pixel, its count and its length (R211). -/
theorem exec_chunk {i : Instr} (h : i.place = .chunk) (s : State) :
    exec i s = settle s (chunkStep s (chunkEffect ⟨s.prev, s.cache⟩ i).1 (chunkEffect ⟨s.prev, s.cache⟩ i).2 i.length) := by
  cases i with
  | rgb => rfl
  | rgba => rfl
  | index => rfl
  | diff => rfl
  | luma => rfl
  | run => rfl
  | _ => cases h

/-! ### The inversion -/

/-- Everything an engine step that answers a next state can have done, with what made it so. In a BODY step the channel
count is legal and PIX has not passed NPIX. -/
inductive EngineNext (s : State) : State → Prop where
  | rest (hp : s.phase = .idle) : EngineNext s s
  | raised (c : ErrCode) (hp : s.phase ≠ .idle) : EngineNext s (s.raise c)
  | beginEncode (hp : s.phase = .check) (hc : s.ctrl.cmd = 0) (hv : s.validateEncode = .ok ()) (hr : s.regionsOk = true) :
      EngineNext s s.beginEncode
  | beginDecode (hp : s.phase = .check) (hc : s.ctrl.cmd = 1) (hr : s.regionsOk = true) :
      EngineNext s { s with op := .dec, phase := .header }
  | toTail (hp : s.phase = .body) (he : s.pix = s.npix) : EngineNext s { s with phase := .tail }
  | encHeader (hp : s.phase = .header) (ho : s.op = .enc) (hd : s.wp + 14 ≤ s.dstCap.toNat)
      (hw : s.CanWrite (s.dstBase.toNat + s.wp) 14) :
      EngineNext s { s with
        mem := s.mem.writeBytes (s.dstBase.toNat + s.wp) (encode (.hdr s.lw s.lh s.lc s.lcs))
        wp := s.wp + 14, phase := .body }
  | encRun (n : Nat) (hp : s.phase = .body) (ho : s.op = .enc) (h1 : 1 ≤ n) (h2 : n ≤ 62) (hn : s.pix + n ≤ s.npix)
      (hq : eqC s.lc (s.pixelAt s.pix) s.prev = true) (hs : runScan s (s.pixelAt s.pix) 61 1 = .ok n)
      (hd : s.wp + 1 ≤ s.dstCap.toNat) (hw : s.CanWrite (s.dstBase.toNat + s.wp) 1) :
      EngineNext s { s with
        mem := s.mem.writeBytes (s.dstBase.toNat + s.wp) (encode (.run n)), wp := s.wp + 1
        cache := update s.lc s.cache (s.pixelAt s.pix), pix := s.pix + n }
  | encPixel (i : Instr) (hp : s.phase = .body) (ho : s.op = .enc) (hn : s.pix + 1 ≤ s.npix)
      (hq : eqC s.lc (s.pixelAt s.pix) s.prev = false) (hi : i = selectChunk s.lc s.prev s.cache (s.pixelAt s.pix))
      (hd : s.wp + i.length ≤ s.dstCap.toNat) (hw : s.CanWrite (s.dstBase.toNat + s.wp) i.length) :
      EngineNext s { s with
        mem := s.mem.writeBytes (s.dstBase.toNat + s.wp) (encode i), wp := s.wp + i.length
        cache := update s.lc s.cache (s.pixelAt s.pix), prev := s.pixelAt s.pix, pix := s.pix + 1 }
  | encTail (hp : s.phase = .tail) (ho : s.op = .enc) (hd : s.wp + 8 ≤ s.dstCap.toNat)
      (hw : s.CanWrite (s.dstBase.toNat + s.wp) 8) :
      EngineNext s ({ s with
        mem := s.mem.writeBytes (s.dstBase.toNat + s.wp) markerBytes, wp := s.wp + 8
        outLen := BitVec.ofNat 32 (s.wp + 8) } : State).complete
  | decHeader (w h : Word) (c cs : Byte) (hp : s.phase = .header) (ho : s.op = .dec) (hl : 14 ≤ s.srcLen.toNat)
      (hr : s.CanRead s.srcBase.toNat 14)
      (hd : decode .header (s.mem.readBytes s.srcBase.toNat 14) = .instr (.hdr w h c cs) [])
      (h1 : c = 3 ∨ c = 4) (h2 : cs = 0 ∨ cs = 1) (h3 : w ≠ 0) (h4 : h ≠ 0)
      (h5 : w.toNat * h.toNat * c.toNat ≤ s.dstCap.toNat) : EngineNext s (s.beginDecode w h c cs)
  | decChunk (i : Instr) (p : Pixel) (n : Nat) (hp : s.phase = .body) (ho : s.op = .dec) (hi : i.place = .chunk)
      (he : chunkEffect ⟨s.prev, s.cache⟩ i = (p, n)) (hl : s.rp + i.length ≤ s.srcLen.toNat)
      (hr : s.CanRead (s.srcBase.toNat + s.rp) i.length)
      (hd : decode .chunk (s.mem.readBytes (s.srcBase.toNat + s.rp) i.length) = .instr i [])
      (hne : s.pix ≠ s.npix) (hn : s.pix + n ≤ s.npix) (hw : s.CanWrite (s.dstPixel s.pix) (n * s.lc.toNat)) :
      EngineNext s { s.afterPixels p n with rp := s.rp + i.length }
  | decTail (hp : s.phase = .tail) (ho : s.op = .dec) (hl : s.srcLen.toNat = s.rp + 8)
      (hr : s.CanRead (s.srcBase.toNat + s.rp) 8)
      (hm : s.mem.readBytes (s.srcBase.toNat + s.rp) 8 = markerBytes) :
      EngineNext s ({ s with rp := s.rp + 8 } : State).reportImage.complete

/-- What no engine step writes: the host's queue and read value, the platform, `CTRL`, the regions (R240, R60). -/
theorem EngineNext.keeps {s t : State} (h : EngineNext s t) :
    t.host = s.host ∧ t.rdata = s.rdata ∧ t.platform = s.platform ∧ t.ctrl = s.ctrl ∧ t.srcBase = s.srcBase ∧
      t.srcLen = s.srcLen ∧ t.dstBase = s.dstBase ∧ t.dstCap = s.dstCap := by
  cases h with
  | raised c _ => unfold State.raise State.loseDestination; split <;> simp [State.setFlags]
  | _ => exact ⟨rfl, rfl, rfl, rfl, rfl, rfl, rfl, rfl⟩

/-- The header's meaning goes through exactly where its checks pass (R142, R210). -/
theorem execHdr_cases {w h : Word} {c cs : Byte} {s t : State} (hx : exec (.hdr w h c cs) s = .next t) :
    (∃ x, t = s.raise x) ∨
    ((c = 3 ∨ c = 4) ∧ (cs = 0 ∨ cs = 1) ∧ w ≠ 0 ∧ h ≠ 0 ∧ w.toNat * h.toNat * c.toNat ≤ s.dstCap.toNat ∧
      t = s.beginDecode w h c cs) := by
  rcases settle_next.1 hx with hx | ⟨x, _, rfl⟩
  · right
    simp only [bind_eq_ok, require_eq_ok, Bool.or_eq_true, Bool.and_eq_true, beq_iff_eq, bne_iff_ne,
      decide_eq_true_eq, pure_eq_ok, Except.ok.injEq, exists_const] at hx
    exact ⟨hx.1, hx.2.1, hx.2.2.1.1, hx.2.2.1.2, hx.2.2.2.1, hx.2.2.2.2.symm⟩
  · exact .inl ⟨x, rfl⟩

/-- A fetched step's next state: an error ending, or the instruction's. -/
theorem runFetched_next {s t : State} {x : Except Stop Instr} (h : runFetched s x = .next t) :
    (∃ c, t = s.raise c) ∨ ∃ i, x = .ok i ∧ exec i s = .next t := by
  rcases x with (c | f) | i
  · cases h; exact .inl ⟨c, rfl⟩
  · cases h
  · exact .inr ⟨i, rfl, h⟩

/-- Everything an engine step can do when it answers a next state. -/
theorem engineStep_next {s t : State} (hc : s.phase = .body → s.lc = 3 ∨ s.lc = 4)
    (hx : s.phase = .body → s.pix ≤ s.npix) (h : engineStep s = .next t) :
    EngineNext s t := by
  cases hp : s.phase with
  | idle => rw [engineStep_idle hp] at h; cases h; exact .rest hp
  | check =>
    rw [engineStep_check hp] at h
    rcases settle_next.1 h with h | ⟨c, _, rfl⟩
    · split at h
      · rename_i h0
        simp only [bind_eq_ok, require_eq_ok, pure_eq_ok, Except.ok.injEq, exists_const] at h
        obtain ⟨_, hv, hr, rfl⟩ := h
        exact .beginEncode hp h0 hv hr
      · split at h
        · rename_i h1
          simp only [bind_eq_ok, require_eq_ok, pure_eq_ok, Except.ok.injEq, exists_const] at h
          obtain ⟨hr, rfl⟩ := h
          exact .beginDecode hp h1 hr
        · cases h
    · exact .raised c (by rw [hp]; decide)
  | header =>
    cases ho : s.op with
    | enc =>
      rw [engineStep_encHeader hp ho] at h
      rcases settle_next.1 h with h | ⟨c, _, rfl⟩
      · simp only [Machine.encHeader, bind_eq_ok, emit_eq_ok, pure_eq_ok, Except.ok.injEq, encode_length] at h
        obtain ⟨_, ⟨hd, hw, rfl⟩, rfl⟩ := h
        exact .encHeader hp ho hd hw
      · exact .raised c (by rw [hp]; decide)
    | dec =>
      rw [engineStep_decHeader hp ho] at h
      rcases runFetched_next h with ⟨c, rfl⟩ | ⟨i, hf, h⟩
      · exact .raised c (by rw [hp]; decide)
      · obtain ⟨hl, hr, w, ht, c, cs, rfl, hd⟩ := fetchHeader_eq_ok.1 hf
        rcases execHdr_cases h with ⟨c, rfl⟩ | ⟨h1, h2, h3, h4, h5, rfl⟩
        · exact .raised c (by rw [hp]; decide)
        · exact .decHeader w ht c cs hp ho hl hr hd h1 h2 h3 h4 h5
  | body =>
    cases ho : s.op with
    | enc =>
      rw [engineStep_encBody hp ho] at h
      rcases settle_next.1 h with h | ⟨c, _, rfl⟩
      · unfold encBody at h
        split at h
        · rename_i he; cases h; exact .toTail hp he
        · rename_i hne
          obtain ⟨p, hl, h⟩ := bind_eq_ok.1 h
          obtain ⟨_, rfl⟩ := (loadPixel_eq_ok (hc hp)).1 hl
          split at h
          · rename_i hq
            simp only [Machine.encRun, bind_eq_ok, emit_eq_ok, pure_eq_ok, Except.ok.injEq, encode_length] at h
            obtain ⟨n, hs, _, ⟨hd, hw, rfl⟩, rfl⟩ := h
            obtain ⟨h1, h2, h3, _⟩ := runScan_spec (hc hp) hs
            have := hx hp
            exact .encRun n hp ho h1 h2 (h3 (by omega)) hq hs hd hw
          · rename_i hq
            simp only [Machine.encPixel, bind_eq_ok, emit_eq_ok, pure_eq_ok, Except.ok.injEq, encode_length] at h
            obtain ⟨_, ⟨hd, hw, rfl⟩, rfl⟩ := h
            have := hx hp
            exact .encPixel _ hp ho (by omega) (by simpa using hq) rfl hd hw
      · exact .raised c (by rw [hp]; decide)
    | dec =>
      rw [engineStep_decBody hp ho] at h
      split at h
      · rename_i he; cases h; exact .toTail hp he
      · rename_i hne
        rcases runFetched_next h with ⟨c, rfl⟩ | ⟨i, hf, h⟩
        · exact .raised c (by rw [hp]; decide)
        · obtain ⟨hl, hr, hi, hd⟩ := fetchChunk_eq_ok.1 hf
          rw [exec_chunk hi] at h
          rcases settle_next.1 h with h | ⟨c, _, rfl⟩
          · obtain ⟨hn, hw, rfl⟩ := (chunkStep_eq_ok (hc hp)).1 h
            exact .decChunk i _ _ hp ho hi rfl hl hr hd hne hn hw
          · exact .raised c (by rw [hp]; decide)
  | tail =>
    cases ho : s.op with
    | enc =>
      rw [engineStep_encTail hp ho] at h
      rcases settle_next.1 h with h | ⟨c, _, rfl⟩
      · simp only [Machine.encTail, bind_eq_ok, emit_eq_ok, pure_eq_ok, Except.ok.injEq, encode_length] at h
        obtain ⟨_, ⟨hd, hw, rfl⟩, rfl⟩ := h
        exact .encTail hp ho hd hw
      · exact .raised c (by rw [hp]; decide)
    | dec =>
      rw [engineStep_decTail hp ho] at h
      rcases runFetched_next h with ⟨c, rfl⟩ | ⟨i, hf, h⟩
      · exact .raised c (by rw [hp]; decide)
      · obtain ⟨hl, hr, rfl, hm⟩ := fetchMarker_eq_ok.1 hf
        cases h
        exact .decTail hp ho hl hr hm

/-! ### Runs -/

/-- A run's first step, where it answers a next state. -/
theorem run_of_next {k : Nat} {s u : State} (h : step s = .next u) : core.run (k + 1) s = core.run k u := by
  have e := Host.Core.run.eq_2 core s k
  have h' : core.step s = .next u := h
  rw [h'] at e
  exact e

/-- A run that answers a next state goes through one at its first step. -/
theorem run_succ_next {k : Nat} {s t : State} (h : core.run (k + 1) s = .next t) :
    ∃ u, step s = .next u ∧ core.run k u = .next t := by
  have e := Host.Core.run.eq_2 core s k
  cases hs : step s with
  | next u => exact ⟨u, rfl, (run_of_next hs).symm.trans h⟩
  | fault f =>
    have h' : core.step s = .fault f := hs
    rw [h'] at e
    cases e.symm.trans h
  | refused r =>
    have h' : core.step s = .refused r := hs
    rw [h'] at e
    cases e.symm.trans h

end Sys2Proof.Machine
end

