-- ==== Sys2Proof/Tests/Slice0.lean ====
section
/-! SUPPORT. The model's own tests. Words are written out from the layouts of 30_encoding.md; expected results are those of
95_test_vectors.md, which derives them from the rules. The theorems named witness_ show states and operands that meet the
hypotheses of a statement. -/

namespace Sys2Proof.Tests

open Sys2Proof.Machine

/-! ### Well-formedness: an ill-formed term for each check, and the bounds -/

theorem test_wf_diff_refused :
    (Instr.diff (-3) 0 0).wf = false ∧ (Instr.diff 2 0 0).wf = false ∧ (Instr.diff 0 (-3) 0).wf = false ∧
    (Instr.diff 0 2 0).wf = false ∧ (Instr.diff 0 0 (-3)).wf = false ∧ (Instr.diff 0 0 2).wf = false := by decide

theorem test_wf_luma_refused :
    (Instr.luma (-33) 0 0).wf = false ∧ (Instr.luma 32 0 0).wf = false ∧ (Instr.luma 0 (-9) 0).wf = false ∧
    (Instr.luma 0 8 0).wf = false ∧ (Instr.luma 0 0 (-9)).wf = false ∧ (Instr.luma 0 0 8).wf = false := by decide

theorem test_wf_run_refused : (Instr.run 0).wf = false ∧ (Instr.run 63).wf = false := by decide

theorem test_wf_hdr_refused :
    (Instr.hdr 0 1 3 0).wf = false ∧ (Instr.hdr 1 0 3 0).wf = false ∧ (Instr.hdr 1 1 2 0).wf = false ∧
    (Instr.hdr 1 1 5 0).wf = false ∧ (Instr.hdr 1 1 3 2).wf = false := by decide

theorem test_wf_reserved_refused : (Instr.reservedCmd 0 true).wf = false ∧ (Instr.reservedCmd 1 false).wf = false := by
  decide

/-- Also the witness of DecodeOfEncodeIsInstruction: every operand at a bound of its range. -/
theorem witness_decode_of_encode :
    (Instr.rgb 0 255 0).wf = true ∧ (Instr.rgba 0 255 0 255).wf = true ∧ (Instr.index 0).wf = true ∧
    (Instr.index 63).wf = true ∧ (Instr.diff (-2) 1 (-2)).wf = true ∧ (Instr.luma (-32) 7 (-8)).wf = true ∧
    (Instr.luma 31 (-8) 7).wf = true ∧ (Instr.run 1).wf = true ∧ (Instr.run 62).wf = true ∧
    (Instr.hdr 0xFFFFFFFF 1 4 1).wf = true ∧ Instr.endMarker.wf = true ∧ (Instr.encodeCmd true).wf = true ∧
    (Instr.decodeCmd false).wf = true ∧ (Instr.reservedCmd 2 true).wf = true ∧ (Instr.reservedCmd 3 false).wf = true := by
  decide

/-! ### Decoding: words written bit by bit from R81 to R90 -/

theorem test_decode_rgb :
    decode .chunk [0b11111110, 0b01100100, 0b00000000, 0b00000000, 0x77] = .instr (.rgb 100 0 0) [0x77] := by decide

theorem test_decode_rgba :
    decode .chunk [0b11111111, 0b01100100, 0b00000000, 0b00000001, 0b10000000] = .instr (.rgba 100 0 1 128) [] := by decide

theorem test_decode_index : decode .chunk [0b00110101] = .instr (.index 53) [] := by decide

theorem test_decode_diff : decode .chunk [0b01001101] = .instr (.diff (-2) 1 (-1)) [] := by decide

theorem test_decode_luma : decode .chunk [0b10110010, 0b01101010] = .instr (.luma 18 (-2) 2) [] := by decide

theorem test_decode_run : decode .chunk [0b11000111] = .instr (.run 8) [] := by decide

theorem test_decode_hdr :
    decode .header [0x71, 0x6F, 0x69, 0x66, 0, 0, 0b00000001, 0, 0, 0, 0, 0b10000000, 0b00000100, 0b00000001] =
      .instr (.hdr 256 128 4 1) [] := by decide

theorem test_decode_endMarker : decode .tail [0, 0, 0, 0, 0, 0, 0, 0b00000001] = .instr .endMarker [] := by decide

theorem test_decode_commands :
    decode .ctrl [0b00001001, 0, 0, 0] = .instr (.encodeCmd true) [] ∧
    decode .ctrl [0b00000001, 0, 0, 0] = .instr (.encodeCmd false) [] ∧
    decode .ctrl [0b00000011, 0, 0, 0] = .instr (.decodeCmd false) [] ∧
    decode .ctrl [0b00001011, 0xFF, 0xFF, 0xFF] = .instr (.decodeCmd true) [] ∧
    decode .ctrl [0b00000101, 0, 0, 0] = .instr (.reservedCmd 2 false) [] ∧
    decode .ctrl [0b11111111, 0, 0, 0] = .instr (.reservedCmd 3 true) [] := by decide

theorem test_decode_rejects :
    decode .chunk [] = .reject .truncated ∧ decode .chunk [0xFE, 1, 2] = .reject .truncated ∧
    decode .chunk [0xFF, 1, 2, 3] = .reject .truncated ∧ decode .chunk [0xAA] = .reject .truncated ∧
    decode .header [0x71, 0x6F, 0x69, 0x67, 0, 0, 0, 2, 0, 0, 0, 1, 3, 0] = .reject .badMagic ∧
    decode .header [0x71, 0x6F, 0x69, 0x66, 0, 0, 0, 2, 0, 0, 0, 1, 3] = .reject .truncated ∧
    decode .tail [0, 0, 0, 0, 0, 0, 0, 2] = .reject .badMarker ∧ decode .tail [0, 0, 0, 0, 0, 0, 0] = .reject .badMarker ∧
    decode .ctrl [8, 0, 0, 0] = .reject .noStart := by decide

/-- The serializations of 95_test_vectors.md L2.4 and L1.1. -/
theorem test_encode :
    encode (.diff 1 0 0) = [0x7A] ∧ encode (.diff 1 1 0) = [0x7E] ∧ encode (.luma 10 0 0) = [0xAA, 0x88] ∧
    encode (.luma (-6) 0 0) = [0x9A, 0x88] ∧ encode (.run 1) = [0xC0] ∧ encode (.run 62) = [0xFD] ∧
    encode (.index 53) = [0x35] ∧
    encode (.hdr 2 1 3 1) = [0x71, 0x6F, 0x69, 0x66, 0, 0, 0, 2, 0, 0, 0, 1, 3, 1] := by decide

/-- Table words: bit 0 is the least significant bit of the first byte. -/
theorem test_decodeTableWord :
    decodeTableWord 32 0x000064FE = some (.rgb 100 0 0) ∧ decodeTableWord 8 0x35 = some (.index 53) ∧
    decodeTableWord 16 0x6AB2 = some (.luma 18 (-2) 2) ∧ decodeTableWord 64 0x0100000000000000 = some .endMarker ∧
    decodeTableWord 112 0x0004800000000001000066696F71 = some (.hdr 256 128 4 0) ∧
    decodeTableWord 32 0x9 = some (.encodeCmd true) ∧ decodeTableWord 64 0 = none := by decide

/-! ### One step on a small state -/

/-- The next state of an outcome. -/
def nextOf : Outcome → Option State
  | .next t => some t
  | .fault _ => none
  | .refused _ => none

/-- A decode in BODY at its first chunk: the stream's chunks at 0x100E, the destination at 0x3000, 62 by 1 pixels. -/
def bodyAt (c : Byte) (prev : Pixel) (chunks : List Byte) : State :=
  { State.reset with
    ctrl := ⟨1, true⟩, status := Status.running, srcBase := 0x1000, srcLen := BitVec.ofNat 32 (14 + chunks.length)
    dstBase := 0x3000, dstCap := 0x100, lw := 62, lh := 1, lc := c, prev := prev, rp := 14, phase := .body, op := .dec
    mem := Memory.empty.writeBytes 0x100E chunks }

/-- What a chunk leaves: `PREV`, `PIX`, `RP` and the first bytes of the destination. -/
def chunkLeaves (s : State) (n : Nat) : Option (Pixel × Nat × Nat × List Byte) :=
  (nextOf (step s)).map fun t => (t.prev, t.pix, t.rp, t.mem.readBytes 0x3000 n)

theorem test_rgb_keeps_alpha :
    chunkLeaves (bodyAt 4 ⟨0, 0, 0, 255⟩ [0xFE, 0x64, 0, 0]) 4 = some (⟨100, 0, 0, 255⟩, 1, 18, [100, 0, 0, 255]) := by decide

theorem test_rgba_four_lanes :
    chunkLeaves (bodyAt 4 ⟨9, 9, 9, 9⟩ [0xFF, 0x64, 0, 0, 0x80]) 4 =
      some (⟨100, 0, 0, 128⟩, 1, 19, [100, 0, 0, 128]) := by decide

/-- With three channels the alpha byte is not written: the fourth byte is still the unwritten one. -/
theorem test_rgba_three_channels :
    (nextOf (step (bodyAt 3 ⟨0, 0, 0, 255⟩ [0xFF, 1, 2, 3, 4]))).map (fun t => (t.rp, t.mem.readBytes 0x3000 4)) =
      some (19, [1, 2, 3, Config.unlistedByte]) := by decide

theorem test_index_slot :
    chunkLeaves { bodyAt 4 ⟨1, 2, 3, 4⟩ [0x35] with cache := Cache.fresh.set 53 ⟨0, 0, 0, 255⟩ } 4 =
      some (⟨0, 0, 0, 255⟩, 1, 15, [0, 0, 0, 255]) := by decide

theorem test_index_fresh_slot :
    chunkLeaves (bodyAt 4 ⟨1, 2, 3, 255⟩ [0x05]) 4 = some (⟨0, 0, 0, 0⟩, 1, 15, [0, 0, 0, 0]) := by decide

theorem test_diff_biases :
    chunkLeaves (bodyAt 3 ⟨10, 10, 10, 255⟩ [0x4D]) 3 = some (⟨8, 11, 9, 255⟩, 1, 15, [8, 11, 9]) := by decide

theorem test_diff_wraps :
    chunkLeaves (bodyAt 3 ⟨0, 0, 0, 255⟩ [0x40]) 3 = some (⟨254, 254, 254, 255⟩, 1, 15, [254, 254, 254]) := by decide

theorem test_luma_wraps_up :
    chunkLeaves (bodyAt 3 ⟨250, 250, 250, 255⟩ [0xB2, 0x6A]) 3 = some (⟨10, 12, 14, 255⟩, 1, 16, [10, 12, 14]) := by decide

theorem test_luma_wraps_down :
    chunkLeaves (bodyAt 3 ⟨0, 0, 0, 255⟩ [0x80, 0x00]) 3 = some (⟨216, 224, 216, 255⟩, 1, 16, [216, 224, 216]) := by decide

theorem test_run_copies :
    chunkLeaves (bodyAt 3 ⟨7, 8, 9, 255⟩ [0xC1]) 7 =
      some (⟨7, 8, 9, 255⟩, 2, 15, [7, 8, 9, 7, 8, 9, Config.unlistedByte]) := by decide

/-- A run of the whole 62-pixel image, and its cache slot (R170, R212). -/
theorem test_run_longest :
    (nextOf (step (bodyAt 3 ⟨10, 10, 10, 255⟩ [0xFD]))).map (fun t => (t.pix, slot t.cache 22)) =
      some (62, ⟨10, 10, 10, 255⟩) := by decide

/-- A run that passes the image raises PIXEL_COUNT_MISMATCH; the host reads the registers of L2.7. -/
theorem test_run_overshoots :
    (nextOf (step { bodyAt 3 ⟨7, 8, 9, 255⟩ [0xC1] with lw := 1 })).map
      (fun t => (t.status, t.errcode, t.irq, t.phase, t.pix, t.rp)) =
      some (⟨false, false, true⟩, 7, true, .idle, 0, 14) := by decide

theorem test_chunk_truncated :
    (nextOf (step (bodyAt 3 ⟨0, 0, 0, 255⟩ [0xAA]))).map (fun t => (t.status.err, t.errcode)) = some (true, 5) ∧
    (nextOf (step (bodyAt 3 ⟨0, 0, 0, 255⟩ []))).map (fun t => (t.status.err, t.errcode)) = some (true, 5) := by decide

/-- A decode in HEADER, the stream's bytes at 0x1000. -/
def headerAt (dstCap : Word) (stream : List Byte) : State :=
  { State.reset with
    ctrl := ⟨1, false⟩, status := Status.running, srcBase := 0x1000, srcLen := BitVec.ofNat 32 stream.length
    dstBase := 0x100000, dstCap := dstCap, phase := .header, op := .dec, mem := Memory.empty.writeBytes 0x1000 stream }

/-- The header of L2.3, `HDR 256, 128, 4, 0`. -/
def bigHeader : List Byte := [0x71, 0x6F, 0x69, 0x66, 0, 0, 1, 0, 0, 0, 0, 0x80, 4, 0]

theorem test_hdr_fields :
    (nextOf (step (headerAt 131072 bigHeader))).map (fun t => (t.lw, t.lh, t.lc, t.lcs)) = some (256, 128, 4, 0) ∧
    (nextOf (step (headerAt 131072 bigHeader))).map (fun t => (t.rp, t.prev, t.pix, t.phase)) =
      some (14, ⟨0, 0, 0, 255⟩, 0, .body) := by decide

theorem test_hdr_errors :
    (nextOf (step (headerAt 131071 bigHeader))).map (·.errcode) = some 13 ∧
    (nextOf (step (headerAt 6 (bigHeader.set 12 5)))).map (·.errcode) = some 2 ∧
    (nextOf (step (headerAt 6 (bigHeader.set 13 2)))).map (·.errcode) = some 3 ∧
    (nextOf (step (headerAt 6 (bigHeader.set 6 0)))).map (·.errcode) = some 4 ∧
    (nextOf (step (headerAt 6 ((bigHeader.set 0 0).set 12 5)))).map (·.errcode) = some 1 ∧
    (nextOf (step (headerAt 6 (bigHeader.take 13)))).map (·.errcode) = some 5 := by decide

/-- A decode in TAIL of P1's 2 by 1 image, the bytes after its last chunk at 0x1011. -/
def tailAt (left : List Byte) : State :=
  { State.reset with
    ctrl := ⟨1, true⟩, status := Status.running, srcBase := 0x1000, srcLen := BitVec.ofNat 32 (17 + left.length)
    dstBase := 0x3000, dstCap := 6, lw := 2, lh := 1, lc := 3, pix := 2, rp := 17, phase := .tail, op := .dec
    mem := Memory.empty.writeBytes 0x1011 left }

theorem test_end_completes :
    (nextOf (step (tailAt [0, 0, 0, 0, 0, 0, 0, 1]))).map (fun t => (t.status, t.outLen, t.irq, t.rp)) =
      some (⟨false, true, false⟩, 6, true, 25) ∧
    (nextOf (step (tailAt [0, 0, 0, 0, 0, 0, 0, 1]))).map (fun t => (t.imgWidth, t.imgHeight, t.imgFormat)) =
      some (2, 1, ⟨3, 0⟩) := by decide

theorem test_end_errors :
    (nextOf (step (tailAt []))).map (·.errcode) = some 6 ∧
    (nextOf (step (tailAt [0, 0, 0, 0, 0, 0, 0]))).map (·.errcode) = some 6 ∧
    (nextOf (step (tailAt [0, 0, 0, 0, 0, 0, 0, 1, 0]))).map (·.errcode) = some 6 ∧
    (nextOf (step (tailAt [0, 0, 0, 0, 0, 0, 0, 2]))).map (·.errcode) = some 6 := by decide

/-- P1's registers, with a host move next (L3.1): 2 by 1 pixels, RGB, source 0x1000 (6 bytes), destination 0x2000. -/
def hosted (moves : List HostMove) : State :=
  { State.reset with
    imgWidth := 2, imgHeight := 1, imgFormat := ⟨3, 0⟩, srcBase := 0x1000, srcLen := 6, dstBase := 0x2000, dstCap := 0x40
    mem := Memory.empty.writeBytes 0x1000 [10, 10, 10, 8, 11, 9], host := moves }

/-- The same while its operation runs. -/
def busyHosted (moves : List HostMove) : State :=
  { hosted moves with status := Status.running, phase := .check }

theorem test_encode_command :
    (nextOf (step (hosted [.regWrite 0 4 0x9]))).map (fun t => (t.ctrl, t.status, t.errcode, t.phase, t.host)) =
      some (⟨0, true⟩, ⟨true, false, false⟩, 0, .check, []) := by decide

theorem test_decode_command :
    (nextOf (step { hosted [.regWrite 0 4 0xB] with status := ⟨false, false, true⟩, errcode := 6 })).map
      (fun t => (t.ctrl, t.status, t.errcode, t.phase)) = some (⟨1, true⟩, ⟨true, false, false⟩, 0, .check) := by decide

/-- A reserved command starts, and its CHECK step raises ILLEGAL_COMMAND (L2.6). -/
theorem test_reserved_command :
    (nextOf (step (hosted [.regWrite 0 4 0x5]))).map (fun t => (t.ctrl, t.status.busy, t.phase)) =
      some (⟨2, false⟩, true, .check) ∧
    (nextOf (step { busyHosted [] with ctrl := ⟨2, false⟩ })).map (fun t => (t.status, t.errcode)) =
      some (⟨false, false, true⟩, 14) := by decide

/-- A write while BUSY = 1 is ignored (L2.7). -/
theorem test_writes_while_busy :
    (nextOf (step (busyHosted [.regWrite 0x1C 4 0x1234]))).map (fun t => (t.srcLen, t.phase)) = some (6, .check) ∧
    (nextOf (step (busyHosted [.regWrite 0 4 0x3]))).map (fun t => (t.ctrl, t.phase)) = some (⟨0, false⟩, .check) := by decide

theorem test_register_values :
    (nextOf (step { hosted [.regRead 0 4] with ctrl := ⟨0, true⟩ })).map (·.rdata) = some 8 ∧
    (nextOf (step (hosted [.regWrite 0x14 4 0xFFFFFFFF]))).map (·.readReg .imgFormat) = some 0xFFFF ∧
    (nextOf (step { hosted [.regRead 0x04 4] with status := ⟨false, false, true⟩ })).map (·.rdata) = some 4 := by decide

theorem test_write_one_to_clear :
    (nextOf (step { hosted [.regWrite 4 4 4] with
        ctrl := ⟨1, true⟩, status := ⟨false, false, true⟩, errcode := 1, irq := true })).map
      (fun t => (t.status, t.irq, t.errcode)) = some (⟨false, false, false⟩, false, 1) := by decide

/-- CHECK: P1 begins its encode; a START right after reset fails with VAL_CHANNELS (L2.8). -/
theorem test_check :
    (nextOf (step (busyHosted []))).map (fun t => (t.lw, t.lh, t.lc, t.prev, t.wp, t.phase)) =
      some (2, 1, 3, ⟨0, 0, 0, 255⟩, 0, .header) ∧
    (nextOf (step { State.reset with status := Status.running, phase := .check })).map (·.errcode) = some 10 := by decide

/-- Overlapping regions fail, adjacent regions run (L2.6). -/
theorem test_regions :
    (nextOf (step { busyHosted [] with dstBase := 0x1005 })).map (·.errcode) = some 15 ∧
    (nextOf (step { busyHosted [] with dstBase := 0x1006 })).map (·.phase) = some .header := by decide

/-- An encode in BODY at pixel 0, the pixels at 0x1000, `wp` bytes written. -/
def encodeAt (c : Byte) (w : Word) (cap : Word) (prev : Pixel) (pixels : List Byte) : State :=
  { State.reset with
    ctrl := ⟨0, true⟩, status := Status.running, imgWidth := w, imgHeight := 1, imgFormat := ⟨c, 0⟩
    srcBase := 0x1000, srcLen := BitVec.ofNat 32 (w.toNat * c.toNat), dstBase := 0x2000, dstCap := cap
    lw := w, lh := 1, lc := c, prev := prev, wp := 14, phase := .body, op := .enc
    mem := Memory.empty.writeBytes 0x1000 pixels }

/-- What a BODY step of an encode emits: `WP`, `PIX`, and the bytes from the destination's byte 14 on. -/
def emits (s : State) (n : Nat) : Option (Nat × Nat × List Byte) :=
  (nextOf (step s)).map fun t => (t.wp, t.pix, t.mem.readBytes 0x200E n)

theorem test_encoder_luma : emits (encodeAt 3 2 0x40 Pixel.seed [10, 10, 10, 8, 11, 9]) 2 = some (16, 1, [0xAA, 0x88]) := by
  decide

theorem test_encoder_diff : emits (encodeAt 3 1 0x40 ⟨10, 10, 10, 255⟩ [8, 11, 9]) 1 = some (15, 1, [0x4D]) := by decide

/-- INDEX comes before DIFF (L1.5). -/
theorem test_encoder_index_first : emits (encodeAt 3 1 0x40 ⟨1, 0, 0, 255⟩ [0, 0, 0]) 1 = some (15, 1, [0x00]) := by decide

theorem test_encoder_run : emits (encodeAt 3 3 0x40 Pixel.seed [0, 0, 0, 0, 0, 0, 1, 0, 0]) 1 = some (15, 2, [0xC1]) := by
  decide

theorem test_encoder_raw :
    emits (encodeAt 4 1 0x40 Pixel.seed [1, 2, 3, 4]) 5 = some (19, 1, [0xFF, 1, 2, 3, 4]) ∧
    emits (encodeAt 4 1 0x40 Pixel.seed [100, 0, 0, 255]) 4 = some (18, 1, [0xFE, 100, 0, 0]) := by decide

theorem test_hash :
    indexOf 3 ⟨10, 10, 10, 255⟩ = 22 ∧ indexOf 3 ⟨255, 255, 255, 255⟩ = 49 ∧ indexOf 4 ⟨255, 255, 255, 255⟩ = 38 ∧
    indexOf 4 ⟨100, 0, 0, 128⟩ = 44 ∧ indexOf 4 ⟨0, 0, 0, 255⟩ = 53 := by decide

theorem test_wd : wd 0 255 = 1 ∧ wd 127 0 = 127 ∧ wd 129 0 = -127 ∧ wd 0 129 = 127 ∧ wd 100 200 = -100 := by decide

/-- The first step after reset runs a placed word. -/
theorem test_withFetchWord :
    (nextOf (step (State.reset.withFetchWord 32 0x000064FE))).map (fun t => (t.prev, t.rp)) =
      some (⟨100, 0, 0, 0⟩, 18) ∧
    (nextOf (step (State.reset.withFetchWord 112 0x0003010000000200000066696F71))).map (fun t => (t.lw, t.lh, t.phase)) =
      some (2, 1, .body) ∧
    (nextOf (step (State.reset.withFetchWord 32 0xB))).map (fun t => (t.ctrl, t.phase)) = some (⟨1, true⟩, .check) := by
  decide

/-! ### Witnesses: encoding and pure functions -/

theorem witness_encode_of_decode :
    Place.chunk ≠ .ctrl ∧ decode .chunk [0xBF, 0xFF, 1] = .instr (.luma 31 7 7) [1] ∧
    Place.tail ≠ .ctrl ∧ decode .tail [0, 0, 0, 0, 0, 0, 0, 1, 9] = .instr .endMarker [9] ∧
    Place.header ≠ .ctrl ∧ decode .header bigHeader = .instr (.hdr 256 128 4 0) [] := by decide

/-- The longest chunk with no byte too many, the shortest with none behind it. -/
theorem witness_tag_selects :
    (classify 0xFF).length ≤ [1, 2, 3, 4].length + 1 ∧ (classify 0x00).length ≤ ([] : List Byte).length + 1 := by decide

theorem witness_opcode_map :
    ((0x00 : Byte).toNat ≤ 0x3F ∧ (0x3F : Byte).toNat ≤ 0x3F) ∧
    (0x40 ≤ (0x40 : Byte).toNat ∧ (0x40 : Byte).toNat ≤ 0x7F ∧ 0x40 ≤ (0x7F : Byte).toNat ∧ (0x7F : Byte).toNat ≤ 0x7F) ∧
    (0x80 ≤ (0x80 : Byte).toNat ∧ (0x80 : Byte).toNat ≤ 0xBF ∧ 0x80 ≤ (0xBF : Byte).toNat ∧ (0xBF : Byte).toNat ≤ 0xBF) ∧
    (0xC0 ≤ (0xC0 : Byte).toNat ∧ (0xC0 : Byte).toNat ≤ 0xFD ∧ 0xC0 ≤ (0xFD : Byte).toNat ∧ (0xFD : Byte).toNat ≤ 0xFD) ∧
    (0xFE : Byte).toNat = 0xFE ∧ (0xFF : Byte).toNat = 0xFF := by decide

theorem witness_biased_fields :
    ((0x40 : Byte).toNat / 64 = 1 ∧ (0x7F : Byte).toNat / 64 = 1) ∧
    ((0x80 : Byte).toNat / 64 = 2 ∧ (0xBF : Byte).toNat / 64 = 2) ∧
    ((0xC0 : Byte).toNat / 64 = 3 ∧ (0xC0 : Byte).toNat % 64 < 62 ∧ (0xFD : Byte).toNat / 64 = 3 ∧
      (0xFD : Byte).toNat % 64 < 62) ∧
    decode .chunk [0x40] = .instr (.diff (-2) (-2) (-2)) [] ∧ decode .chunk [0x7F] = .instr (.diff 1 1 1) [] ∧
    decode .chunk [0x80, 0x0F] = .instr (.luma (-32) (-8) 7) [] ∧
    decode .chunk [0xBF, 0xF0] = .instr (.luma 31 7 (-8)) [] ∧ decode .chunk [0xFD] = .instr (.run 62) [] := by decide

/-- The bounds of SerializedBytes' operands, with the bytes of L2.1 and L2.4. -/
theorem witness_serialized_bytes :
    ((-2 : Int) ≤ -2 ∧ (-2 : Int) ≤ 1 ∧ (1 : Int) ≤ 1 ∧ encode (.diff (-2) 1 (-2)) = [0x4C]) ∧
    ((-32 : Int) ≤ -32 ∧ (-32 : Int) ≤ 31 ∧ (-8 : Int) ≤ -8 ∧ (7 : Int) ≤ 7 ∧
      encode (.luma (-32) (-8) 7) = [0x80, 0x0F] ∧ encode (.luma 31 7 (-8)) = [0xBF, 0xF0]) ∧
    (1 ≤ 1 ∧ 1 ≤ 62 ∧ encode (.run 7) = [0xC6]) := by decide

theorem witness_deltas_rebuild :
    diffOk 3 ⟨0, 3, 0, 0⟩ ⟨2, 2, 2, 0⟩ = true ∧ diffOk 4 ⟨1, 0, 0, 255⟩ ⟨0, 0, 0, 255⟩ = true ∧
    lumaOk 3 ⟨60, 68, 75, 0⟩ ⟨100, 100, 100, 0⟩ = true ∧ lumaOk 3 ⟨138, 131, 123, 0⟩ ⟨100, 100, 100, 0⟩ = true := by decide

/-- Both readings of the boundary difference. -/
theorem witness_boundary_delta :
    (wd 128 0 = -128 ∧ ((128 : Int) = wd 128 0 ∨ (wd 128 0 = -128 ∧ (128 : Int) = 128))) ∧
    ((-128 : Int) = wd 128 0 ∨ (wd 128 0 = -128 ∧ (-128 : Int) = 128)) ∧
    diffOk 3 ⟨128, 128, 128, 0⟩ ⟨0, 0, 0, 0⟩ = false ∧ lumaOk 3 ⟨128, 128, 128, 0⟩ ⟨0, 0, 0, 0⟩ = false := by decide

theorem witness_update_same : slot Cache.fresh (indexOf 3 ⟨0, 0, 0, 0⟩) = ⟨0, 0, 0, 0⟩ := by decide

/-- Two pixels of different slots; and two of one slot, where the newer wins (L2.2). -/
theorem witness_lookup :
    indexOf 3 ⟨1, 0, 0, 0⟩ ≠ indexOf 3 ⟨64, 0, 0, 0⟩ ∧
    lookup 3 (update 3 Cache.fresh ⟨64, 0, 0, 0⟩) ⟨0, 0, 0, 0⟩ = none ∧
    lookup 3 Cache.fresh ⟨0, 0, 0, 0⟩ = some 0 ∧ lookup 4 Cache.fresh ⟨0, 0, 0, 255⟩ = none := by decide

/-! ### Witnesses: states -/

theorem canRead_of {s : State} {a n : Nat}
    (h : ∀ i, i < n → a + i < Config.addressEnd ∧ s.platform.memOk (a + i) .read = true) : s.CanRead a n := h

theorem canWrite_of {s : State} {a n : Nat}
    (h : ∀ i, i < n → a + i < Config.addressEnd ∧ s.platform.memOk (a + i) .write = true) : s.CanWrite a n := h

/-- An outcome with a next state answers one. -/
theorem answers_next : ∀ {o : Outcome}, (nextOf o).isSome = true → ∃ t, o = .next t
  | .next t, _ => ⟨t, rfl⟩

/-- A platform that refuses one byte. -/
def denying (a : Nat) (k : AccessKind) : Platform := ⟨0, [⟨a, a + 1, k⟩]⟩

/-- A decode whose one-pixel image has its last pixel to come. -/
def lastPixel (c : Byte) : State := { bodyAt c ⟨10, 10, 10, 255⟩ [0x4D] with lw := 1, dstCap := 4 }

/-- Of the five one-pixel results: at the image's last pixel, with both channel counts. -/
theorem witness_pixel_result :
    ((lastPixel 3).lc = 3 ∧ (lastPixel 3).pix + 1 ≤ (lastPixel 3).npix ∧
      (lastPixel 3).CanWrite ((lastPixel 3).dstPixel (lastPixel 3).pix) (lastPixel 3).lc.toNat) ∧
    ((lastPixel 4).lc = 4 ∧ (lastPixel 4).pix + 1 ≤ (lastPixel 4).npix ∧
      (lastPixel 4).CanWrite ((lastPixel 4).dstPixel (lastPixel 4).pix) (lastPixel 4).lc.toNat) :=
  ⟨⟨by decide, by decide, canWrite_of (by decide)⟩, ⟨by decide, by decide, canWrite_of (by decide)⟩⟩

/-- Of DIFF and LUMA also the pixel. -/
theorem witness_delta_pixel :
    diffPixel ⟨10, 10, 10, 255⟩ (-2) 1 (-1) = ⟨add8 10 (-2), add8 10 1, add8 10 (-1), 255⟩ ∧
    lumaPixel ⟨250, 250, 250, 255⟩ 18 (-2) 2 = ⟨add8 250 (18 + -2), add8 250 18, add8 250 (18 + 2), 255⟩ := by decide

theorem witness_run_result :
    1 ≤ 62 ∧ (bodyAt 3 ⟨10, 10, 10, 255⟩ [0xFD]).lc = 3 ∧
    (bodyAt 3 ⟨10, 10, 10, 255⟩ [0xFD]).pix + 62 ≤ (bodyAt 3 ⟨10, 10, 10, 255⟩ [0xFD]).npix ∧
    (bodyAt 3 ⟨10, 10, 10, 255⟩ [0xFD]).CanWrite
      ((bodyAt 3 ⟨10, 10, 10, 255⟩ [0xFD]).dstPixel 0) (62 * (bodyAt 3 ⟨10, 10, 10, 255⟩ [0xFD]).lc.toNat) :=
  ⟨by decide, by decide, by decide, canWrite_of fun i h => ⟨by
    have : i < 186 := h
    show 0x3000 + 0 * 3 + i < 4294967296
    omega, rfl⟩⟩

/-- One pixel too many; just enough; the second pixel's byte refused. -/
theorem witness_pixels_emitted :
    (lastPixel 3).npix < (lastPixel 3).pix + 2 ∧
    ((lastPixel 3).pix + 1 ≤ (lastPixel 3).npix ∧ (lastPixel 3).CanWrite ((lastPixel 3).dstPixel 0) (1 * 3)) ∧
    (0 + 2 ≤ ({ bodyAt 3 Pixel.seed [0xC1] with platform := denying 0x3003 .write } : State).npix ∧
      0x3000 + 2 * 3 ≤ Config.addressEnd ∧ ∃ j, j < 2 * 3 ∧ (denying 0x3003 .write).memOk (0x3000 + j) .write = false) :=
  ⟨by decide, ⟨by decide, canWrite_of (by decide)⟩, by decide, by decide, 3, by decide, by decide⟩

/-- A chunk that goes through, and one that overshoots. -/
theorem witness_chunk_frame :
    (Instr.diff (-2) 1 (-1)).place = .chunk ∧ (∃ t, exec (.diff (-2) 1 (-1)) (lastPixel 3) = .next t) ∧
    (Instr.run 2).place = .chunk ∧ (∃ t, exec (.run 2) (lastPixel 3) = .next t) :=
  ⟨rfl, answers_next (by decide), rfl, answers_next (by decide)⟩

theorem witness_header_initialises :
    ((4 : Byte) = 3 ∨ (4 : Byte) = 4) ∧ ((0 : Byte) = 0 ∨ (0 : Byte) = 1) ∧ (256 : Word) ≠ 0 ∧ (128 : Word) ≠ 0 ∧
    (256 : Word).toNat * (128 : Word).toNat * (4 : Byte).toNat ≤ (headerAt 131072 bigHeader).dstCap.toNat := by decide

theorem witness_header_checks :
    ¬((5 : Byte) = 3 ∨ (5 : Byte) = 4) ∧ ¬((2 : Byte) = 0 ∨ (2 : Byte) = 1) ∧ ((0 : Word) = 0 ∨ (1 : Word) = 0) ∧
    (headerAt 131071 bigHeader).dstCap.toNat < (256 : Word).toNat * (128 : Word).toNat * (4 : Byte).toNat := by decide

theorem witness_framing_frame :
    (Instr.hdr 256 128 4 0).place ≠ .chunk ∧ (∃ t, exec (.hdr 256 128 4 0) (headerAt 131072 bigHeader) = .next t) ∧
    Instr.endMarker.place ≠ .chunk ∧ (∃ t, exec .endMarker (tailAt [0, 0, 0, 0, 0, 0, 0, 1]) = .next t) ∧
    (Instr.encodeCmd true).place ≠ .chunk ∧ (∃ t, exec (.encodeCmd true) (hosted []) = .next t) :=
  ⟨by decide, answers_next (by decide), by decide, answers_next (by decide), by decide, answers_next (by decide)⟩

theorem witness_commands : (hosted []).status.busy = false ∧ (busyHosted []).status.busy = true := by decide

theorem witness_check_step : (busyHosted []).host = [] ∧ (busyHosted []).phase = .check := by decide

/-- A state for each check of an encode after the channels, with its code (R243, R260). -/
theorem witness_check_validation :
    (nextOf (step { busyHosted [] with imgFormat := ⟨3, 2⟩ })).map (·.errcode) = some 11 ∧
    (nextOf (step { busyHosted [] with imgWidth := 0 })).map (·.errcode) = some 12 ∧
    (nextOf (step { busyHosted [] with imgHeight := 0 })).map (·.errcode) = some 12 ∧
    (nextOf (step { busyHosted [] with srcLen := 0 })).map (·.errcode) = some 8 ∧
    (nextOf (step { busyHosted [] with srcLen := 5 })).map (·.errcode) = some 9 := by decide

/-- Each region one byte past 2^32, and ending exactly there (R244); an error leaves OP as it was (log 23). -/
theorem witness_check_regions :
    (nextOf (step { busyHosted [] with srcBase := 0xFFFFFFFB })).map (·.errcode) = some 15 ∧
    (nextOf (step { busyHosted [] with srcBase := 0xFFFFFFFA })).map (·.phase) = some .header ∧
    (nextOf (step { busyHosted [] with dstBase := 0xFFFFFFC1, op := .dec })).map (fun t => (t.errcode, t.op)) =
      some (15, .dec) ∧
    (nextOf (step { busyHosted [] with dstBase := 0xFFFFFFC0, op := .dec })).map (fun t => (t.phase, t.op)) =
      some (.header, .enc) := by decide

/-- One byte too few, just enough, and the last byte refused. -/
theorem witness_emit :
    (encodeAt 3 2 15 Pixel.seed []).dstCap.toNat < (encodeAt 3 2 15 Pixel.seed []).wp + [0xAA, 0x88].length ∧
    ((encodeAt 3 2 16 Pixel.seed []).wp + [0xAA, 0x88].length ≤ (encodeAt 3 2 16 Pixel.seed []).dstCap.toNat ∧
      (encodeAt 3 2 16 Pixel.seed []).CanWrite (0x2000 + 14) 2) ∧
    (0x2000 + 14 + 2 ≤ Config.addressEnd ∧ ∃ j, j < 2 ∧ (denying 0x200F .write).memOk (0x2000 + 14 + j) .write = false) :=
  ⟨by decide, ⟨by decide, canWrite_of (by decide)⟩, by decide, 1, by decide, by decide⟩

/-- An encode in HEADER. -/
def encHeaderAt (cap : Word) (p : Platform) : State :=
  { encodeAt 3 2 cap Pixel.seed [] with wp := 0, phase := .header, platform := p }

theorem witness_encoder_header :
    ((encHeaderAt 13 ⟨0, []⟩).host = [] ∧ (encHeaderAt 13 ⟨0, []⟩).phase = .header ∧ (encHeaderAt 13 ⟨0, []⟩).op = .enc ∧
      (encHeaderAt 13 ⟨0, []⟩).dstCap.toNat < (encHeaderAt 13 ⟨0, []⟩).wp + 14) ∧
    ((encHeaderAt 14 ⟨0, []⟩).wp + 14 ≤ (encHeaderAt 14 ⟨0, []⟩).dstCap.toNat ∧
      (encHeaderAt 14 ⟨0, []⟩).CanWrite (0x2000 + 0) 14) ∧
    (0x2000 + 0 + 14 ≤ Config.addressEnd ∧ ∃ j, j < 14 ∧ (denying 0x200D .write).memOk (0x2000 + 0 + j) .write = false) :=
  ⟨by decide, ⟨by decide, canWrite_of (by decide)⟩, by decide, 13, by decide, by decide⟩

/-- A run that a different pixel ends, two pixels of three. -/
def shortRun : State := encodeAt 3 3 0x40 Pixel.seed [0, 0, 0, 0, 0, 0, 1, 0, 0]

theorem witness_encoder_run :
    (shortRun.host = [] ∧ shortRun.phase = .body ∧ shortRun.op = .enc ∧ shortRun.lc = 3 ∧ shortRun.pix + 2 ≤ shortRun.npix ∧
      eqC shortRun.lc (shortRun.pixelAt 0) shortRun.prev = true ∧
      (∀ j, 1 ≤ j → j < 2 → eqC shortRun.lc (shortRun.pixelAt (0 + j)) (shortRun.pixelAt 0) = true) ∧
      eqC shortRun.lc (shortRun.pixelAt (0 + 2)) (shortRun.pixelAt 0) = false) ∧
    (∀ j, j ≤ 2 → j < 62 → 0 + j < shortRun.npix → shortRun.CanRead (shortRun.srcPixel (0 + j)) 3) ∧
    shortRun.wp + 1 ≤ shortRun.dstCap.toNat ∧ shortRun.CanWrite (0x2000 + shortRun.wp) 1 :=
  ⟨by decide, fun j h _ _ => canRead_of (by revert j; decide), by decide, canWrite_of (by decide)⟩

/-- 63 equal pixels: the run is cut at 62. -/
def longRun : State := encodeAt 3 63 0x40 Pixel.seed []

theorem witness_encoder_run_cut :
    62 ≤ longRun.npix ∧ eqC longRun.lc (longRun.pixelAt 0) longRun.prev = true ∧
    (∀ j, j < 62 → 1 ≤ j → eqC longRun.lc (longRun.pixelAt (0 + j)) (longRun.pixelAt 0) = true) ∧
    emits longRun 1 = some (15, 62, [0xFD]) := by decide

/-- A pixel for each of INDEX, DIFF, LUMA, RAW_RGB and RAW_RGBA, and the step that finds PIX = NPIX. -/
theorem witness_encoder_pixel :
    (({ encodeAt 3 2 0x40 Pixel.seed [] with pix := 2 } : State).pix = 2 ∧ (encodeAt 3 2 0x40 Pixel.seed []).npix = 2) ∧
    ((encodeAt 4 1 19 Pixel.seed [1, 2, 3, 4]).pix < (encodeAt 4 1 19 Pixel.seed [1, 2, 3, 4]).npix ∧
      eqC 4 ((encodeAt 4 1 19 Pixel.seed [1, 2, 3, 4]).pixelAt 0) Pixel.seed = false ∧
      14 + (Instr.rgba 1 2 3 4).length ≤ (encodeAt 4 1 19 Pixel.seed [1, 2, 3, 4]).dstCap.toNat ∧
      selectChunk 4 Pixel.seed Cache.fresh ⟨1, 2, 3, 4⟩ = .rgba 1 2 3 4 ∧
      selectChunk 4 Pixel.seed Cache.fresh ⟨100, 0, 0, 255⟩ = .rgb 100 0 0 ∧
      selectChunk 4 Pixel.seed Cache.fresh ⟨10, 10, 10, 255⟩ = .luma 10 0 0 ∧
      selectChunk 4 Pixel.seed Cache.fresh ⟨1, 1, 0, 255⟩ = .diff 1 1 0 ∧
      selectChunk 4 Pixel.seed Cache.fresh ⟨0, 0, 0, 0⟩ = .index 0) ∧
    (encodeAt 4 1 19 Pixel.seed [1, 2, 3, 4]).CanRead (0x1000 + 0 * 4) 4 ∧
    (encodeAt 4 1 19 Pixel.seed [1, 2, 3, 4]).CanWrite (0x2000 + 14) 5 :=
  ⟨by decide, by decide, canRead_of (by decide), canWrite_of (by decide)⟩

theorem witness_capacity :
    ((encodeAt 3 2 14 Pixel.seed []).pix < (encodeAt 3 2 14 Pixel.seed []).npix ∧
      (encodeAt 3 2 14 Pixel.seed []).dstCap.toNat < (encodeAt 3 2 14 Pixel.seed []).wp + 1) ∧
    (encodeAt 3 2 14 Pixel.seed []).CanRead (0x1000 + 0 * 3) ((2 - 0) * 3) ∧
    (eqC 4 ((encodeAt 4 1 18 Pixel.seed [1, 2, 3, 4]).pixelAt 0) Pixel.seed = false ∧
      (encodeAt 4 1 18 Pixel.seed [1, 2, 3, 4]).dstCap.toNat <
        14 + (selectChunk 4 Pixel.seed Cache.fresh ((encodeAt 4 1 18 Pixel.seed [1, 2, 3, 4]).pixelAt 0)).length) :=
  ⟨by decide, canRead_of (by decide), by decide⟩

/-- The first two pixels of `shortRun` are a run, whatever the platform refuses elsewhere. -/
theorem shortRun_run : shortRun.RunOf 2 where
  length := by decide
  inImage := by decide
  first := by decide
  others := by decide
  reads := fun j _ => canRead_of (by revert j; decide)

/-- `shortRun` on a platform that refuses the first byte of its third pixel. -/
def refusedAhead : State := { shortRun with platform := denying 0x1006 .read, dstCap := 14 }

/-- The last byte of the pixel refused; a byte of the look-ahead pixel refused, with no room left; the run and its end
readable; a byte of the chunk refused. -/
theorem witness_encoder_body_errors :
    (shortRun.srcPixel shortRun.pix + shortRun.lc.toNat ≤ Config.addressEnd ∧
      ∃ j, j < shortRun.lc.toNat ∧ (denying 0x1002 .read).memOk (shortRun.srcPixel shortRun.pix + j) .read = false) ∧
    (refusedAhead.RunOf 2 ∧ 2 < 62 ∧ refusedAhead.pix + 2 < refusedAhead.npix ∧
      refusedAhead.srcPixel (refusedAhead.pix + 2) + refusedAhead.lc.toNat ≤ Config.addressEnd ∧
      ∃ j, j < refusedAhead.lc.toNat ∧
        refusedAhead.platform.memOk (refusedAhead.srcPixel (refusedAhead.pix + 2) + j) .read = false) ∧
    (shortRun.RunOf 2 ∧ shortRun.CanRead (shortRun.srcPixel (shortRun.pix + 2)) shortRun.lc.toNat ∧
      eqC shortRun.lc (shortRun.pixelAt (shortRun.pix + 2)) (shortRun.pixelAt shortRun.pix) = false ∧
      (denying 0x200E .write).memOk (shortRun.dstBase.toNat + shortRun.wp) .write = false) ∧
    (14 + 5 ≤ (encodeAt 4 1 19 Pixel.seed [1, 2, 3, 4]).dstCap.toNat ∧
      (selectChunk 4 Pixel.seed Cache.fresh ⟨1, 2, 3, 4⟩).length = 5 ∧
      ∃ j, j < 5 ∧ (denying 0x2012 .write).memOk (0x2000 + 14 + j) .write = false) :=
  ⟨⟨by decide, 2, by decide, by decide⟩,
    ⟨⟨by decide, by decide, by decide, by decide, fun j _ => canRead_of (by revert j; decide)⟩, by decide, by decide,
      by decide, 0, by decide, by decide⟩,
    ⟨shortRun_run, canRead_of (by decide), by decide, by decide⟩,
    by decide, by decide, 4, by decide, by decide⟩

/-- The order of R263 step 5: a refused read before the capacity, the capacity before a refused write. -/
theorem test_encoder_error_order :
    (nextOf (step { refusedAhead with platform := denying 0x1002 .read })).map (·.errcode) = some 16 ∧
    (nextOf (step refusedAhead)).map (·.errcode) = some 16 ∧
    (nextOf (step { shortRun with platform := denying 0x200E .write, dstCap := 14 })).map (·.errcode) = some 13 ∧
    (nextOf (step { shortRun with platform := denying 0x200E .write })).map (·.errcode) = some 16 := by decide

/-- An encode in TAIL, 17 bytes written (P1). -/
def encTailAt (cap : Word) : State := { encodeAt 3 2 cap Pixel.seed [] with wp := 17, pix := 2, phase := .tail }

theorem witness_encoder_tail :
    ((encTailAt 24).host = [] ∧ (encTailAt 24).phase = .tail ∧ (encTailAt 24).op = .enc ∧
      (encTailAt 24).dstCap.toNat < (encTailAt 24).wp + 8) ∧
    ((encTailAt 25).wp + 8 ≤ (encTailAt 25).dstCap.toNat ∧ (encTailAt 25).CanWrite (0x2000 + 17) 8) ∧
    (0x2000 + 17 + 8 ≤ Config.addressEnd ∧ ∃ j, j < 8 ∧ (denying 0x2018 .write).memOk (0x2000 + 17 + j) .write = false) :=
  ⟨by decide, ⟨by decide, canWrite_of (by decide)⟩, by decide, 7, by decide, by decide⟩

theorem witness_decoder_header :
    ((headerAt 6 (bigHeader.take 13)).host = [] ∧ (headerAt 6 (bigHeader.take 13)).phase = .header ∧
      (headerAt 6 (bigHeader.take 13)).op = .dec ∧ (headerAt 6 (bigHeader.take 13)).srcLen.toNat < 14) ∧
    (14 ≤ (headerAt 6 bigHeader).srcLen.toNat ∧ 0x1000 + 14 ≤ Config.addressEnd ∧
      ∃ j, j < 14 ∧ (denying 0x100D .read).memOk (0x1000 + j) .read = false) ∧
    ((headerAt 6 bigHeader).CanRead 0x1000 14 ∧
      (headerAt 6 bigHeader).mem.readBytes 0x1000 14 = bigHeader ∧
      256 = (0 : Byte).toNat * 2 ^ 24 + (0 : Byte).toNat * 2 ^ 16 + (1 : Byte).toNat * 2 ^ 8 + (0 : Byte).toNat) :=
  ⟨by decide, ⟨by decide, by decide, 13, by decide, by decide⟩, canRead_of (by decide), by decide, by decide⟩

/-- The image finished; no tag byte; the tag refused; an operand byte missing; an operand byte refused. -/
theorem witness_decoder_body :
    (({ bodyAt 3 Pixel.seed [] with pix := 62 } : State).pix = (bodyAt 3 Pixel.seed []).npix) ∧
    ((bodyAt 3 Pixel.seed []).pix ≠ (bodyAt 3 Pixel.seed []).npix ∧
      (bodyAt 3 Pixel.seed []).srcLen.toNat ≤ (bodyAt 3 Pixel.seed []).rp) ∧
    ((bodyAt 3 Pixel.seed [0xAA]).rp < (bodyAt 3 Pixel.seed [0xAA]).srcLen.toNat ∧ 0x1000 + 14 < Config.addressEnd ∧
      (denying 0x100E .read).memOk (0x1000 + 14) .read = false) ∧
    ((bodyAt 3 Pixel.seed [0xAA]).mem.read 0x100E = 0xAA ∧
      (bodyAt 3 Pixel.seed [0xAA]).srcLen.toNat < (bodyAt 3 Pixel.seed [0xAA]).rp + (classify 0xAA).length) ∧
    ((bodyAt 3 Pixel.seed [0xAA, 0x88]).rp + (classify 0xAA).length ≤ (bodyAt 3 Pixel.seed [0xAA, 0x88]).srcLen.toNat ∧
      ({ bodyAt 3 Pixel.seed [0xAA, 0x88] with platform := denying 0x100F .read } : State).CanRead 0x100E 1 ∧
      ∃ j, j < (classify 0xAA).length ∧ (denying 0x100F .read).memOk (0x1000 + 14 + j) .read = false) :=
  ⟨by decide, by decide, by decide, by decide, by decide, canRead_of (by decide), 1, by decide, by decide⟩

theorem witness_decoder_tail :
    ((tailAt [0, 0, 0, 0, 0, 0, 0]).srcLen.toNat ≠ (tailAt [0, 0, 0, 0, 0, 0, 0]).rp + 8 ∧
      (tailAt [0, 0, 0, 0, 0, 0, 0, 1, 0]).srcLen.toNat ≠ (tailAt [0, 0, 0, 0, 0, 0, 0, 1, 0]).rp + 8) ∧
    ((tailAt [0, 0, 0, 0, 0, 0, 0, 2]).srcLen.toNat = 17 + 8 ∧
      (tailAt [0, 0, 0, 0, 0, 0, 0, 2]).mem.readBytes (0x1000 + 17) 8 ≠ [0, 0, 0, 0, 0, 0, 0, 1]) ∧
    (0x1000 + 17 + 8 ≤ Config.addressEnd ∧ ∃ j, j < 8 ∧ (denying 0x1018 .read).memOk (0x1000 + 17 + j) .read = false) ∧
    ((tailAt [0, 0, 0, 0, 0, 0, 0, 1]).host = [] ∧ (tailAt [0, 0, 0, 0, 0, 0, 0, 1]).phase = .tail ∧
      (tailAt [0, 0, 0, 0, 0, 0, 0, 1]).op = .dec ∧
      (tailAt [0, 0, 0, 0, 0, 0, 0, 1]).mem.readBytes (0x1000 + 17) 8 = [0, 0, 0, 0, 0, 0, 0, 1]) ∧
    (tailAt [0, 0, 0, 0, 0, 0, 0, 1]).CanRead (0x1000 + 17) 8 :=
  ⟨by decide, by decide, ⟨by decide, 7, by decide, by decide⟩, by decide, canRead_of (by decide)⟩

theorem witness_step_runs :
    ((lastPixel 3).host = [] ∧ (lastPixel 3).phase = .body ∧ (lastPixel 3).op = .dec ∧ (lastPixel 3).pix ≠ (lastPixel 3).npix ∧
      (lastPixel 3).rp + 1 ≤ (lastPixel 3).srcLen.toNat ∧
      decode .chunk ((lastPixel 3).mem.readBytes (0x1000 + 14) 1) = .instr (.diff (-2) 1 (-1)) []) ∧
    (lastPixel 3).CanRead (0x1000 + 14) 1 ∧
    decode .header ((headerAt 6 bigHeader).mem.readBytes 0x1000 14) = .instr (.hdr 256 128 4 0) [] ∧
    decode .tail ((tailAt [0, 0, 0, 0, 0, 0, 0, 1]).mem.readBytes (0x1000 + 17) 8) = .instr .endMarker [] ∧
    ((hosted [.regWrite 0 4 0x9]).host = .regWrite (hosted []).platform.regBase 4 0x9 :: [] ∧
      (hosted [.regWrite 0 4 0x9]).status.busy = false ∧ decode .ctrl (leBytes 0x9) = .instr (.encodeCmd true) []) ∧
    (hosted [.wait]).host = .wait :: [] :=
  ⟨by decide, canRead_of (by decide), by decide, by decide, by decide, by decide⟩

theorem witness_idle : (hosted []).phase = .idle ∧ (hosted []).host = [] := by decide

/-- First and last offset of the window, idle and busy. -/
theorem witness_register_access :
    (0x3C < 64 ∧ 0x3C % 4 = 0 ∧ (hosted [.regWrite (0 + 0x3C) 4 7]).host = .regWrite (0 + 0x3C) 4 7 :: []) ∧
    (0x00 < 64 ∧ (busyHosted [.regWrite (0 + 0x00) 4 3]).host = .regWrite (0 + 0x00) 4 3 :: []) ∧
    (hosted [.regRead (0 + 0x28) 4]).host = .regRead (0 + 0x28) 4 :: [] := by decide

/-- Not aligned; past the window; not 32 bits. -/
theorem witness_unadmitted :
    (¬∃ o, o < 64 ∧ o % 4 = 0 ∧ 4 = 4 ∧ 2 = 0 + o) ∧ (¬∃ o, o < 64 ∧ o % 4 = 0 ∧ 4 = 4 ∧ 64 = 0 + o) ∧
    (¬∃ o, o < 64 ∧ o % 4 = 0 ∧ 2 = 4 ∧ 0 = 0 + o) ∧
    (hosted [.regWrite 2 4 0]).host = .regWrite 2 4 0 :: [] ∧ (hosted [.regRead 64 4]).host = .regRead 64 4 :: [] := by
  refine ⟨?_, ?_, ?_, by decide, by decide⟩ <;> rintro ⟨o, h⟩ <;> omega

/-- The last source byte, the byte after it, a destination byte read while busy. -/
theorem witness_host_memory :
    ((busyHosted []).status.busy = true ∧ (busyHosted []).inSource (0x1005 : Word).toNat = true ∧
      (busyHosted []).inSource (0x1006 : Word).toNat = false ∧ (busyHosted []).inDestination (0x1006 : Word).toNat = false ∧
      (busyHosted []).inDestination (0x203F : Word).toNat = true) ∧
    (busyHosted [.memWrite 0x1006 7]).host = .memWrite 0x1006 7 :: [] ∧
    (busyHosted [.memRead 0x203F]).host = .memRead 0x203F :: [] := by decide

/-- A reset while a decode runs, and one while nothing does. -/
theorem witness_hardware_reset :
    ({ bodyAt 3 Pixel.seed [0x4D] with host := [.reset] } : State).host = .reset :: [] ∧
    (bodyAt 3 Pixel.seed [0x4D]).inDestination 0x3000 = true ∧ 0x30FF < Config.addressEnd ∧
    (bodyAt 3 Pixel.seed [0x4D]).inDestination 0x30FF = true ∧ (bodyAt 3 Pixel.seed [0x4D]).phase = .body ∧
    (bodyAt 3 Pixel.seed [0x4D]).inDestination 0x3100 = false ∧ (hosted [.reset]).phase = .idle := by decide

/-- A running phase, an address of the destination and one outside it (also for HardwareReset). -/
theorem witness_error_ending :
    (bodyAt 3 Pixel.seed [0x4D]).phase.working ∧ (bodyAt 3 Pixel.seed [0x4D]).inDestination 0x3000 = true ∧
    0x3000 < Config.addressEnd ∧ (bodyAt 3 Pixel.seed [0x4D]).inDestination 0x2FFF = false :=
  ⟨.inr (.inl rfl), by decide, by decide, by decide⟩

/-- A step that ends in error. -/
theorem witness_errors_precise :
    (bodyAt 3 Pixel.seed [0xAA]).status.err = false ∧
    ∃ t, engineStep (bodyAt 3 Pixel.seed [0xAA]) = .next t ∧ t.status.err = true := ⟨by decide, _, rfl, rfl⟩

/-! ### Witnesses: the invariant -/

/-- A decode in BODY meets the invariant. -/
theorem inv_body : (bodyAt 3 ⟨10, 10, 10, 255⟩ [0x4D]).Inv where
  memory := by decide
  busyPhase := by decide
  oneFlag := by decide
  line := by decide
  code := by decide
  running := by decide
  succeeded := by decide
  failed := by decide
  regions := fun _ => by decide
  encoding := fun _ h => absurd h (by decide)
  decodeCommand := fun _ _ => by decide
  decoding := fun _ _ =>
    ⟨⟨by decide, by decide, by decide, by decide⟩, by decide, by decide, by decide, by decide, by decide⟩

/-- An encode in BODY. -/
def encBodyP1 : State := encodeAt 3 2 0x40 Pixel.seed [10, 10, 10, 8, 11, 9]

/-- An encode in BODY meets the invariant. -/
theorem inv_encode : encBodyP1.Inv where
  memory := by decide
  busyPhase := by decide
  oneFlag := by decide
  line := by decide
  code := by decide
  running := by decide
  succeeded := by decide
  failed := by decide
  regions := fun _ => by decide
  encoding := fun _ _ =>
    ⟨by decide, by decide, ⟨by decide, by decide, by decide, by decide⟩, by decide, by decide, by decide,
      fun i => .inl (by revert i; decide), by decide, by decide⟩
  decodeCommand := fun _ h => absurd h (by decide)
  decoding := fun _ h => absurd h (by decide)

/-- P1's encode in CHECK meets the invariant. -/
theorem inv_check : (busyHosted []).Inv where
  memory := by decide
  busyPhase := by decide
  oneFlag := by decide
  line := by decide
  code := by decide
  running := by decide
  succeeded := by decide
  failed := by decide
  regions := fun h => absurd h (by unfold Phase.working; decide)
  encoding := fun h => absurd h (by unfold Phase.working; decide)
  decodeCommand := fun h => absurd h (by unfold Phase.working; decide)
  decoding := fun h => absurd h (by decide)

/-- P1's stream, and its decode in CHECK (L3.1 part 2). -/
def checkDecodeP1 : State :=
  { State.reset with
    ctrl := ⟨1, true⟩, status := Status.running, srcBase := 0x2000, srcLen := 25, dstBase := 0x3000, dstCap := 6
    phase := .check
    mem := Memory.empty.writeBytes 0x2000
      [0x71, 0x6F, 0x69, 0x66, 0, 0, 0, 2, 0, 0, 0, 1, 3, 0, 0xAA, 0x88, 0x4D, 0, 0, 0, 0, 0, 0, 0, 1] }

theorem inv_check_decode : checkDecodeP1.Inv where
  memory := by decide
  busyPhase := by decide
  oneFlag := by decide
  line := by decide
  code := by decide
  running := by decide
  succeeded := by decide
  failed := by decide
  regions := fun h => absurd h (by unfold Phase.working; decide)
  encoding := fun h => absurd h (by unfold Phase.working; decide)
  decodeCommand := fun h => absurd h (by unfold Phase.working; decide)
  decoding := fun h => absurd h (by decide)

/-- Of StepKeepsInvariant, StepNeverFaults and EngineWritesOnlyDestination: a decode and an encode under way. -/
theorem witness_invariant_steps :
    ((bodyAt 3 ⟨10, 10, 10, 255⟩ [0x4D]).Inv ∧ (∃ t, step (bodyAt 3 ⟨10, 10, 10, 255⟩ [0x4D]) = .next t) ∧
      (∃ t, engineStep (bodyAt 3 ⟨10, 10, 10, 255⟩ [0x4D]) = .next t) ∧
      (bodyAt 3 ⟨10, 10, 10, 255⟩ [0x4D]).inDestination 0x2FFF = false) ∧
    (encBodyP1.Inv ∧ (∃ t, engineStep encBodyP1 = .next t)) :=
  ⟨⟨inv_body, answers_next (by decide), answers_next (by decide), by decide⟩, inv_encode, answers_next (by decide)⟩

/-- Of EngineReadsOnlySource: a byte outside both regions differs. -/
theorem witness_reads_only_source :
    encBodyP1.Inv ∧ (encBodyP1.mem.write 0x5000 7).wf ∧ encBodyP1.host = [] ∧
    (∀ a, encBodyP1.inSource a = true → (encBodyP1.mem.write 0x5000 7).read a = encBodyP1.mem.read a) ∧
    (encBodyP1.mem.write 0x5000 7).read 0x5000 ≠ encBodyP1.mem.read 0x5000 ∧
    (∃ t, engineStep encBodyP1 = .next t) ∧ (∃ t : State, core.run 2 encBodyP1 = .next t) :=
  ⟨inv_encode, by decide, rfl, fun a h => Memory.read_write_other _ (by rintro rfl; revert h; decide) _, by decide,
    answers_next (by decide), answers_next (by decide)⟩

theorem witness_old_registers : checkDecodeP1.phase = .check := rfl

/-- The pixel and the cache differ in alpha lanes alone. -/
theorem witness_alpha_lane :
    (bodyAt 3 ⟨10, 10, 10, 255⟩ [0x4D]).lc = 3 ∧ (bodyAt 3 ⟨10, 10, 10, 255⟩ [0x4D]).phase = .body ∧
    (∀ i, ∃ x, slot (Vector.replicate 64 ⟨0, 0, 0, 7⟩) i =
      { slot (bodyAt 3 ⟨10, 10, 10, 255⟩ [0x4D]).cache i with a := x }) ∧
    (∃ t, engineStep (bodyAt 3 ⟨10, 10, 10, 255⟩ [0x4D]) = .next t) :=
  ⟨rfl, rfl, fun i => ⟨7, by revert i; decide⟩, answers_next (by decide)⟩

/-- Of EncodeEndsInTime (both clauses) and EncodeRunWritesEncoding: P1, with its 25 bytes. -/
theorem witness_encode_run :
    ((busyHosted []).Inv ∧ (busyHosted []).host = [] ∧ (busyHosted []).phase = .check ∧ (busyHosted []).ctrl.cmd = 0) ∧
    ((∃ u, (busyHosted []).validateEncode = .ok u) ∧ (busyHosted []).regionsOk = true ∧
      (busyHosted []).CanRead 0x1000 6 ∧ (busyHosted []).CanWrite 0x2000 0x40) ∧
    encodeImage ⟨2, 1, 3, 0, (busyHosted []).mem.readBytes 0x1000 6⟩ =
      [0x71, 0x6F, 0x69, 0x66, 0, 0, 0, 2, 0, 0, 0, 1, 3, 0, 0xAA, 0x88, 0x4D, 0, 0, 0, 0, 0, 0, 0, 1] ∧
    (encBodyP1.Inv ∧ encBodyP1.phase = .body ∧ encBodyP1.op = .enc) :=
  ⟨⟨inv_check, rfl, rfl, rfl⟩, ⟨⟨(), rfl⟩, by decide, canRead_of (by decide), canWrite_of (by decide)⟩, by decide,
    inv_encode, rfl, rfl⟩

/-- Of DecodeEndsInTime (both clauses) and DecodeRunWritesDecoding: P1's stream. -/
theorem witness_decode_run :
    (checkDecodeP1.Inv ∧ checkDecodeP1.host = [] ∧ checkDecodeP1.phase = .check ∧ checkDecodeP1.ctrl.cmd = 1) ∧
    (checkDecodeP1.regionsOk = true ∧ checkDecodeP1.CanRead 0x2000 25 ∧ checkDecodeP1.CanWrite 0x3000 6) ∧
    decodeImage 6 (checkDecodeP1.mem.readBytes 0x2000 25) = .ok ⟨2, 1, 3, 0, [10, 10, 10, 8, 11, 9]⟩ ∧
    ((bodyAt 3 ⟨10, 10, 10, 255⟩ [0x4D]).Inv ∧ (bodyAt 3 ⟨10, 10, 10, 255⟩ [0x4D]).phase = .body ∧
      (bodyAt 3 ⟨10, 10, 10, 255⟩ [0x4D]).op = .dec) :=
  ⟨⟨inv_check_decode, rfl, rfl, rfl⟩, ⟨by decide, canRead_of (by decide), canWrite_of (by decide)⟩, by rfl,
    inv_body, rfl, rfl⟩

/-- The image of P2 (L3.2), every chunk type: its encoding. -/
theorem witness_round_trip :
    let im : Image := ⟨3, 3, 4, 0, [0, 0, 0, 255, 100, 0, 0, 255, 0, 0, 0, 255, 100, 0, 0, 128, 101, 1, 0, 128,
      120, 20, 19, 128, 0, 0, 0, 0, 100, 0, 0, 128, 100, 0, 0, 128]⟩
    im.valid = true ∧ im.data.length ≤ 36 ∧
    encodeImage im =
      [0x71, 0x6F, 0x69, 0x66, 0, 0, 0, 3, 0, 0, 0, 3, 4, 0,
       0xC0, 0xFE, 0x64, 0, 0, 0x35, 0xFF, 0x64, 0, 0, 0x80, 0x7E, 0xB3, 0x88, 0, 0x2C, 0xC0,
       0, 0, 0, 0, 0, 0, 0, 1] := by decide

end Sys2Proof.Tests
end

