-- ==== Sys2Proof/Proofs/Encoding.lean ====
section
/-! The opcode map (R86) and the bytes each item stands for (R88): fields of a byte as arithmetic on its value. -/

namespace Sys2Proof

/-! ### Decoding by the value of byte 0 -/

/-- Bits [7:6] of a byte by arithmetic on its value (R82). -/
theorem tagBits_toNat (t : Byte) : (t.extractLsb' 6 2).toNat = t.toNat / 64 := by
  have ht : t.toNat < 256 := t.isLt
  rw [BitVec.extractLsb'_toNat, Nat.shiftRight_eq_div_pow]
  omega

/-- Bits [5:0] of a byte by arithmetic on its value (R83). -/
theorem lowBits_toNat (t : Byte) : (t.extractLsb' 0 6).toNat = t.toNat % 64 := by
  simp

/-- R82's classification by arithmetic on the byte's value. -/
theorem classify_eq_of_value (t : Byte) :
    classify t =
      if t.toNat = 0xFE then .rgb
      else if t.toNat = 0xFF then .rgba
      else if t.toNat / 64 = 0 then .index
      else if t.toNat / 64 = 1 then .diff
      else if t.toNat / 64 = 2 then .luma
      else .run := by
  simp only [classify, ← BitVec.toNat_inj, tagBits_toNat, BitVec.reduceToNat]

theorem classify_eq_index {t : Byte} (h : t.toNat ≤ 0x3F) : classify t = .index := by
  rw [classify_eq_of_value, if_neg (by omega), if_neg (by omega), if_pos (by omega)]

theorem classify_eq_diff {t : Byte} (hlo : 0x40 ≤ t.toNat) (hhi : t.toNat ≤ 0x7F) : classify t = .diff := by
  rw [classify_eq_of_value, if_neg (by omega), if_neg (by omega), if_neg (by omega), if_pos (by omega)]

theorem classify_eq_luma {t : Byte} (hlo : 0x80 ≤ t.toNat) (hhi : t.toNat ≤ 0xBF) : classify t = .luma := by
  rw [classify_eq_of_value, if_neg (by omega), if_neg (by omega), if_neg (by omega), if_neg (by omega),
    if_pos (by omega)]

theorem classify_eq_run {t : Byte} (hlo : 0xC0 ≤ t.toNat) (hhi : t.toNat ≤ 0xFD) : classify t = .run := by
  rw [classify_eq_of_value, if_neg (by omega), if_neg (by omega), if_neg (by omega), if_neg (by omega),
    if_neg (by omega)]

theorem classify_eq_rgb {t : Byte} (h : t.toNat = 0xFE) : classify t = .rgb := by
  rw [classify_eq_of_value, if_pos h]

theorem classify_eq_rgba {t : Byte} (h : t.toNat = 0xFF) : classify t = .rgba := by
  rw [classify_eq_of_value, if_neg (by omega), if_pos h]

/-! ### The decoder, one equation for each class -/

theorem decode_of_classify_rgb {t : Byte} (hk : classify t = .rgb) (r g b : Byte) (rest : List Byte) :
    decode .chunk (t :: r :: g :: b :: rest) = .instr (.rgb r g b) rest := by
  simp only [decode, decodeChunk, hk]

theorem decode_of_classify_rgba {t : Byte} (hk : classify t = .rgba) (r g b a : Byte) (rest : List Byte) :
    decode .chunk (t :: r :: g :: b :: a :: rest) = .instr (.rgba r g b a) rest := by
  simp only [decode, decodeChunk, hk]

theorem decode_of_classify_index {t : Byte} (hk : classify t = .index) (rest : List Byte) :
    decode .chunk (t :: rest) = .instr (decodeIndex t) rest := by
  simp only [decode, decodeChunk, hk]

theorem decode_of_classify_diff {t : Byte} (hk : classify t = .diff) (rest : List Byte) :
    decode .chunk (t :: rest) = .instr (decodeDiff t) rest := by
  simp only [decode, decodeChunk, hk]

theorem decode_of_classify_luma {t : Byte} (hk : classify t = .luma) (u : Byte) (rest : List Byte) :
    decode .chunk (t :: u :: rest) = .instr (decodeLuma t u) rest := by
  simp only [decode, decodeChunk, hk]

theorem decode_of_classify_run {t : Byte} (hk : classify t = .run) (rest : List Byte) :
    decode .chunk (t :: rest) = .instr (decodeRun t) rest := by
  simp only [decode, decodeChunk, hk]

/-- The length of a RUN by arithmetic on the tag byte (R83, R86). -/
theorem decodeRun_eq {t : Byte} (hlo : 0xC0 ≤ t.toNat) : decodeRun t = .run (t.toNat - 0xC0 + 1) := by
  have ht : t.toNat < 256 := t.isLt
  rw [decodeRun, lowBits_toNat, show t.toNat % 64 = t.toNat - 0xC0 by omega]

/-! ### Encoding: fields put together, by arithmetic -/

/-- Fields side by side: the upper one moves up by the lower one's width. -/
theorem append_toNat_eq_add {m n : Nat} (x : BitVec m) (y : BitVec n) :
    (x ++ y).toNat = 2 ^ n * x.toNat + y.toNat := by
  rw [BitVec.toNat_append, Nat.shiftLeft_eq, Nat.mul_comm, ← Nat.two_pow_add_eq_or_of_lt y.isLt]

/-- A biased field holds the operand plus its bias, for every operand it admits (R83). -/
theorem biased_toNat (n : Nat) (v bias : Int) (h0 : 0 ≤ v + bias) (h1 : v + bias < ((2 ^ n : Nat) : Int)) :
    (biased n v bias).toNat = (v + bias).toNat := by
  rw [biased, BitVec.toNat_ofInt, Int.emod_eq_of_lt h0 h1]

/-- A byte is the integer its value is. -/
theorem eq_ofInt_of_toNat {x : Byte} {v : Int} (h : (x.toNat : Int) = v) : x = BitVec.ofInt 8 v := by
  rw [← h, BitVec.ofInt_natCast, BitVec.ofNat_toNat, BitVec.setWidth_eq]

/-- A byte of a word by arithmetic on the word's value (R62). -/
theorem extractByte_eq_ofNat (w : Word) (k : Nat) : w.extractLsb' k 8 = BitVec.ofNat 8 (w.toNat / 2 ^ k) := by
  rw [← Nat.shiftRight_eq_div_pow]
  rfl

theorem beBytes_eq (w : Word) :
    beBytes w = [BitVec.ofNat 8 (w.toNat / 2 ^ 24), BitVec.ofNat 8 (w.toNat / 2 ^ 16),
      BitVec.ofNat 8 (w.toNat / 2 ^ 8), BitVec.ofNat 8 w.toNat] := by
  simp only [beBytes, extractByte_eq_ofNat, Nat.pow_zero, Nat.div_one]

/-! ### The bytes of each chunk -/

theorem encode_index (k : Fin 64) : encode (.index k) = [BitVec.ofNat 8 k.val] := by
  have hbyte : (0b00#2 ++ BitVec.ofFin (w := 6) k : Byte) = BitVec.ofNat 8 k.val := by
    refine BitVec.eq_of_toNat_eq ?_
    rw [append_toNat_eq_add, BitVec.toNat_ofNat, BitVec.toNat_ofNat, BitVec.toNat_ofFin]
    omega
  rw [encode, hbyte]

theorem encode_diff {dr dg db : Int} (hr : -2 ≤ dr ∧ dr ≤ 1) (hg : -2 ≤ dg ∧ dg ≤ 1) (hb : -2 ≤ db ∧ db ≤ 1) :
    encode (.diff dr dg db) = [BitVec.ofInt 8 (0x40 + 16 * (dr + 2) + 4 * (dg + 2) + (db + 2))] := by
  rw [encode]
  refine congrArg ([·]) (eq_ofInt_of_toNat ?_)
  rw [append_toNat_eq_add, append_toNat_eq_add, append_toNat_eq_add, BitVec.toNat_ofNat,
    biased_toNat 2 dr 2 (by omega) (by omega), biased_toNat 2 dg 2 (by omega) (by omega),
    biased_toNat 2 db 2 (by omega) (by omega)]
  omega

theorem encode_luma {dg drg dbg : Int} (hg : -32 ≤ dg ∧ dg ≤ 31) (hr : -8 ≤ drg ∧ drg ≤ 7)
    (hb : -8 ≤ dbg ∧ dbg ≤ 7) :
    encode (.luma dg drg dbg) =
      [BitVec.ofInt 8 (0x80 + (dg + 32)), BitVec.ofInt 8 (16 * (drg + 8) + (dbg + 8))] := by
  have htag : (0b10#2 ++ biased 6 dg 32 : Byte) = BitVec.ofInt 8 (0x80 + (dg + 32)) := by
    refine eq_ofInt_of_toNat ?_
    rw [append_toNat_eq_add, BitVec.toNat_ofNat, biased_toNat 6 dg 32 (by omega) (by omega)]
    omega
  have hnext : (biased 4 drg 8 ++ biased 4 dbg 8 : Byte) = BitVec.ofInt 8 (16 * (drg + 8) + (dbg + 8)) := by
    refine eq_ofInt_of_toNat ?_
    rw [append_toNat_eq_add, biased_toNat 4 drg 8 (by omega) (by omega), biased_toNat 4 dbg 8 (by omega) (by omega)]
    omega
  rw [encode, htag, hnext]

theorem encode_run {n : Nat} (h1 : 1 ≤ n) (h62 : n ≤ 62) : encode (.run n) = [BitVec.ofNat 8 (0xC0 + (n - 1))] := by
  have hbyte : (0b11#2 ++ biased 6 n (-1) : Byte) = BitVec.ofNat 8 (0xC0 + (n - 1)) := by
    refine BitVec.eq_of_toNat_eq ?_
    rw [append_toNat_eq_add, BitVec.toNat_ofNat, BitVec.toNat_ofNat, biased_toNat 6 n (-1) (by omega) (by omega)]
    omega
  rw [encode, hbyte]

end Sys2Proof

open Sys2Proof

/-- Settles O4: the class of byte 0 by its value, then the decoder's equation for that class. -/
theorem opcodeMap : Obligations.OpcodeMap := by
  unfold Obligations.OpcodeMap
  intro t more
  refine ⟨fun hindex => ?_, fun hlo hhi => ?_, fun hlo hhi u => ?_, fun hlo hhi => ?_, fun hrgb r g b => ?_,
    fun hrgba r g b a => ?_⟩
  · refine ⟨(t.extractLsb' 0 6).toFin, ?_, decode_of_classify_index (classify_eq_index hindex) more⟩
    rw [BitVec.val_toFin, lowBits_toNat]
    omega
  · exact ⟨_, _, _, decode_of_classify_diff (classify_eq_diff hlo hhi) more⟩
  · exact ⟨_, _, _, decode_of_classify_luma (classify_eq_luma hlo hhi) u more⟩
  · rw [decode_of_classify_run (classify_eq_run hlo hhi), decodeRun_eq hlo]
  · exact decode_of_classify_rgb (classify_eq_rgb hrgb) r g b more
  · exact decode_of_classify_rgba (classify_eq_rgba hrgba) r g b a more

/-- Settles O6: each chunk's fields put together by arithmetic; the header and the marker byte by byte. -/
theorem serializedBytes : Obligations.SerializedBytes := by
  unfold Obligations.SerializedBytes
  refine ⟨fun r g b a => ⟨rfl, rfl⟩, encode_index, ?diff, ?luma, fun n => encode_run, fun w h c cs => ?hdr, rfl⟩
  case diff =>
    intro dr dg db hr0 hr1 hg0 hg1 hb0 hb1
    exact encode_diff ⟨hr0, hr1⟩ ⟨hg0, hg1⟩ ⟨hb0, hb1⟩
  case luma =>
    intro dg drg dbg hg0 hg1 hr0 hr1 hb0 hb1
    exact encode_luma ⟨hg0, hg1⟩ ⟨hr0, hr1⟩ ⟨hb0, hb1⟩
  case hdr =>
    rw [encode, beBytes_eq, beBytes_eq]
    rfl
end

