-- ==== Sys2Proof/Proofs/DeltaUnit.lean ====
section
/-! The delta arithmetic unit (R100 to R106): what `wd` and `add8` are on integers, the two eligibility tests as ranges,
and the DIFF and LUMA chunks through the serializer and the decoder. -/

namespace Sys2Proof

/-! ### DIFF and LUMA through the serializer and the decoder -/

theorem classify_diff_fields (r g b : BitVec 2) : classify (0b01#2 ++ r ++ g ++ b) = .diff := by
  have hval : (0b01#2 ++ r ++ g ++ b).toNat = 0x40 + 16 * r.toNat + 4 * g.toNat + b.toNat := by
    simp only [append_toNat_eq_add, BitVec.toNat_ofNat]
    omega
  have hr := r.isLt
  have hg := g.isLt
  have hb := b.isLt
  exact classify_eq_diff (by omega) (by omega)

theorem classify_luma_fields (g : BitVec 6) : classify (0b10#2 ++ g) = .luma := by
  have hval : (0b10#2 ++ g).toNat = 0x80 + g.toNat := append_toNat_eq_add 0b10#2 g
  have hg := g.isLt
  exact classify_eq_luma (by omega) (by omega)

/-- The decoder takes the three fields of a DIFF byte from where the serializer puts them (R81, R83). -/
theorem decodeDiff_fields (r g b : BitVec 2) :
    decodeDiff (0b01#2 ++ r ++ g ++ b) = .diff (unbias r 2) (unbias g 2) (unbias b 2) := by
  have hr : (0b01#2 ++ r ++ g ++ b).extractLsb' 4 2 = r := by
    rw [BitVec.extractLsb'_append_eq_of_le (by decide), BitVec.extractLsb'_append_eq_of_le (by decide)]
    exact BitVec.extractLsb'_append_eq_right
  have hg : (0b01#2 ++ r ++ g ++ b).extractLsb' 2 2 = g := by
    rw [BitVec.extractLsb'_append_eq_of_le (by decide)]
    exact BitVec.extractLsb'_append_eq_right
  rw [decodeDiff, hr, hg, BitVec.extractLsb'_append_eq_right]

/-- The decoder takes the three fields of a LUMA's bytes from where the serializer puts them (R81, R83). -/
theorem decodeLuma_fields (g : BitVec 6) (rg bg : BitVec 4) :
    decodeLuma (0b10#2 ++ g) (rg ++ bg) = .luma (unbias g 32) (unbias rg 8) (unbias bg 8) := by
  rw [decodeLuma, BitVec.extractLsb'_append_eq_right, BitVec.extractLsb'_append_eq_left,
    BitVec.extractLsb'_append_eq_right]

theorem decode_encode_diff {dr dg db : Int} (hr : -2 ≤ dr ∧ dr ≤ 1) (hg : -2 ≤ dg ∧ dg ≤ 1) (hb : -2 ≤ db ∧ db ≤ 1)
    (rest : List Byte) : decode .chunk (encode (.diff dr dg db) ++ rest) = .instr (.diff dr dg db) rest := by
  rw [encode, List.singleton_append, decode_of_classify_diff (classify_diff_fields _ _ _), decodeDiff_fields,
    unbias_biased 2 dr 2 (by omega) (by omega), unbias_biased 2 dg 2 (by omega) (by omega),
    unbias_biased 2 db 2 (by omega) (by omega)]

theorem decode_encode_luma {dg drg dbg : Int} (hg : -32 ≤ dg ∧ dg ≤ 31) (hr : -8 ≤ drg ∧ drg ≤ 7)
    (hb : -8 ≤ dbg ∧ dbg ≤ 7) (rest : List Byte) :
    decode .chunk (encode (.luma dg drg dbg) ++ rest) = .instr (.luma dg drg dbg) rest := by
  rw [encode, List.cons_append, List.singleton_append, decode_of_classify_luma (classify_luma_fields _),
    decodeLuma_fields, unbias_biased 6 dg 32 (by omega) (by omega), unbias_biased 4 drg 8 (by omega) (by omega),
    unbias_biased 4 dbg 8 (by omega) (by omega)]

end Sys2Proof

namespace Sys2Proof.Machine

/-! ### `wd` and `add8` on integers -/

theorem wd_range (c p : Byte) : -128 ≤ wd c p ∧ wd c p ≤ 127 := by
  rw [wd]
  omega

/-- R100: no information is lost modulo 256, on which the inverse law rests. -/
theorem wd_congr (c p : Byte) : (wd c p - ((c.toNat : Int) - (p.toNat : Int))) % 256 = 0 := by
  rw [wd]
  omega

@[simp] theorem wd_self (c : Byte) : wd c c = 0 := by
  rw [wd, Int.sub_self]
  rfl

theorem add8_toNat (x : Byte) (d : Int) : ((add8 x d).toNat : Int) = ((x.toNat : Int) + d) % 256 := by
  rw [add8, BitVec.toNat_ofInt]
  exact Int.toNat_of_nonneg (Int.emod_nonneg _ (by decide))

/-- R105, one channel: the sum is the byte up to a multiple of 256, and both lie below 256. -/
@[simp] theorem add8_wd (c p : Byte) : add8 p (wd c p) = c := by
  refine BitVec.eq_of_toNat_eq ?_
  have hsum := add8_toNat p (wd c p)
  have hcongr := wd_congr c p
  have hc : c.toNat < 256 := c.isLt
  omega

/-! ### The eligibility tests as ranges -/

@[simp] theorem within_iff {lo hi v : Int} : within lo hi v = true ↔ lo ≤ v ∧ v ≤ hi := by
  rw [within, Bool.and_eq_true, decide_eq_true_iff, decide_eq_true_iff]

@[simp] theorem alphaSame_iff {c : Byte} {q p : Pixel} : alphaSame c q p = true ↔ c = 3 ∨ q.a = p.a := by
  rw [alphaSame, Bool.or_eq_true, beq_iff_eq, beq_iff_eq]

/-- R102 as a conjunction of ranges. -/
theorem diffOk_iff {c : Byte} {q p : Pixel} :
    diffOk c q p = true ↔
      (c = 3 ∨ q.a = p.a) ∧ (-2 ≤ wd q.r p.r ∧ wd q.r p.r ≤ 1) ∧ (-2 ≤ wd q.g p.g ∧ wd q.g p.g ≤ 1) ∧
        (-2 ≤ wd q.b p.b ∧ wd q.b p.b ≤ 1) := by
  simp only [diffOk, delta, Bool.and_eq_true, within_iff, alphaSame_iff, and_assoc]

/-- R103 as a conjunction of ranges. -/
theorem lumaOk_iff {c : Byte} {q p : Pixel} :
    lumaOk c q p = true ↔
      (c = 3 ∨ q.a = p.a) ∧ (-32 ≤ wd q.g p.g ∧ wd q.g p.g ≤ 31) ∧
        (-8 ≤ wd q.r p.r - wd q.g p.g ∧ wd q.r p.r - wd q.g p.g ≤ 7) ∧
        (-8 ≤ wd q.b p.b - wd q.g p.g ∧ wd q.b p.b - wd q.g p.g ≤ 7) := by
  simp only [lumaOk, delta, Bool.and_eq_true, within_iff, alphaSame_iff, and_assoc]

/-- A range strictly between -128 and 128 holds neither reading of the boundary difference (R106). -/
theorem range_iff_of_boundary {w d lo hi : Int} (hd : d = w ∨ (w = -128 ∧ d = 128)) (hlo : -128 < lo) (hhi : hi < 128) :
    (lo ≤ w ∧ w ≤ hi) ↔ (lo ≤ d ∧ d ≤ hi) := by
  rcases hd with rfl | ⟨rfl, rfl⟩
  · exact Iff.rfl
  · omega

/-- Less a green delta `g` that LUMA admits, both readings of the boundary difference are far outside [-8, 7] (R106). -/
theorem sub_range_iff_of_boundary {w d g : Int} (hd : d = w ∨ (w = -128 ∧ d = 128)) (hg : -32 ≤ g ∧ g ≤ 31) :
    (-8 ≤ w - g ∧ w - g ≤ 7) ↔ (-8 ≤ d - g ∧ d - g ≤ 7) := by
  rcases hd with rfl | ⟨rfl, rfl⟩
  · exact Iff.rfl
  · omega

/-! ### The pixel rebuilt -/

theorem eqC_iff {c : Byte} {p q : Pixel} :
    eqC c p q = true ↔ p.r = q.r ∧ p.g = q.g ∧ p.b = q.b ∧ (c = 3 ∨ p.a = q.a) := by
  simp only [eqC, Bool.and_eq_true, Bool.or_eq_true, beq_iff_eq, and_assoc]

/-- The deltas of a pixel added to the one before rebuild its colors, and alpha is kept (R105, R166). -/
theorem diffPixel_wd (q p : Pixel) :
    diffPixel p (wd q.r p.r) (wd q.g p.g) (wd q.b p.b) = { q with a := p.a } := by
  simp only [diffPixel, add8_wd]

/-- LUMA adds the green delta back before it reduces: its sums are the deltas themselves (R105, R168). -/
theorem lumaPixel_wd (q p : Pixel) :
    lumaPixel p (wd q.g p.g) (wd q.r p.r - wd q.g p.g) (wd q.b p.b - wd q.g p.g) = { q with a := p.a } := by
  simp only [lumaPixel, add_sub_cancel, add8_wd]

theorem eqC_with_alpha {c : Byte} {q p : Pixel} (ha : c = 3 ∨ q.a = p.a) : eqC c { q with a := p.a } q = true :=
  eqC_iff.mpr ⟨rfl, rfl, rfl, ha.imp_right Eq.symm⟩

end Sys2Proof.Machine

open Sys2Proof Sys2Proof.Machine

/-- Settles O11: the operands of an eligible pixel come back from the decoder, and added to the previous pixel they rebuild
it but for the alpha lane, which eligibility says is the same or no part of the pixel. -/
theorem deltaChunksRebuildPixel : Obligations.DeltaChunksRebuildPixel := by
  unfold Obligations.DeltaChunksRebuildPixel
  refine ⟨add8_wd, fun c q p rest hok => ?diff, fun c q p rest hok => ?luma⟩
  case diff =>
    obtain ⟨ha, hr, hg, hb⟩ := diffOk_iff.mp hok
    refine ⟨_, _, _, decode_encode_diff hr hg hb rest, ?_⟩
    rw [diffPixel_wd]
    exact eqC_with_alpha ha
  case luma =>
    obtain ⟨ha, hg, hrg, hbg⟩ := lumaOk_iff.mp hok
    refine ⟨_, _, _, decode_encode_luma hg hrg hbg rest, ?_⟩
    rw [lumaPixel_wd]
    exact eqC_with_alpha ha

/-- Settles O12: range by range; under LUMA the green range comes first, and inside it green has one reading. -/
theorem boundaryDeltaNeverSelects : Obligations.BoundaryDeltaNeverSelects := by
  unfold Obligations.BoundaryDeltaNeverSelects
  intro c q p dr dg db hr hg hb
  constructor
  · rw [diffOk_iff, range_iff_of_boundary hr (by decide) (by decide), range_iff_of_boundary hg (by decide) (by decide),
      range_iff_of_boundary hb (by decide) (by decide)]
  · rw [lumaOk_iff, range_iff_of_boundary hg (by decide) (by decide)]
    refine and_congr_right fun _ => and_congr_right fun hgreen => ?_
    have hdg : dg = wd q.g p.g := by omega
    rw [← hdg]
    exact and_congr (sub_range_iff_of_boundary hr hgreen) (sub_range_iff_of_boundary hb hgreen)

/-- Settles O9: the formula is the definition; its range, its congruence and equal channels by the lemmas on `wd`. -/
theorem wraparoundDelta : Obligations.WraparoundDelta := by
  unfold Obligations.WraparoundDelta
  refine ⟨fun c p => ?_, by decide, by decide, by decide, by decide, wd_self⟩
  obtain ⟨hlo, hhi⟩ := wd_range c p
  exact ⟨rfl, hlo, hhi, wd_congr c p⟩

/-- Settles O10: the value of `add8` for all integers, and the rule's two examples evaluated. -/
theorem additionModulo256 : Obligations.AdditionModulo256 := by
  unfold Obligations.AdditionModulo256
  exact ⟨add8_toNat, by decide, by decide⟩
end

