-- ==== Sys2Proof/Proofs/ColorCache.lean ====
section
/-! The recent-color cache (R120 to R124): the slot's hash for each channel count, what an update leaves in every slot,
and when a lookup hits or misses. -/

namespace Sys2Proof.Machine

/-! ### The hash -/

theorem hashSum_three (p : Pixel) : hashSum 3 p = p.r.toNat * 3 + p.g.toNat * 5 + p.b.toNat * 7 := rfl

theorem hashSum_four (p : Pixel) :
    hashSum 4 p = p.r.toNat * 3 + p.g.toNat * 5 + p.b.toNat * 7 + p.a.toNat * 11 := rfl

/-- R120: 26 times the largest byte. -/
theorem hashSum_four_le (p : Pixel) : hashSum 4 p ≤ 6630 := by
  have hr := p.r.isLt
  have hg := p.g.isLt
  have hb := p.b.isLt
  have ha := p.a.isLt
  rw [hashSum_four]
  omega

theorem indexOf_val (c : Byte) (p : Pixel) : (indexOf c p).val = hashSum c p % 64 := rfl

/-! ### The update -/

/-- R122: what an update leaves in each slot. -/
theorem slot_update (c : Byte) (k : Cache) (p : Pixel) (i : Fin 64) :
    slot (update c k p) i = if i = indexOf c p then p else slot k i := by
  split
  case isTrue hown =>
    rw [hown, slot_update_same]
  case isFalse hother =>
    exact slot_update_other c k p hother

/-- R122: the write of a pixel its slot already holds, lanes and all. -/
theorem update_of_slot_eq {c : Byte} {k : Cache} {p : Pixel} (h : slot k (indexOf c p) = p) : update c k p = k := by
  have hset : k.set (indexOf c p) (slot k (indexOf c p)) = k := Vector.set_getElem_self (indexOf c p).isLt
  rw [h] at hset
  exact hset

/-! ### The lookup -/

@[simp] theorem eqC_self (c : Byte) (p : Pixel) : eqC c p p = true :=
  eqC_iff.mpr ⟨rfl, rfl, rfl, .inr rfl⟩

/-- R121: a hit names the pixel's own slot, and no other. -/
theorem lookup_eq_some_iff {c : Byte} {k : Cache} {p : Pixel} {i : Fin 64} :
    lookup c k p = some i ↔ i = indexOf c p ∧ eqC c (slot k (indexOf c p)) p = true := by
  rw [lookup, Option.ite_none_right_eq_some, Option.some_inj, and_comm, eq_comm]

theorem lookup_eq_none_iff {c : Byte} {k : Cache} {p : Pixel} :
    lookup c k p = none ↔ eqC c (slot k (indexOf c p)) p = false := by
  rw [lookup, ite_eq_right_iff, ← Bool.not_eq_true]
  exact forall_congr' fun _ => iff_false_intro (Option.some_ne_none _)

/-- R121: the pixel's own slot is all of the cache that a lookup depends on. -/
theorem lookup_congr {c : Byte} {k k' : Cache} {p : Pixel} (h : slot k (indexOf c p) = slot k' (indexOf c p)) :
    lookup c k p = lookup c k' p := by
  rw [lookup, lookup, h]

/-- R124: a lookup sees the update before it. -/
theorem lookup_update_same (c : Byte) (k : Cache) (p : Pixel) : lookup c (update c k p) p = some (indexOf c p) := by
  refine lookup_eq_some_iff.mpr ⟨rfl, ?_⟩
  rw [slot_update_same, eqC_self]

theorem lookup_update_other {c : Byte} {p q : Pixel} (k : Cache) (h : indexOf c q ≠ indexOf c p) :
    lookup c (update c k p) q = lookup c k q :=
  lookup_congr (slot_update_other c k p h)

end Sys2Proof.Machine

open Sys2Proof Sys2Proof.Machine

/-- Settles O13: the hash sum of each channel count, reduced, and the bound of the one with alpha. -/
theorem slotHash : Obligations.SlotHash := by
  unfold Obligations.SlotHash
  intro p
  rw [indexOf_val, indexOf_val, hashSum_three, hashSum_four]
  exact ⟨rfl, rfl, hashSum_four_le p⟩

/-- Settles O14: each slot after the write, and the write of what stands there already. -/
theorem updateWritesOwnSlot : Obligations.UpdateWritesOwnSlot := by
  unfold Obligations.UpdateWritesOwnSlot
  exact fun c k p => ⟨slot_update c k p, update_of_slot_eq⟩

/-- Settles O15: the lookup after an update, on the same slot and on another, and when it hits and misses. -/
theorem lookupSeesUpdate : Obligations.LookupSeesUpdate := by
  unfold Obligations.LookupSeesUpdate
  exact fun c k p q =>
    ⟨lookup_update_same c k p, lookup_update_other k, fun _ => lookup_eq_some_iff, lookup_eq_none_iff⟩
end

