-- ==== Sys2Proof/Proofs/Framing.lean ====
section
/-! The framing items (R140 to R144, R210): the encoder's HEADER and TAIL steps as what an emission answers, the decoder's
as what a fetch of the source answers. -/

namespace Sys2Proof.Machine

/-! ### Refused accesses -/

/-- A stopped access inside system memory is the platform's refusal (R269). -/
theorem eq_busError_of_access {p : Platform} {a : Nat} {k : AccessKind} {e : Stop} (ha : a < Config.addressEnd)
    (h : access p a k = .error e) : e = .raise .busError := by
  rcases access_eq_error.mp h with ⟨hout, _⟩ | ⟨_, _, he⟩
  · omega
  · exact he

theorem loadBytes_of_canRead {s : State} {a n : Nat} (h : s.CanRead a n) :
    loadBytes s a n = .ok (s.mem.readBytes a n) :=
  loadBytes_eq_ok.mpr ⟨h, rfl⟩

/-- R269: one refused byte, and the read raises BUS_ERROR. -/
theorem loadBytes_of_refused {s : State} {a n : Nat} (hend : a + n ≤ Config.addressEnd)
    (hdeny : ∃ j, j < n ∧ s.platform.memOk (a + j) .read = false) : loadBytes s a n = .error (.raise .busError) := by
  obtain ⟨j, hj, hno⟩ := hdeny
  cases hload : loadBytes s a n with
  | ok bs =>
    have hyes := ((loadBytes_eq_ok.mp hload).1 j hj).2
    simp [hno] at hyes
  | error e =>
    obtain ⟨i, hi, hstop⟩ := loadBytes_eq_error hload
    rw [eq_busError_of_access (by omega) hstop]

/-! ### What an emission answers (R196) -/

theorem emit_of_noRoom {s : State} {bs : List Byte} (hcap : s.dstCap.toNat < s.wp + bs.length) :
    emit s bs = .error (.raise .capacityExceeded) := by
  rw [emit, require_of_false (decide_eq_false (by omega)), error_bind]

theorem emit_of_canWrite {s : State} {bs : List Byte} (hcap : s.wp + bs.length ≤ s.dstCap.toNat)
    (hw : s.CanWrite (s.dstBase.toNat + s.wp) bs.length) :
    emit s bs = .ok { s with mem := s.mem.writeBytes (s.dstBase.toNat + s.wp) bs, wp := s.wp + bs.length } :=
  emit_eq_ok.mpr ⟨hcap, hw, rfl⟩

/-- R269: one refused byte, and the emission raises BUS_ERROR. -/
theorem emit_of_refused {s : State} {bs : List Byte} (hcap : s.wp + bs.length ≤ s.dstCap.toNat)
    (hend : s.dstBase.toNat + s.wp + bs.length ≤ Config.addressEnd)
    (hdeny : ∃ j, j < bs.length ∧ s.platform.memOk (s.dstBase.toNat + s.wp + j) .write = false) :
    emit s bs = .error (.raise .busError) := by
  obtain ⟨j, hj, hno⟩ := hdeny
  cases hemit : emit s bs with
  | ok t =>
    obtain ⟨_, hw, _⟩ := emit_eq_ok.mp hemit
    have hyes := (hw j hj).2
    simp [hno] at hyes
  | error e =>
    rcases emit_eq_error hemit with ⟨hfull, _⟩ | ⟨_, i, hi, hstop⟩
    · omega
    · rw [eq_busError_of_access (by omega) hstop]

/-! ### What a step answers -/

section
variable (s : State)

@[simp] theorem settle_ok (t : State) : settle s (.ok t) = .next t := rfl

@[simp] theorem settle_raise (c : ErrCode) : settle s (.error (.raise c)) = .next (s.raise c) := rfl

@[simp] theorem runFetched_ok (i : Instr) : runFetched s (.ok i) = exec i s := rfl

@[simp] theorem runFetched_raise (c : ErrCode) : runFetched s (.error (.raise c)) = .next (s.raise c) := rfl

/-- A check, then the rest: the check's own error ends the step (R262). -/
theorem settle_require_bind (b : Bool) (c : ErrCode) (f : Unit → Except Stop State) :
    settle s (require b c >>= f) = if b then settle s (f ()) else .next (s.raise c) := by
  cases b <;> rfl

/-- R196, R269: a step that is an emission and then an update, in each case of the emission. -/
theorem settle_emit_bind (bs : List Byte) (finish : State → State) :
    (s.dstCap.toNat < s.wp + bs.length →
      settle s (emit s bs >>= fun t => pure (finish t)) = .next (s.raise .capacityExceeded)) ∧
    (s.wp + bs.length ≤ s.dstCap.toNat → s.CanWrite (s.dstBase.toNat + s.wp) bs.length →
      settle s (emit s bs >>= fun t => pure (finish t)) = .next (finish { s with
        mem := s.mem.writeBytes (s.dstBase.toNat + s.wp) bs, wp := s.wp + bs.length })) ∧
    (s.wp + bs.length ≤ s.dstCap.toNat → s.dstBase.toNat + s.wp + bs.length ≤ Config.addressEnd →
      (∃ j, j < bs.length ∧ s.platform.memOk (s.dstBase.toNat + s.wp + j) .write = false) →
      settle s (emit s bs >>= fun t => pure (finish t)) = .next (s.raise .busError)) := by
  refine ⟨fun hcap => ?_, fun hcap hw => ?_, fun hcap hend hdeny => ?_⟩
  · rw [emit_of_noRoom hcap, error_bind, settle_raise]
  · rw [emit_of_canWrite hcap hw, ok_bind, pure_eq_ok, settle_ok]
  · rw [emit_of_refused hcap hend hdeny, error_bind, settle_raise]

/-- The success completion, field by field (R247): with DONE set the interrupt line is IRQ_EN (R44). -/
theorem State.complete_eq :
    s.complete = { s with status := ⟨false, true, s.status.err⟩, irq := s.ctrl.irqEn, phase := .idle } := by
  simp [State.complete, State.setFlags, irqLevel]

end

/-! ### Which framing step runs -/

theorem step_encHeader {s : State} (hh : s.host = []) (hp : s.phase = .header) (ho : s.op = .enc) :
    step s = settle s (encHeader s) := by
  rw [step_of_no_host hh, engineStep_encHeader hp ho]

theorem step_encTail {s : State} (hh : s.host = []) (hp : s.phase = .tail) (ho : s.op = .enc) :
    step s = settle s (encTail s) := by
  rw [step_of_no_host hh, engineStep_encTail hp ho]

theorem step_decHeader {s : State} (hh : s.host = []) (hp : s.phase = .header) (ho : s.op = .dec) :
    step s = runFetched s (fetchHeader s) := by
  rw [step_of_no_host hh, engineStep_decHeader hp ho]

theorem step_decTail {s : State} (hh : s.host = []) (hp : s.phase = .tail) (ho : s.op = .dec) :
    step s = runFetched s (fetchMarker s) := by
  rw [step_of_no_host hh, engineStep_decTail hp ho]

/-! ### The header's bytes -/

theorem encode_hdr (w h : Word) (c cs : Byte) :
    encode (.hdr w h c cs) =
      [0x71, 0x6F, 0x69, 0x66,
       BitVec.ofNat 8 (w.toNat / 2 ^ 24), BitVec.ofNat 8 (w.toNat / 2 ^ 16), BitVec.ofNat 8 (w.toNat / 2 ^ 8),
       BitVec.ofNat 8 w.toNat,
       BitVec.ofNat 8 (h.toNat / 2 ^ 24), BitVec.ofNat 8 (h.toNat / 2 ^ 16), BitVec.ofNat 8 (h.toNat / 2 ^ 8),
       BitVec.ofNat 8 h.toNat, c, cs] := by
  obtain ⟨_, _, _, _, _, hhdr, _⟩ := serializedBytes
  exact hhdr w h c cs

/-! ### The decoder's fetches, one equation for each case -/

theorem fetchHeader_of_short {s : State} (h : s.srcLen.toNat < 14) :
    fetchHeader s = .error (.raise .truncatedStream) := by
  rw [fetchHeader, require_of_false (decide_eq_false (Nat.not_le.mpr h)), error_bind]

/-- R141: with fourteen bytes in the stream, the fetch is their read, then the decoder. -/
theorem fetchHeader_of_long {s : State} (h : 14 ≤ s.srcLen.toNat) :
    fetchHeader s = loadBytes s s.srcBase.toNat 14 >>= decodeFetched .header := by
  rw [fetchHeader, require_of_true (decide_eq_true h), ok_bind]

theorem fetchMarker_of_ne {s : State} (h : s.srcLen.toNat ≠ s.rp + 8) :
    fetchMarker s = .error (.raise .missingEndMarker) := by
  rw [fetchMarker, require_of_false (decide_eq_false h), error_bind]

/-- R144: with exactly eight bytes left, the fetch is their read, then the decoder. -/
theorem fetchMarker_of_eq {s : State} (h : s.srcLen.toNat = s.rp + 8) :
    fetchMarker s = loadBytes s (s.srcBase.toNat + s.rp) 8 >>= decodeFetched .tail := by
  rw [fetchMarker, require_of_true (decide_eq_true h), ok_bind]

theorem decodeFetched_of_instr {p : Place} {bs rest : List Byte} {i : Instr} (h : decode p bs = .instr i rest) :
    decodeFetched p bs = .ok i := decodeFetched_eq_ok.mpr ⟨rest, h⟩

theorem decodeFetched_of_reject {p : Place} {bs : List Byte} {d : DecodeError} (h : decode p bs = .reject d) :
    decodeFetched p bs = .error (.raise (rejectCode d)) := by
  rw [decodeFetched, h]

/-- R90, R144: eight bytes are the marker's, or MISSING_END_MARKER. -/
theorem decodeFetched_tail {bs : List Byte} (h : bs.length = 8) :
    decodeFetched .tail bs =
      if bs = [0, 0, 0, 0, 0, 0, 0, 1] then .ok .endMarker else .error (.raise .missingEndMarker) := by
  have hdec := decodeMarker_of_length h
  split
  case isTrue hm => exact decodeFetched_of_instr (hdec.trans (if_pos hm))
  case isFalse hm => exact decodeFetched_of_reject (hdec.trans (if_neg hm))

/-- R142 check 1, R89: fourteen bytes are the header they spell, or BAD_MAGIC. -/
theorem decodeFetched_header (m0 m1 m2 m3 w3 w2 w1 w0 h3 h2 h1 h0 c cs : Byte) :
    decodeFetched .header [m0, m1, m2, m3, w3, w2, w1, w0, h3, h2, h1, h0, c, cs] =
      if m0 = 0x71 ∧ m1 = 0x6F ∧ m2 = 0x69 ∧ m3 = 0x66 then
        .ok (.hdr (beWord w3 w2 w1 w0) (beWord h3 h2 h1 h0) c cs)
      else .error (.raise .badMagic) := by
  have hmagic : [m0, m1, m2, m3] = magicBytes ↔ m0 = 0x71 ∧ m1 = 0x6F ∧ m2 = 0x69 ∧ m3 = 0x66 := by simp [magicBytes]
  split
  case isTrue hm => exact decodeFetched_of_instr (if_pos (hmagic.mpr hm))
  case isFalse hm => exact decodeFetched_of_reject (d := .badMagic) (if_neg (mt hmagic.mp hm))

theorem readBytes_eq_map (m : Memory) (a n : Nat) : m.readBytes a n = (List.range n).map fun k => m.read (a + k) := by
  induction n generalizing a with
  | zero => rfl
  | succ n ih =>
    rw [readBytes_succ, ih, List.range_succ_eq_map, List.map_cons, List.map_map]
    simp [Function.comp_def, Nat.add_assoc, Nat.add_comm 1]

/-! ### The header's meaning -/

/-- R142 checks 2 to 4, R210's capacity check, in their order, then the initialisation. -/
theorem exec_hdr_eq (w h : Word) (c cs : Byte) (s : State) :
    exec (.hdr w h c cs) s = .next (
      if ¬(c = 3 ∨ c = 4) then s.raise .invalidChannels
      else if ¬(cs = 0 ∨ cs = 1) then s.raise .invalidColorspace
      else if w.toNat = 0 ∨ h.toNat = 0 then s.raise .zeroDimension
      else if s.dstCap.toNat < w.toNat * h.toNat * c.toNat then s.raise .capacityExceeded
      else s.beginDecode w h c cs) := by
  have hzero (v : Word) : v.toNat = 0 ↔ v = 0 := by rw [← BitVec.toNat_inj]; rfl
  simp only [exec, execHdr, settle_require_bind, pure_eq_ok, settle_ok, Bool.or_eq_true, Bool.and_eq_true, beq_iff_eq,
    bne_iff_ne, decide_eq_true_eq, hzero, ne_eq, ← not_or, ← Nat.not_le, ite_not,
    apply_ite (Host.Outcome.next (φ := Fault) (ρ := Refusal))]

end Sys2Proof.Machine

open Sys2Proof Sys2Proof.Machine

/-- Settles O32: the step is the emission of the header's fourteen bytes, then PHASE BODY. -/
theorem encoderHeaderStep : Obligations.EncoderHeaderStep := by
  unfold Obligations.EncoderHeaderStep
  intro s hhost hphase hop
  rw [step_encHeader hhost hphase hop, encHeader, ← encode_hdr]
  exact settle_emit_bind s (encode (.hdr s.lw s.lh s.lc s.lcs)) fun t => { t with phase := .body }

/-- Settles O36: the step is the emission of the marker's eight bytes, then the success completion with OUT_LEN. -/
theorem encoderTailStep : Obligations.EncoderTailStep := by
  unfold Obligations.EncoderTailStep
  intro s hhost hphase hop
  rw [step_encTail hhost hphase hop]
  simp only [encTail, State.complete_eq]
  exact settle_emit_bind s (encode .endMarker) fun t =>
    { t with outLen := BitVec.ofNat 32 t.wp, status := ⟨false, true, t.status.err⟩, irq := t.ctrl.irqEn
             phase := .idle }

/-- Settles O37: the fetch of the stream's first fourteen bytes, the decoder's check of the magic, then the checks and
the initialisation of the header's meaning. -/
theorem decoderHeaderStep : Obligations.DecoderHeaderStep := by
  unfold Obligations.DecoderHeaderStep
  intro s h w ht hhost hphase hop hbytes hw hht
  rw [step_decHeader hhost hphase hop]
  refine ⟨fun hshort => ?_, fun hlong hend hdeny => ?_, fun hlong hread => ?_⟩
  · rw [fetchHeader_of_short hshort, runFetched_raise]
  · rw [fetchHeader_of_long hlong, loadBytes_of_refused hend hdeny, error_bind, runFetched_raise]
  · have hfetch : s.mem.readBytes s.srcBase.toNat 14 =
        [h 0, h 1, h 2, h 3, h 4, h 5, h 6, h 7, h 8, h 9, h 10, h 11, h 12, h 13] := by
      rw [readBytes_eq_map]
      simp only [← hbytes]
      rfl
    rw [← beWord_toNat] at hw hht
    subst hw hht
    rw [fetchHeader_of_long hlong, loadBytes_of_canRead hread, ok_bind, hfetch, decodeFetched_header, ite_not]
    split
    case isFalse => exact runFetched_raise s .badMagic
    case isTrue =>
      rw [runFetched_ok, exec_hdr_eq, BitVec.ofNat_toNat, BitVec.ofNat_toNat, BitVec.setWidth_eq, BitVec.setWidth_eq]
      rfl

/-- Settles O39: the fetch of the last eight bytes, the decoder's comparison, then the marker's meaning. -/
theorem decoderTailStep : Obligations.DecoderTailStep := by
  unfold Obligations.DecoderTailStep
  intro s hhost hphase hop
  rw [step_decTail hhost hphase hop]
  refine ⟨fun hlen => ?_, fun hlen hread hbad => ?_, fun hlen hend hdeny => ?_, fun hlen hread hmarker => ?_⟩
  · rw [fetchMarker_of_ne hlen, runFetched_raise]
  · rw [fetchMarker_of_eq hlen, loadBytes_of_canRead hread, ok_bind,
      decodeFetched_tail (Memory.readBytes_length _ _ _), if_neg hbad, runFetched_raise]
  · rw [fetchMarker_of_eq hlen, loadBytes_of_refused hend hdeny, error_bind, runFetched_raise]
  · rw [fetchMarker_of_eq hlen, loadBytes_of_canRead hread, ok_bind,
      decodeFetched_tail (Memory.readBytes_length _ _ _), if_pos hmarker, runFetched_ok, exec, execEndMarker,
      State.complete_eq]
    rfl
end

section
/-! The encoder (R190 to R199): no step of an encode faults, what one BODY step answers, and by induction over the pixels
left the end of a whole encode and the bytes it has written. -/

namespace Sys2Proof.Machine

/-! ### An encode in progress -/

/-- An encode past its CHECK step with nothing from the host: what its steps rest on and leave as it is. -/
structure State.EncodeOpen (s : State) : Prop where
  host : s.host = []
  op : s.op = .enc
  channels : s.lc = 3 ∨ s.lc = 4
  /-- R243 check 5. -/
  source : s.srcLen.toNat = s.npix * s.lc.toNat
  /-- R244. -/
  regions : s.regionsOk = true
  pixels : s.pix ≤ s.npix

/-- R244 as arithmetic: both regions lie in system memory, and no byte is in both. -/
theorem State.regionsOk_iff {s : State} :
    s.regionsOk = true ↔
      s.srcBase.toNat + s.srcLen.toNat ≤ Config.addressEnd ∧ s.dstBase.toNat + s.dstCap.toNat ≤ Config.addressEnd ∧
      (s.srcLen.toNat = 0 ∨ s.dstCap.toNat = 0 ∨ s.dstBase.toNat + s.dstCap.toNat ≤ s.srcBase.toNat ∨
        s.srcBase.toNat + s.srcLen.toNat ≤ s.dstBase.toNat) := by
  simp only [State.regionsOk, Bool.and_eq_true, Bool.not_eq_true', Bool.and_eq_false_iff, decide_eq_true_eq,
    decide_eq_false_iff_not]
  omega

/-- R243: the checks that an encode has passed. -/
theorem State.validateEncode_eq_ok {s : State} {u : Unit} :
    s.validateEncode = .ok u ↔
      (s.imgFormat.channels = 3 ∨ s.imgFormat.channels = 4) ∧
      (s.imgFormat.colorspace = 0 ∨ s.imgFormat.colorspace = 1) ∧ (s.imgWidth ≠ 0 ∧ s.imgHeight ≠ 0) ∧ s.srcLen ≠ 0 ∧
      s.srcLen.toNat = s.imgWidth.toNat * s.imgHeight.toNat * s.imgFormat.channels.toNat := by
  simp only [State.validateEncode, bind_eq_ok, require_eq_ok, Bool.or_eq_true, Bool.and_eq_true, beq_iff_eq,
    bne_iff_ne, decide_eq_true_eq, exists_const, ne_eq]

/-- R190: the encode a passed CHECK step begins. -/
theorem State.EncodeOpen.of_beginEncode {s : State} (hhost : s.host = []) {u : Unit} (hv : s.validateEncode = .ok u)
    (hr : s.regionsOk = true) : s.beginEncode.EncodeOpen := by
  obtain ⟨hc, _, _, _, hlen⟩ := State.validateEncode_eq_ok.mp hv
  exact ⟨hhost, rfl, hc, hlen, hr, Nat.zero_le _⟩

/-- A source pixel lies in the source region. -/
theorem State.EncodeOpen.srcPixel_le {s : State} (h : s.EncodeOpen) {i : Nat} (hi : i < s.npix) :
    s.srcPixel i + s.lc.toNat ≤ s.srcBase.toNat + s.srcLen.toNat := by
  have hmul : (i + 1) * s.lc.toNat ≤ s.npix * s.lc.toNat := Nat.mul_le_mul_right _ hi
  rw [h.source, State.srcPixel]
  rw [Nat.succ_mul] at hmul
  omega

/-! ### No step of an encode faults -/

/-- A stop that is an error ending, not a fault of the model. -/
def Stop.IsRaise (e : Stop) : Prop := ∃ c, e = .raise c

/-- A step whose stops are all error endings answers a next state. -/
theorem settle_answers {s : State} {x : Except Stop State} (h : ∀ e, x = .error e → e.IsRaise) :
    ∃ t, settle s x = .next t := by
  cases x with
  | ok t => exact ⟨t, rfl⟩
  | error e =>
    obtain ⟨c, rfl⟩ := h e rfl
    exact ⟨s.raise c, rfl⟩

section
variable {s : State} (h : s.EncodeOpen) {e : Stop}
include h

theorem emit_error_isRaise {bs : List Byte} (he : emit s bs = .error e) : e.IsRaise := by
  obtain ⟨_, hdst, _⟩ := State.regionsOk_iff.mp h.regions
  rcases emit_eq_error he with ⟨_, rfl⟩ | ⟨hroom, i, hi, hstop⟩
  · exact ⟨_, rfl⟩
  · exact ⟨_, eq_busError_of_access (by omega) hstop⟩

theorem loadPixel_error_isRaise {i : Nat} (hi : i < s.npix) (he : loadPixel s i = .error e) : e.IsRaise := by
  obtain ⟨hsrc, _, _⟩ := State.regionsOk_iff.mp h.regions
  obtain ⟨j, hj, hstop⟩ := loadPixel_eq_error h.channels he
  have hle := h.srcPixel_le hi
  exact ⟨_, eq_busError_of_access (by omega) hstop⟩

/-- Of a step that emits and then updates, only the emission stops. -/
theorem emit_bind_error_isRaise {bs : List Byte} {finish : State → State}
    (he : (emit s bs >>= fun t => pure (finish t)) = .error e) : e.IsRaise := by
  rcases bind_eq_error.mp he with he | ⟨_, _, he⟩
  · exact emit_error_isRaise h he
  · cases he

theorem encRun_error_isRaise {p : Pixel} (he : encRun s p = .error e) : e.IsRaise := by
  rcases bind_eq_error.mp he with he | ⟨n, _, he⟩
  · obtain ⟨i, hi, he⟩ := runScan_eq_error he
    exact loadPixel_error_isRaise h hi he
  · exact emit_bind_error_isRaise h he

theorem encBody_error_isRaise (he : encBody s = .error e) : e.IsRaise := by
  have hle := h.pixels
  unfold encBody at he
  split at he
  case isTrue => cases he
  case isFalse hne =>
    rcases bind_eq_error.mp he with he | ⟨p, _, he⟩
    · exact loadPixel_error_isRaise h (by omega) he
    · split at he
      · exact encRun_error_isRaise h he
      · exact emit_bind_error_isRaise h he

/-- Every step of an encode past CHECK answers a next state, one of those that an engine step can answer. -/
theorem State.EncodeOpen.step_answers (hp : s.phase.working) : ∃ t, step s = .next t ∧ EngineNext s t := by
  obtain ⟨t, ht⟩ : ∃ t, engineStep s = .next t := by
    rcases hp with hp | hp | hp
    · rw [engineStep_encHeader hp h.op]
      exact settle_answers fun _ he => emit_bind_error_isRaise h he
    · rw [engineStep_encBody hp h.op]
      exact settle_answers fun _ => encBody_error_isRaise h
    · rw [engineStep_encTail hp h.op]
      exact settle_answers fun _ he => emit_bind_error_isRaise h he
  exact ⟨t, (step_of_no_host h.host).trans ht, engineStep_next (fun _ => h.channels) (fun _ => h.pixels) ht⟩

end

theorem State.validateEncode_error_isRaise {s : State} {e : Stop} (h : s.validateEncode = .error e) : e.IsRaise := by
  simp only [State.validateEncode, bind_eq_error, require_eq_error] at h
  rcases h with ⟨_, he⟩ | ⟨_, _, ⟨_, he⟩ | ⟨_, _, ⟨_, he⟩ | ⟨_, _, ⟨_, he⟩ | ⟨_, _, _, he⟩⟩⟩⟩ <;> exact ⟨_, he⟩

theorem State.Inv.busy_of_check {s : State} (h : s.Inv) (hp : s.phase = .check) : s.status.busy = true := by
  rw [← Bool.not_eq_false, ← h.busyPhase, hp]
  decide

/-- R190: the CHECK step of an encode whose checks pass. -/
theorem step_beginEncode {s : State} (hhost : s.host = []) (hp : s.phase = .check) (hcmd : s.ctrl.cmd = 0) {u : Unit}
    (hv : s.validateEncode = .ok u) (hr : s.regionsOk = true) : step s = .next s.beginEncode := by
  rw [step_of_no_host hhost, engineStep_check hp, checkStep, if_pos hcmd, hv, ok_bind, settle_require_bind, if_pos hr]
  rfl

/-- The CHECK step of an encode: an error ending, or R190 with R243 and R244 passed. -/
theorem step_check_encode {s : State} (hhost : s.host = []) (hp : s.phase = .check) (hcmd : s.ctrl.cmd = 0) :
    (∃ c, step s = .next (s.raise c)) ∨
      step s = .next s.beginEncode ∧ s.validateEncode = .ok () ∧ s.regionsOk = true := by
  cases hv : s.validateEncode with
  | ok u =>
    by_cases hr : s.regionsOk = true
    · exact .inr ⟨step_beginEncode hhost hp hcmd hv hr, rfl, hr⟩
    · refine .inl ⟨.bufferFault, ?_⟩
      rw [step_of_no_host hhost, engineStep_check hp, checkStep, if_pos hcmd, hv, ok_bind, settle_require_bind,
        if_neg hr]
  | error e =>
    obtain ⟨c, rfl⟩ := State.validateEncode_error_isRaise hv
    refine .inl ⟨c, ?_⟩
    rw [step_of_no_host hhost, engineStep_check hp, checkStep, if_pos hcmd, hv]
    rfl

/-! ### One BODY step -/

/-- R194: what a pixel's chunk takes at most; RAW_RGBA is chosen with four channels only. -/
theorem selectChunk_length_le {c : Byte} (hc : c = 3 ∨ c = 4) (prev : Pixel) (k : Cache) (p : Pixel) :
    (selectChunk c prev k p).length ≤ c.toNat + 1 := by
  have hraw : (rawChunk c prev p).length ≤ c.toNat + 1 := by
    unfold rawChunk
    rcases hc with rfl | rfl
    · rw [if_pos (.inl rfl)]
      exact Nat.le_refl 4
    · split <;> simp [Instr.length]
  have h3 : 3 ≤ c.toNat := by rcases hc with rfl | rfl <;> decide
  unfold selectChunk
  split
  · simp [Instr.length]
  · split
    · simp [Instr.length]
    · split
      · simp only [Instr.length]
        omega
      · exact hraw

/-- The state after a BODY step that codes `n` pixels, the first of them `s.pixelAt s.pix`, in the chunk `i` (R192). -/
def State.afterChunk (s : State) (i : Instr) (n : Nat) (prev : Pixel) : State :=
  { s with
    mem := s.mem.writeBytes (s.dstBase.toNat + s.wp) (encode i), wp := s.wp + i.length
    cache := update s.lc s.cache (s.pixelAt s.pix), prev := prev, pix := s.pix + n }

theorem State.EncodeOpen.afterChunk {s : State} (h : s.EncodeOpen) (i : Instr) {n : Nat} (prev : Pixel)
    (hn : s.pix + n ≤ s.npix) : (s.afterChunk i n prev).EncodeOpen :=
  ⟨h.host, h.op, h.channels, h.source, h.regions, hn⟩

/-- The state after the HEADER step (R140). -/
def State.afterHeader (s : State) : State :=
  { s with
    mem := s.mem.writeBytes (s.dstBase.toNat + s.wp) (encode (.hdr s.lw s.lh s.lc s.lcs)), wp := s.wp + 14
    phase := .body }

theorem State.EncodeOpen.afterHeader {s : State} (h : s.EncodeOpen) : s.afterHeader.EncodeOpen :=
  ⟨h.host, h.op, h.channels, h.source, h.regions, h.pixels⟩

theorem State.EncodeOpen.withPhase {s : State} (h : s.EncodeOpen) (p : Phase) : { s with phase := p }.EncodeOpen :=
  ⟨h.host, h.op, h.channels, h.source, h.regions, h.pixels⟩

/-- R192, R199: a BODY step of an encode ends in error, ends the body, or codes a pixel or more in one chunk. -/
theorem encBody_next {s t : State} (hp : s.phase = .body) (ho : s.op = .enc) (hc : s.lc = 3 ∨ s.lc = 4)
    (h : EngineNext s t) :
    (∃ c, t = s.raise c) ∨ (s.pix = s.npix ∧ t = { s with phase := .tail }) ∨
      ∃ i n prev, i.length ≤ s.lc.toNat + 1 ∧ 1 ≤ n ∧ s.pix + n ≤ s.npix ∧ t = s.afterChunk i n prev := by
  cases h with
  | raised c => exact .inl ⟨c, rfl⟩
  | toTail _ he => exact .inr (.inl ⟨he, rfl⟩)
  | encRun n _ _ h1 _ hn => exact .inr (.inr ⟨.run n, n, s.prev, by simp [Instr.length], h1, hn, rfl⟩)
  | encPixel i _ _ hn _ hi =>
    exact .inr (.inr ⟨i, 1, s.pixelAt s.pix, hi ▸ selectChunk_length_le hc _ _ _, Nat.le_refl 1, hn, rfl⟩)
  | decChunk _ _ _ _ hdec => rw [ho] at hdec; cases hdec
  | rest hq | beginEncode hq | beginDecode hq | encHeader hq | encTail hq | decHeader _ _ _ _ hq | decTail hq =>
    rw [hp] at hq; cases hq

/-! ### The end of an encode (R199) -/

/-- Within `k` steps the operation ends, in DONE or ERR, with an `OUT_LEN` of at most `b`. -/
def State.EndsWithin (s : State) (k b : Nat) : Prop :=
  ∃ j t, j ≤ k ∧ core.run j s = .next t ∧ t.phase = .idle ∧ (t.status.done = true ∨ t.status.err = true) ∧
    t.outLen.toNat ≤ b

theorem State.EndsWithin.of_step {s u : State} {k b : Nat} (hstep : step s = .next u) (h : u.EndsWithin k b) :
    s.EndsWithin (k + 1) b := by
  obtain ⟨j, t, hj, hrun, hend⟩ := h
  exact ⟨j + 1, t, by omega, (run_of_next hstep).trans hrun, hend⟩

theorem State.EndsWithin.mono {s : State} {k k' b b' : Nat} (hk : k ≤ k') (hb : b ≤ b') (h : s.EndsWithin k b) :
    s.EndsWithin k' b' := by
  obtain ⟨j, t, hj, hrun, hidle, hflag, hout⟩ := h
  exact ⟨j, t, hj.trans hk, hrun, hidle, hflag, hout.trans hb⟩

theorem State.EndsWithin.of_raise {s : State} {c : ErrCode} {k b : Nat} (hstep : step s = .next (s.raise c))
    (hout : s.outLen = 0) : s.EndsWithin (k + 1) b := by
  refine .of_step hstep ⟨0, _, Nat.zero_le k, rfl, by simp, .inr (by simp), ?_⟩
  rw [State.raise_outLen, hout]
  exact Nat.zero_le b

theorem State.EncodeOpen.tail_endsWithin {s : State} (h : s.EncodeOpen) (hp : s.phase = .tail) (hout : s.outLen = 0) :
    s.EndsWithin 1 (s.wp + 8) := by
  obtain ⟨t, hstep, hnext⟩ := h.step_answers (.inr (.inr hp))
  cases hnext with
  | raised c => exact .of_raise hstep hout
  | encTail => exact .of_step hstep ⟨0, _, Nat.le_refl 0, rfl, rfl, .inl rfl, Nat.mod_le _ _⟩
  | decTail _ hdec => rw [h.op] at hdec; cases hdec
  | rest hq | beginEncode hq | beginDecode hq | toTail hq | encHeader hq | encRun _ hq | encPixel _ hq
  | decHeader _ _ _ _ hq | decChunk _ _ _ hq => rw [hp] at hq; cases hq

/-- R199's output bound, kept by a chunk: its bytes are paid by the first pixel it codes. -/
theorem written_afterChunk_le {s : State} {i : Instr} {n : Nat} (hw : s.wp ≤ 14 + s.pix * (s.lc.toNat + 1))
    (hi : i.length ≤ s.lc.toNat + 1) (hn : 1 ≤ n) : s.wp + i.length ≤ 14 + (s.pix + n) * (s.lc.toNat + 1) := by
  have hmul : 1 * (s.lc.toNat + 1) ≤ n * (s.lc.toNat + 1) := Nat.mul_le_mul_right _ hn
  rw [Nat.add_mul]
  omega

/-- R199, by induction on the pixels left: one step for each at most, then one that ends the body and the tail's. -/
theorem State.EncodeOpen.body_endsWithin {s : State} (h : s.EncodeOpen) (hp : s.phase = .body) (hout : s.outLen = 0)
    (hw : s.wp ≤ 14 + s.pix * (s.lc.toNat + 1)) :
    s.EndsWithin (s.npix - s.pix + 2) (14 + s.npix * (s.lc.toNat + 1) + 8) := by
  induction hm : s.npix - s.pix using Nat.strong_induction_on generalizing s with
  | _ m ih =>
    obtain ⟨t, hstep, hnext⟩ := h.step_answers (.inr (.inl hp))
    rcases encBody_next hp h.op h.channels hnext with ⟨c, rfl⟩ | ⟨heq, rfl⟩ | ⟨i, n, prev, hi, hn, hle, rfl⟩
    · exact .of_raise hstep hout
    · have htail := (h.withPhase .tail).tail_endsWithin rfl hout
      rw [heq] at hw
      exact .of_step hstep (htail.mono (by omega) (Nat.add_le_add_right hw 8))
    · have hbody := ih (s.npix - (s.pix + n)) (by omega) (h.afterChunk i prev hle) hp hout
        (written_afterChunk_le hw hi hn) rfl
      exact (State.EndsWithin.of_step hstep hbody).mono (by omega) (Nat.le_refl _)

/-- R199 from the HEADER step on. -/
theorem State.EncodeOpen.header_endsWithin {s : State} (h : s.EncodeOpen) (hp : s.phase = .header)
    (hout : s.outLen = 0) (hw : s.wp = 0) :
    s.EndsWithin (s.npix + 3) (14 + s.npix * (s.lc.toNat + 1) + 8) := by
  obtain ⟨t, hstep, hnext⟩ := h.step_answers (.inl hp)
  cases hnext with
  | raised c => exact .of_raise hstep hout
  | encHeader =>
    refine (State.EndsWithin.of_step hstep (h.afterHeader.body_endsWithin rfl hout ?_)).mono ?_ (Nat.le_refl _)
    · show s.wp + 14 ≤ _
      omega
    · exact Nat.add_le_add_right (Nat.sub_le s.npix s.pix) 3
  | decHeader _ _ _ _ _ hdec => rw [h.op] at hdec; cases hdec
  | rest hq | beginEncode hq | beginDecode hq | toTail hq | encRun _ hq | encPixel _ hq | encTail hq
  | decChunk _ _ _ hq | decTail hq => rw [hp] at hq; cases hq

/-! ### The source pixels left -/

/-- The source pixels from number `i` on (R63, R191). -/
def State.pixelsFrom (s : State) (i : Nat) : List Pixel := (List.range' i (s.npix - i)).map s.pixelAt

@[simp] theorem State.pixelsFrom_length (s : State) (i : Nat) : (s.pixelsFrom i).length = s.npix - i := by
  simp [State.pixelsFrom]

theorem State.pixelsFrom_of_lt {s : State} {i : Nat} (h : i < s.npix) :
    s.pixelsFrom i = s.pixelAt i :: s.pixelsFrom (i + 1) := by
  rw [State.pixelsFrom, State.pixelsFrom, show s.npix - i = s.npix - (i + 1) + 1 by omega, List.range'_succ,
    List.map_cons]

theorem State.pixelsFrom_of_le {s : State} {i : Nat} (h : s.npix ≤ i) : s.pixelsFrom i = [] := by
  rw [← List.length_eq_zero_iff, State.pixelsFrom_length]
  omega

theorem State.drop_pixelsFrom (s : State) (i n : Nat) : (s.pixelsFrom i).drop n = s.pixelsFrom (i + n) := by
  rw [State.pixelsFrom, State.pixelsFrom, ← List.map_drop, List.drop_range', Nat.mul_one, Nat.sub_sub]

/-- A source pixel is its own bytes. -/
theorem State.pixelAt_congr {s u : State} (hc : s.lc = 3 ∨ s.lc = 4) (hlc : u.lc = s.lc) (hb : u.srcBase = s.srcBase)
    {i : Nat} (h : ∀ k, k < s.lc.toNat → u.mem.read (s.srcPixel i + k) = s.mem.read (s.srcPixel i + k)) :
    u.pixelAt i = s.pixelAt i := by
  have hsrc : u.srcPixel i = s.srcPixel i := by rw [State.srcPixel, State.srcPixel, hlc, hb]
  have h3 : 3 ≤ s.lc.toNat := by rcases hc with hc | hc <;> rw [hc] <;> decide
  have h0 := h 0 (by omega)
  rw [Nat.add_zero] at h0
  rw [State.pixelAt, State.pixelAt, hsrc, hlc, h0, h 1 (by omega), h 2 (by omega)]
  rcases hc with hc | hc
  · simp [pixelOf, hc]
  · rw [h 3 (by rw [hc]; decide)]

/-- R191: the first pixel of a packed buffer without alpha. -/
theorem pixelsOf_of_ne_four {c : Byte} (hc : c ≠ 4) (r g b : Byte) (rest : List Byte) :
    pixelsOf c (r :: g :: b :: rest) = pixelOf c r g b 255 :: pixelsOf c rest := by
  cases rest <;> exact if_neg hc

/-- R191: the first pixel of a packed buffer with alpha. -/
theorem pixelsOf_of_eq_four {c : Byte} (hc : c = 4) (r g b a : Byte) (rest : List Byte) :
    pixelsOf c (r :: g :: b :: a :: rest) = pixelOf c r g b a :: pixelsOf c rest := if_pos hc

/-- R63, R191: source pixel `i` is what its own bytes at the head of a packed buffer give. -/
theorem pixelsOf_readBytes_append {s : State} (hc : s.lc = 3 ∨ s.lc = 4) (i : Nat) (rest : List Byte) :
    pixelsOf s.lc (s.mem.readBytes (s.srcPixel i) s.lc.toNat ++ rest) = s.pixelAt i :: pixelsOf s.lc rest := by
  rcases hc with hc | hc
  · have hne : s.lc ≠ 4 := by rw [hc]; decide
    rw [show s.lc.toNat = 3 by rw [hc]; rfl, State.pixelAt, pixelOf, if_neg hne]
    exact (pixelsOf_of_ne_four hne _ _ _ rest).trans (by rw [pixelOf, if_neg hne])
  · rw [show s.lc.toNat = 4 by rw [hc]; rfl]
    exact pixelsOf_of_eq_four hc _ _ _ _ rest

/-- R63: the packed buffer's pixels are the source pixels, one after the other. -/
theorem pixelsOf_readBytes {s : State} (hc : s.lc = 3 ∨ s.lc = 4) (i n : Nat) :
    pixelsOf s.lc (s.mem.readBytes (s.srcPixel i) (n * s.lc.toNat)) = (List.range' i n).map s.pixelAt := by
  induction n generalizing i with
  | zero =>
    rw [Nat.zero_mul]
    rfl
  | succ n ih =>
    have hnext : s.srcPixel (i + 1) = s.srcPixel i + s.lc.toNat := by simp only [State.srcPixel, Nat.succ_mul]; omega
    rw [List.range'_succ, List.map_cons, ← ih, hnext, Nat.succ_mul, Nat.add_comm, Memory.readBytes_append,
      pixelsOf_readBytes_append hc]

theorem pixelsOf_source {s : State} (h : s.EncodeOpen) :
    pixelsOf s.lc (s.mem.readBytes s.srcBase.toNat s.srcLen.toNat) = s.pixelsFrom 0 := by
  have hbase : s.srcPixel 0 = s.srcBase.toNat := by simp [State.srcPixel]
  rw [h.source, ← hbase, pixelsOf_readBytes h.channels]
  rfl

/-! ### An encode that meets no bus error -/

/-- An encode whose every access the platform accepts. -/
structure State.EncodeAccepted (s : State) : Prop where
  isOpen : s.EncodeOpen
  reads : s.CanRead s.srcBase.toNat s.srcLen.toNat
  writes : s.CanWrite s.dstBase.toNat s.dstCap.toNat

/-- `u` is `s` with bytes written at the write position: what a step that emits them keeps besides. -/
structure State.Emitted (s : State) (bs : List Byte) (u : State) : Prop where
  mem : u.mem = s.mem.writeBytes (s.dstBase.toNat + s.wp) bs
  wp : u.wp = s.wp + bs.length
  dstBase : u.dstBase = s.dstBase
  srcBase : u.srcBase = s.srcBase
  npix : u.npix = s.npix
  lc : u.lc = s.lc
  status : u.status = s.status
  errcode : u.errcode = s.errcode

theorem State.emitted_afterHeader (s : State) : s.Emitted (encode (.hdr s.lw s.lh s.lc s.lcs)) s.afterHeader :=
  ⟨rfl, rfl, rfl, rfl, rfl, rfl, rfl, rfl⟩

theorem State.emitted_afterChunk (s : State) (i : Instr) (n : Nat) (prev : Pixel) :
    s.Emitted (encode i) (s.afterChunk i n prev) :=
  ⟨rfl, congrArg (s.wp + ·) (encode_length i).symm, rfl, rfl, rfl, rfl, rfl, rfl⟩

section
variable {s : State} (h : s.EncodeAccepted)
include h

theorem State.EncodeAccepted.canWrite {n : Nat} (hroom : s.wp + n ≤ s.dstCap.toNat) :
    s.CanWrite (s.dstBase.toNat + s.wp) n := fun i hi => by
  rw [Nat.add_assoc]
  exact h.writes (s.wp + i) (by omega)

theorem State.EncodeAccepted.loadPixel_eq {i : Nat} (hi : i < s.npix) : loadPixel s i = .ok (s.pixelAt i) := by
  have hle := h.isOpen.srcPixel_le hi
  refine (loadPixel_eq_ok h.isOpen.channels).mpr ⟨fun j hj => ?_, rfl⟩
  have hbyte := h.reads (i * s.lc.toNat + j) (by rw [State.srcPixel] at hle; omega)
  rwa [← Nat.add_assoc] at hbyte

theorem State.EncodeAccepted.emit_instr {i : Instr} (hroom : s.wp + i.length ≤ s.dstCap.toNat) :
    emit s (encode i) = .ok { s with
      mem := s.mem.writeBytes (s.dstBase.toNat + s.wp) (encode i), wp := s.wp + i.length } := by
  rw [← encode_length] at hroom ⊢
  exact emit_of_canWrite hroom (h.canWrite hroom)

/-- R193: the scan counts what `runLength` counts. -/
theorem State.EncodeAccepted.runScan_eq (p : Pixel) (fuel n : Nat) :
    runScan s p fuel n = .ok (n + runLength s.lc p fuel (s.pixelsFrom (s.pix + n))) := by
  induction fuel generalizing n with
  | zero => rfl
  | succ fuel ih =>
    rw [runScan]
    split
    case isTrue hlt =>
      rw [h.loadPixel_eq hlt, ok_bind, State.pixelsFrom_of_lt hlt, runLength]
      split
      · rw [ih, Nat.add_assoc, Nat.add_assoc, Nat.add_comm 1]
      · rfl
    case isFalse hge =>
      rw [State.pixelsFrom_of_le (by omega)]
      rfl

/-- Bytes written into the destination leave every source pixel as it is (R61, R244). -/
theorem State.EncodeAccepted.pixelsFrom_of_emitted {bs : List Byte} {u : State} (he : s.Emitted bs u)
    (hroom : s.wp + bs.length ≤ s.dstCap.toNat) (j : Nat) : u.pixelsFrom j = s.pixelsFrom j := by
  obtain ⟨_, _, hapart⟩ := State.regionsOk_iff.mp h.isOpen.regions
  rw [State.pixelsFrom, State.pixelsFrom, he.npix]
  refine List.map_congr_left fun k hk => State.pixelAt_congr h.isOpen.channels he.lc he.srcBase fun b hb => ?_
  rw [List.mem_range'_1] at hk
  have hle := h.isOpen.srcPixel_le (show k < s.npix by omega)
  rw [he.mem]
  refine Memory.read_writeBytes_outside _ _ ?_
  rw [State.srcPixel] at hle ⊢
  omega

theorem State.EncodeAccepted.pixelsFrom_afterChunk {i : Instr} (hroom : s.wp + i.length ≤ s.dstCap.toNat) (n : Nat)
    (prev : Pixel) (j : Nat) : (s.afterChunk i n prev).pixelsFrom j = s.pixelsFrom j :=
  h.pixelsFrom_of_emitted (s.emitted_afterChunk i n prev) (by rwa [encode_length]) j

end

/-! ### One chunk of the image -/

/-- The bytes of the chunks still to come, as `encode(Image)` gives them from the coder's state (R198). -/
def State.chunksLeft (s : State) (fuel : Nat) : List Byte :=
  chunkBytes (encodeChunks s.lc fuel ⟨s.prev, s.cache⟩ (s.pixelsFrom s.pix))

/-- R193: how many pixels the run at PIX has. -/
def State.runLeft (s : State) : Nat :=
  runLength s.lc (s.pixelAt s.pix) (Config.runMax - 1) (s.pixelsFrom (s.pix + 1)) + 1

theorem chunkBytes_cons (i : Instr) (is : List Instr) : chunkBytes (i :: is) = encode i ++ chunkBytes is := rfl

theorem State.chunksLeft_of_done {s : State} (h : s.npix ≤ s.pix) (fuel : Nat) : s.chunksLeft fuel = [] := by
  rw [State.chunksLeft, State.pixelsFrom_of_le h]
  cases fuel <;> rfl

section
variable {s : State} (h : s.EncodeAccepted) (hp : s.phase = .body) (hlt : s.pix < s.npix)
include h hp hlt

theorem State.EncodeAccepted.step_body :
    step s = settle s (if eqC s.lc (s.pixelAt s.pix) s.prev then encRun s (s.pixelAt s.pix)
      else encPixel s (s.pixelAt s.pix)) := by
  rw [step_of_no_host h.isOpen.host, engineStep_encBody hp h.isOpen.op, encBody, if_neg (by omega), h.loadPixel_eq hlt,
    ok_bind]

/-- R193: the pixel at PIX is the one before it, and its run is one chunk. -/
theorem State.EncodeAccepted.step_run (hq : eqC s.lc (s.pixelAt s.pix) s.prev = true)
    (hroom : s.wp + (Instr.run s.runLeft).length ≤ s.dstCap.toNat) :
    step s = .next (s.afterChunk (.run s.runLeft) s.runLeft s.prev) ∧ s.pix + s.runLeft ≤ s.npix := by
  have hscan : runScan s (s.pixelAt s.pix) (Config.runMax - 1) 1 = .ok s.runLeft := by
    rw [h.runScan_eq, Nat.add_comm 1]
    rfl
  obtain ⟨_, _, hinside, _⟩ := runScan_spec h.isOpen.channels hscan
  refine ⟨?_, hinside hlt⟩
  rw [h.step_body hp hlt, if_pos hq, encRun, hscan, ok_bind, h.emit_instr hroom]
  rfl

/-- R192: the pixel at PIX is not the one before it, and is one chunk. -/
theorem State.EncodeAccepted.step_pixel {i : Instr} (hq : ¬eqC s.lc (s.pixelAt s.pix) s.prev = true)
    (hi : selectChunk s.lc s.prev s.cache (s.pixelAt s.pix) = i) (hroom : s.wp + i.length ≤ s.dstCap.toNat) :
    step s = .next (s.afterChunk i 1 (s.pixelAt s.pix)) := by
  rw [h.step_body hp hlt, if_neg hq, encPixel, hi, h.emit_instr hroom]
  rfl

/-- R192, R198: a BODY step with pixels left emits the first of the chunks to come, and leaves the others. -/
theorem State.EncodeAccepted.step_chunk {fuel : Nat}
    (hroom : s.wp + (s.chunksLeft (fuel + 1)).length ≤ s.dstCap.toNat) :
    ∃ i n prev, s.wp + i.length ≤ s.dstCap.toNat ∧ 1 ≤ n ∧ s.pix + n ≤ s.npix ∧
      step s = .next (s.afterChunk i n prev) ∧
      s.chunksLeft (fuel + 1) = encode i ++ (s.afterChunk i n prev).chunksLeft fuel := by
  simp only [State.chunksLeft, State.pixelsFrom_of_lt hlt, encodeChunks] at hroom ⊢
  split at hroom <;> rw [chunkBytes_cons, List.length_append, encode_length, ← Nat.add_assoc] at hroom
  case isTrue hq =>
    have hi : s.wp + (Instr.run s.runLeft).length ≤ s.dstCap.toNat := Nat.le_of_add_right_le hroom
    obtain ⟨hstep, hinside⟩ := h.step_run hp hlt hq hi
    refine ⟨.run s.runLeft, s.runLeft, s.prev, hi, Nat.succ_pos _, hinside, hstep, ?_⟩
    rw [if_pos hq, chunkBytes_cons, h.pixelsFrom_afterChunk hi, State.drop_pixelsFrom, Nat.add_assoc, Nat.add_comm 1]
    rfl
  case isFalse hq =>
    have hi := Nat.le_of_add_right_le hroom
    refine ⟨_, 1, s.pixelAt s.pix, hi, Nat.le_refl 1, hlt, h.step_pixel hp hlt hq rfl hi, ?_⟩
    rw [if_neg hq, chunkBytes_cons, h.pixelsFrom_afterChunk hi]
    rfl

end

/-! ### The end of an encode that meets no error (R198) -/

/-- The operation ends in DONE, with the bytes written at the write position and OUT_LEN past them. -/
def State.EndsWriting (s : State) (bs : List Byte) : Prop :=
  ∃ k t, core.run k s = .next t ∧ t.phase = .idle ∧ t.status = ⟨false, true, s.status.err⟩ ∧ t.errcode = s.errcode ∧
    t.outLen.toNat = s.wp + bs.length ∧ t.mem = s.mem.writeBytes (s.dstBase.toNat + s.wp) bs

theorem State.EndsWriting.of_step {s u : State} {xs ys : List Byte} (hstep : step s = .next u) (he : s.Emitted xs u)
    (h : u.EndsWriting ys) : s.EndsWriting (xs ++ ys) := by
  obtain ⟨k, t, hrun, hidle, hstatus, herr, hout, hmem⟩ := h
  refine ⟨k + 1, t, (run_of_next hstep).trans hrun, hidle, ?_, herr.trans he.errcode, ?_, ?_⟩
  · rw [hstatus, he.status]
  · rw [hout, he.wp, List.length_append, Nat.add_assoc]
  · rw [hmem, he.mem, he.wp, he.dstBase, Memory.writeBytes_append, Nat.add_assoc]

theorem State.EncodeAccepted.afterChunk {s : State} (h : s.EncodeAccepted) (i : Instr) {n : Nat} (prev : Pixel)
    (hn : s.pix + n ≤ s.npix) : (s.afterChunk i n prev).EncodeAccepted :=
  ⟨h.isOpen.afterChunk i prev hn, h.reads, h.writes⟩

theorem State.EncodeAccepted.tail_endsWriting {s : State} (h : s.EncodeAccepted) (hp : s.phase = .tail)
    (hroom : s.wp + 8 ≤ s.dstCap.toNat) : s.EndsWriting markerBytes := by
  obtain ⟨_, hstep, _⟩ := encoderTailStep s h.isOpen.host hp h.isOpen.op
  have hout : (BitVec.ofNat 32 (s.wp + 8)).toNat = s.wp + 8 := by
    rw [BitVec.toNat_ofNat, Nat.mod_eq_of_lt (hroom.trans_lt s.dstCap.isLt)]
  exact ⟨1, _, run_of_next (hstep hroom (h.canWrite hroom)), rfl, rfl, rfl, hout, rfl⟩

/-- R192 step 1: with no pixel left, a step that emits nothing, then the tail. -/
theorem State.EncodeAccepted.bodyEnd_endsWriting {s : State} (h : s.EncodeAccepted) (hp : s.phase = .body)
    (heq : s.pix = s.npix) (hroom : s.wp + 8 ≤ s.dstCap.toNat) : s.EndsWriting markerBytes := by
  have hstep : step s = .next { s with phase := .tail } := by
    rw [step_of_no_host h.isOpen.host, engineStep_encBody hp h.isOpen.op, encBody, if_pos heq, settle_ok]
  have htail : State.EncodeAccepted { s with phase := .tail } := ⟨h.isOpen.withPhase .tail, h.reads, h.writes⟩
  exact .of_step (xs := []) hstep ⟨rfl, rfl, rfl, rfl, rfl, rfl, rfl, rfl⟩ (htail.tail_endsWriting rfl hroom)

/-- R192, R198, by induction on the fuel of the chunks to come, of which the pixels left need at most one each. -/
theorem State.EncodeAccepted.body_endsWriting {fuel : Nat} {s : State} (h : s.EncodeAccepted) (hp : s.phase = .body)
    (hfuel : s.npix ≤ s.pix + fuel) (hroom : s.wp + ((s.chunksLeft fuel).length + 8) ≤ s.dstCap.toNat) :
    s.EndsWriting (s.chunksLeft fuel ++ markerBytes) := by
  induction fuel generalizing s with
  | zero =>
    rw [State.chunksLeft_of_done hfuel] at hroom ⊢
    exact h.bodyEnd_endsWriting hp (h.isOpen.pixels.antisymm hfuel) (by simpa using hroom)
  | succ fuel ih =>
    rcases h.isOpen.pixels.eq_or_lt with heq | hlt
    · rw [State.chunksLeft_of_done heq.ge] at hroom ⊢
      exact h.bodyEnd_endsWriting hp heq (by simpa using hroom)
    · obtain ⟨i, n, prev, hi, hn, hle, hstep, hchunks⟩ := h.step_chunk hp hlt (fuel := fuel) (by omega)
      rw [hchunks, List.length_append, encode_length] at hroom
      rw [hchunks, List.append_assoc]
      refine .of_step hstep (s.emitted_afterChunk i n prev) (ih (h.afterChunk i prev hle) hp ?_ ?_)
      · show s.npix ≤ s.pix + n + fuel
        omega
      · show s.wp + i.length + _ ≤ s.dstCap.toNat
        omega

/-- R140, R198: the header, then the chunks of the whole image. -/
theorem State.EncodeAccepted.header_endsWriting {s : State} (h : s.EncodeAccepted) (hp : s.phase = .header)
    (hroom : s.wp + (14 + ((s.chunksLeft s.npix).length + 8)) ≤ s.dstCap.toNat) :
    s.EndsWriting (encode (.hdr s.lw s.lh s.lc s.lcs) ++ (s.chunksLeft s.npix ++ markerBytes)) := by
  have hhdr : s.wp + 14 ≤ s.dstCap.toNat := by omega
  have hstep : step s = .next s.afterHeader := by
    rw [step_encHeader h.isOpen.host hp h.isOpen.op, encHeader, h.emit_instr (i := .hdr s.lw s.lh s.lc s.lcs) hhdr]
    rfl
  have hbody : s.afterHeader.EncodeAccepted := ⟨h.isOpen.afterHeader, h.reads, h.writes⟩
  have hchunks : s.afterHeader.chunksLeft s.npix = s.chunksLeft s.npix := by
    rw [State.chunksLeft, h.pixelsFrom_of_emitted s.emitted_afterHeader hhdr]
    rfl
  rw [← hchunks] at hroom ⊢
  refine .of_step hstep s.emitted_afterHeader (hbody.body_endsWriting rfl (Nat.le_add_left _ _) ?_)
  show s.wp + 14 + _ ≤ s.dstCap.toNat
  omega

/-- R198: what `encode(Image)` gives for the source is the header, the chunks to come at the start, and the marker. -/
theorem encodeImage_source {s : State} (h : s.beginEncode.EncodeOpen) :
    encodeImage ⟨s.imgWidth, s.imgHeight, s.imgFormat.channels, s.imgFormat.colorspace,
        s.mem.readBytes s.srcBase.toNat s.srcLen.toNat⟩ =
      encode (.hdr s.imgWidth s.imgHeight s.imgFormat.channels s.imgFormat.colorspace) ++
        (s.beginEncode.chunksLeft s.beginEncode.npix ++ markerBytes) := by
  have hpixels : pixelsOf s.imgFormat.channels (s.mem.readBytes s.srcBase.toNat s.srcLen.toNat) =
      s.beginEncode.pixelsFrom 0 := pixelsOf_source h
  rw [encodeImage, hpixels, State.pixelsFrom_length, List.append_assoc]
  rfl

end Sys2Proof.Machine

open Sys2Proof Sys2Proof.Machine

/-- Settles O56: a CHECK step that ends in error has no output yet; one that passes begins an encode, whose steps the
pixels count. -/
theorem encodeEndsInTime : Obligations.EncodeEndsInTime := by
  unfold Obligations.EncodeEndsInTime
  refine ⟨fun s hinv hhost hp hcmd => ?time, fun s t hinv hp ho hstep => ?progress⟩
  case time =>
    have hout : s.outLen = 0 := (hinv.running (hinv.busy_of_check hp)).2
    have hends : s.EndsWithin (s.imgWidth.toNat * s.imgHeight.toNat + 4)
        (14 + s.imgWidth.toNat * s.imgHeight.toNat * (s.imgFormat.channels.toNat + 1) + 8) := by
      rcases step_check_encode hhost hp hcmd with ⟨c, hstep⟩ | ⟨hstep, hv, hr⟩
      · exact .of_raise hstep hout
      · exact .of_step hstep ((State.EncodeOpen.of_beginEncode hhost hv hr).header_endsWithin rfl hout rfl)
    exact hends
  case progress =>
    have henc := hinv.encoding (.inr (.inl hp)) ho
    have hnext := engineStep_next (fun _ => henc.legal.channels) (fun _ => henc.pixels) hstep
    rcases encBody_next hp ho henc.legal.channels hnext with ⟨c, rfl⟩ | ⟨_, rfl⟩ | ⟨i, n, prev, _, hn, _, rfl⟩
    · exact .inl (by simp)
    · exact .inl (by simp)
    · exact .inr (Nat.add_le_add_left hn s.pix)

/-- Settles O59: the CHECK step begins the encode, which ends having written the header, the chunks and the marker. -/
theorem encodeRunWritesEncoding : Obligations.EncodeRunWritesEncoding := by
  unfold Obligations.EncodeRunWritesEncoding
  intro s out hinv hhost hp hcmd ⟨u, hv⟩ hregions hreads hwrites hout hroom
  have hopen : s.beginEncode.EncodeOpen := .of_beginEncode hhost hv hregions
  have haccepted : s.beginEncode.EncodeAccepted := ⟨hopen, hreads, hwrites⟩
  have hbusy := hinv.busy_of_check hp
  rw [encodeImage_source hopen] at hout
  have hends : s.beginEncode.EndsWriting out := by
    rw [hout] at hroom ⊢
    rw [List.length_append, List.length_append, encode_length] at hroom
    exact haccepted.header_endsWriting rfl ((Nat.zero_add _).trans_le hroom)
  obtain ⟨k, t, hrun, hidle, hstatus, herr, hlen, hmem⟩ := hends
  refine ⟨k + 1, t, (run_of_next (step_beginEncode hhost hp hcmd hv hregions)).trans hrun, hidle, ?_, ?_, ?_, hmem⟩
  · obtain ⟨_, hnotErr, _⟩ := hinv.oneFlag
    have hok : s.status.err = false := by simpa [hbusy] using hnotErr
    rw [hstatus, State.beginEncode_status, hok]
  · exact herr.trans (hinv.running hbusy).1
  · exact hlen.trans (Nat.zero_add _)

/-- Settles O31: the emission with too little room, with every byte accepted, and with one refused. -/
theorem emitRule : Obligations.EmitRule := by
  unfold Obligations.EmitRule
  exact fun s bs => ⟨emit_of_noRoom, emit_of_canWrite, emit_of_refused⟩
end

section
/-! The round trip (R217): `decode(bytes)` cut at its header and its chunks, and by induction over the encoder's chunks
a decoder whose state agrees with the encoder's on every architectural lane. -/

namespace Sys2Proof

theorem word_toNat_eq_zero {v : Word} : v.toNat = 0 ↔ v = 0 := by
  rw [← BitVec.toNat_inj]
  rfl

theorem Instr.length_pos (i : Instr) : 1 ≤ i.length := by cases i <;> simp [Instr.length]

/-! ### The decoder at the head of a stream -/

/-- R89: fourteen bytes decide the header, whatever follows. -/
theorem decodeHeader_append {item : List Byte} (h : item.length = 14) (rest : List Byte) :
    (∃ w ht c cs, decode .header item = .instr (.hdr w ht c cs) [] ∧
      decodeHeader (item ++ rest) = .instr (.hdr w ht c cs) rest) ∨
    (decode .header item = .reject .badMagic ∧ decodeHeader (item ++ rest) = .reject .badMagic) := by
  match item, h with
  | [m0, m1, m2, m3, w3, w2, w1, w0, h3, h2, h1, h0, c, cs], _ =>
    by_cases hm : [m0, m1, m2, m3] = magicBytes
    · exact .inl ⟨_, _, _, _, if_pos hm, if_pos hm⟩
    · exact .inr ⟨if_neg hm, if_neg hm⟩

theorem decodeHeader_of_short {bs : List Byte} (h : bs.length < 14) : decodeHeader bs = .reject .truncated := by
  unfold decodeHeader
  split
  · simp only [List.length_cons] at h
    omega
  · rfl

theorem decodeHeader_encode (w h : Word) (c cs : Byte) (rest : List Byte) :
    decodeHeader (encode (.hdr w h c cs) ++ rest) = .instr (.hdr w h c cs) rest := by
  simp only [encode, beBytes, magicBytes, List.cons_append, List.nil_append, decodeHeader, if_true, beWord_beBytes]

/-- R83, R84: the decoder reads back a chunk that is encoded, and no byte more. -/
theorem decodeChunk_encode {i : Instr} (hp : i.place = .chunk) (hwf : i.wf = true) (rest : List Byte) :
    decodeChunk (encode i ++ rest) = .instr i rest := by
  cases i with
  | rgb r g b => exact decode_of_classify_rgb (t := 0xFE) rfl r g b rest
  | rgba r g b a => exact decode_of_classify_rgba (t := 0xFF) rfl r g b a rest
  | index idx =>
    have hbyte : (BitVec.ofNat 8 idx.val).toNat = idx.val := by rw [BitVec.toNat_ofNat]; omega
    obtain ⟨idx', hval, hdec⟩ := (opcodeMap (BitVec.ofNat 8 idx.val) rest).1 (by omega)
    rw [Fin.ext (hval.trans hbyte)] at hdec
    rw [encode_index]
    exact hdec
  | diff dr dg db =>
    simp only [Instr.wf, inRange, Bool.and_eq_true, decide_eq_true_eq] at hwf
    obtain ⟨⟨hr, hg⟩, hb⟩ := hwf
    exact decode_encode_diff hr hg hb rest
  | luma dg drg dbg =>
    simp only [Instr.wf, inRange, Bool.and_eq_true, decide_eq_true_eq] at hwf
    obtain ⟨⟨hg, hr⟩, hb⟩ := hwf
    exact decode_encode_luma hg hr hb rest
  | run n =>
    simp only [Instr.wf, Bool.and_eq_true, decide_eq_true_eq] at hwf
    obtain ⟨h1, h62⟩ := hwf
    have hbyte : (BitVec.ofNat 8 (0xC0 + (n - 1))).toNat = 0xC0 + (n - 1) := by rw [BitVec.toNat_ofNat]; omega
    rw [encode_run h1 h62]
    refine (decode_of_classify_run (classify_eq_run (by omega) (by omega)) rest).trans ?_
    rw [decodeRun_eq (by omega), hbyte, show 0xC0 + (n - 1) - 0xC0 + 1 = n by omega]
  | hdr | endMarker | encodeCmd | decodeCmd | reservedCmd => cases hp

end Sys2Proof

namespace Sys2Proof.Machine

/-! ### `decode(bytes)` at its header and its chunks -/

/-- R211, R144: the chunks, then the marker, as `decode(bytes)` reads them after the header. -/
def decodeBody (c : Byte) (fuel : Nat) (k : Coder) (need : Nat) (bs : List Byte) : Except ErrCode (List Byte) :=
  match decodeChunks c fuel k need bs with
  | .error x => .error x
  | .ok (out, left) => if left = markerBytes then .ok out else .error .missingEndMarker

/-- R142, R210, R214: a header's checks in their order, then its chunks and the marker. -/
theorem decodeImage_of_header {cap : Nat} {bs rest : List Byte} {w h : Word} {c cs : Byte}
    (hd : decodeHeader bs = .instr (.hdr w h c cs) rest) :
    decodeImage cap bs =
      if ¬(c = 3 ∨ c = 4) then .error .invalidChannels
      else if ¬(cs = 0 ∨ cs = 1) then .error .invalidColorspace
      else if w.toNat = 0 ∨ h.toNat = 0 then .error .zeroDimension
      else if cap < w.toNat * h.toNat * c.toNat then .error .capacityExceeded
      else (decodeBody c rest.length Coder.fresh (w.toNat * h.toNat) rest).map fun out => ⟨w, h, c, cs, out⟩ := by
  simp only [decodeImage, hd, decodeBody, word_toNat_eq_zero, Bool.not_eq_true', Bool.or_eq_true, Bool.or_eq_false_iff,
    beq_iff_eq, beq_eq_false_iff_ne, not_or, ne_eq]
  cases decodeChunks c rest.length Coder.fresh (w.toNat * h.toNat) rest with
  | error x => rfl
  | ok r =>
    obtain ⟨out, left⟩ := r
    by_cases hm : left = markerBytes <;> simp [hm, Except.map]

theorem decodeBody_zero (c : Byte) (fuel : Nat) (k : Coder) (bs : List Byte) :
    decodeBody c fuel k 0 bs = if bs = markerBytes then .ok [] else .error .missingEndMarker := by
  rw [decodeBody, decodeChunks]

/-- R211: bytes that end inside a chunk, or before it. -/
theorem decodeBody_of_reject {bs : List Byte} {e : DecodeError} (hd : decodeChunk bs = .reject e) (c : Byte)
    (fuel : Nat) (k : Coder) {need : Nat} (hneed : 0 < need) :
    decodeBody c fuel k need bs = .error .truncatedStream := by
  obtain ⟨need, rfl⟩ : ∃ m, need = m + 1 := ⟨need - 1, by omega⟩
  cases fuel with
  | zero => rfl
  | succ fuel => simp only [decodeBody, decodeChunks, hd]

/-- R211: one chunk, then the others. -/
theorem decodeBody_of_instr {bs rest : List Byte} {i : Instr} (hd : decodeChunk bs = .instr i rest) (c : Byte)
    (fuel : Nat) {k : Coder} {need n : Nat} {p : Pixel} (hneed : 0 < need) (he : chunkEffect k i = (p, n)) :
    decodeBody c (fuel + 1) k need bs =
      if need < n then .error .pixelCountMismatch
      else (decodeBody c fuel (k.noteMany c p n) (need - n) rest).map (copyBytes c p n ++ ·) := by
  obtain ⟨need, rfl⟩ : ∃ m, need = m + 1 := ⟨need - 1, by omega⟩
  simp only [decodeBody, decodeChunks, hd, he]
  by_cases hmany : need + 1 < n
  · simp only [if_pos hmany]
  · simp only [if_neg hmany]
    cases decodeChunks c fuel (k.noteMany c p n) (need + 1 - n) rest with
    | error x => rfl
    | ok r =>
      obtain ⟨out, left⟩ := r
      by_cases hm : left = markerBytes <;> simp [hm, Except.map]

/-- R212: after `n` copies of a pixel, which only the first one changes (R122). -/
theorem Coder.noteMany_eq (k : Coder) (c : Byte) (p : Pixel) (n : Nat) :
    k.noteMany c p n = if n = 0 then k else k.note c p := by
  induction n generalizing k with
  | zero => rfl
  | succ n ih =>
    rw [Coder.noteMany, ih]
    simp [Coder.note, update_update]

/-! ### Pixels that agree on their architectural lanes (R7) -/

section
variable {c : Byte} {p q : Pixel}

theorem eqC_symm (h : eqC c p q = true) : eqC c q p = true := by
  obtain ⟨hr, hg, hb, ha⟩ := eqC_iff.mp h
  exact eqC_iff.mpr ⟨hr.symm, hg.symm, hb.symm, ha.imp_right Eq.symm⟩

theorem eqC_trans {r : Pixel} (hpq : eqC c p q = true) (hqr : eqC c q r = true) : eqC c p r = true := by
  obtain ⟨hr, hg, hb, ha⟩ := eqC_iff.mp hpq
  obtain ⟨hr', hg', hb', ha'⟩ := eqC_iff.mp hqr
  refine eqC_iff.mpr ⟨hr.trans hr', hg.trans hg', hb.trans hb', ?_⟩
  rcases ha with h3 | ha
  · exact .inl h3
  · exact ha'.imp_right ha.trans

/-- R120: the hash sees architectural lanes alone. -/
theorem indexOf_congr (h : eqC c p q = true) : indexOf c p = indexOf c q := by
  obtain ⟨hr, hg, hb, ha⟩ := eqC_iff.mp h
  refine Fin.ext ?_
  rw [indexOf_val, indexOf_val, hashSum, hashSum, hr, hg, hb]
  rcases ha with h3 | ha
  · rw [if_pos h3, if_pos h3]
  · rw [ha]

/-- R29, R63: so do a pixel's bytes. -/
theorem pixelBytes_congr (hc : c = 3 ∨ c = 4) (h : eqC c p q = true) : pixelBytes c p = pixelBytes c q := by
  obtain ⟨hr, hg, hb, ha⟩ := eqC_iff.mp h
  rw [pixelBytes, pixelBytes, hr, hg, hb]
  rcases hc with rfl | rfl
  · rfl
  · rw [ha.resolve_left (by decide)]

end

/-- The bytes of pixels that all agree with one are that one's copies. -/
theorem flatMap_pixelBytes_eq_copyBytes {c : Byte} (hc : c = 3 ∨ c = 4) {p : Pixel} {l : List Pixel}
    (h : ∀ q ∈ l, eqC c q p = true) : l.flatMap (pixelBytes c) = copyBytes c p l.length := by
  induction l with
  | nil => rfl
  | cons q l ih =>
    rw [List.flatMap_cons, List.length_cons, copyBytes, pixelBytes_congr hc (h q List.mem_cons_self),
      ih fun r hr => h r (List.mem_cons_of_mem q hr)]

/-! ### Coders that agree -/

/-- R192, R194: the chunk of a pixel that is no run, and what it was chosen for. -/
theorem selectChunk_cases (c : Byte) (prev : Pixel) (k : Cache) (p : Pixel) :
    (eqC c (slot k (indexOf c p)) p = true ∧ selectChunk c prev k p = .index (indexOf c p)) ∨
    (diffOk c p prev = true ∧
      selectChunk c prev k p = .diff (delta p prev).dr (delta p prev).dg (delta p prev).db) ∨
    (lumaOk c p prev = true ∧
      selectChunk c prev k p =
        .luma (delta p prev).dg ((delta p prev).dr - (delta p prev).dg) ((delta p prev).db - (delta p prev).dg)) ∨
    ((c = 3 ∨ p.a = prev.a) ∧ selectChunk c prev k p = .rgb p.r p.g p.b) ∨
    selectChunk c prev k p = .rgba p.r p.g p.b p.a := by
  unfold selectChunk
  split
  case h_1 idx hl =>
    obtain ⟨rfl, hhit⟩ := lookup_eq_some_iff.mp hl
    exact .inl ⟨hhit, rfl⟩
  case h_2 =>
    split
    case isTrue hdiff => exact .inr (.inl ⟨hdiff, rfl⟩)
    case isFalse =>
      split
      case isTrue hluma => exact .inr (.inr (.inl ⟨hluma, rfl⟩))
      case isFalse =>
        unfold rawChunk
        split
        case isTrue hs => exact .inr (.inr (.inr (.inl ⟨hs, rfl⟩)))
        case isFalse => exact .inr (.inr (.inr (.inr rfl)))

/-- The two coders of a round trip: with three channels the decoder's alpha lanes differ from the encoder's (R29). -/
structure Coder.Agree (c : Byte) (k k' : Coder) : Prop where
  prev : eqC c k.prev k'.prev = true
  cache : ∀ i, eqC c (slot k.cache i) (slot k'.cache i) = true

theorem Coder.Agree.refl (c : Byte) (k : Coder) : k.Agree c k := ⟨eqC_self c _, fun _ => eqC_self c _⟩

section
variable {c : Byte} {k k' : Coder} (h : k.Agree c k') {p q : Pixel}
include h

theorem Coder.Agree.update (hpq : eqC c p q = true) (i : Fin 64) :
    eqC c (slot (Machine.update c k.cache p) i) (slot (Machine.update c k'.cache q) i) = true := by
  rw [slot_update, slot_update, indexOf_congr hpq]
  split
  · exact hpq
  · exact h.cache i

theorem Coder.Agree.note (hpq : eqC c p q = true) : (k.note c p).Agree c (k'.note c q) :=
  ⟨hpq, h.update hpq⟩

/-- R192, R105: the chunk chosen for a pixel gives that pixel, one time, to a decoder whose state agrees. -/
theorem Coder.Agree.chunkEffect_selectChunk (p : Pixel) :
    ∃ q, chunkEffect k' (selectChunk c k.prev k.cache p) = (q, 1) ∧ eqC c p q = true := by
  obtain ⟨hr, hg, hb, ha⟩ := eqC_iff.mp h.prev
  have halpha (hs : c = 3 ∨ p.a = k.prev.a) : c = 3 ∨ p.a = k'.prev.a := by
    rcases ha with h3 | ha
    · exact .inl h3
    · exact hs.imp_right (·.trans ha)
  rcases selectChunk_cases c k.prev k.cache p with
    ⟨hhit, hi⟩ | ⟨hdiff, hi⟩ | ⟨hluma, hi⟩ | ⟨hs, hi⟩ | hi <;> rw [hi]
  · exact ⟨_, rfl, eqC_trans (eqC_symm hhit) (h.cache _)⟩
  · obtain ⟨hs, _⟩ := diffOk_iff.mp hdiff
    refine ⟨_, rfl, eqC_symm ?_⟩
    simp only [delta, hr, hg, hb, diffPixel_wd]
    exact eqC_with_alpha (halpha hs)
  · obtain ⟨hs, _⟩ := lumaOk_iff.mp hluma
    refine ⟨_, rfl, eqC_symm ?_⟩
    simp only [delta, hr, hg, hb, lumaPixel_wd]
    exact eqC_with_alpha (halpha hs)
  · exact ⟨_, rfl, eqC_symm (eqC_with_alpha (halpha hs))⟩
  · exact ⟨_, rfl, eqC_self c p⟩

end

/-! ### The chunks of an encoding -/

/-- R192, R102, R103: the operands of the chosen chunk are within their fields. -/
theorem selectChunk_wf (c : Byte) (prev : Pixel) (k : Cache) (p : Pixel) :
    (selectChunk c prev k p).place = .chunk ∧ (selectChunk c prev k p).wf = true := by
  rcases selectChunk_cases c prev k p with ⟨_, hi⟩ | ⟨hdiff, hi⟩ | ⟨hluma, hi⟩ | ⟨_, hi⟩ | hi <;> rw [hi]
  · exact ⟨rfl, rfl⟩
  · obtain ⟨_, hr, hg, hb⟩ := diffOk_iff.mp hdiff
    exact ⟨rfl, by simp only [Instr.wf, inRange, delta, hr, hg, hb, decide_true, Bool.and_self]⟩
  · obtain ⟨_, hg, hr, hb⟩ := lumaOk_iff.mp hluma
    exact ⟨rfl, by simp only [Instr.wf, inRange, delta, hr, hg, hb, decide_true, Bool.and_self]⟩
  · exact ⟨rfl, rfl⟩
  · exact ⟨rfl, rfl⟩

theorem runLength_le (c : Byte) (p : Pixel) (fuel : Nat) (l : List Pixel) :
    runLength c p fuel l ≤ fuel ∧ runLength c p fuel l ≤ l.length := by
  induction fuel generalizing l with
  | zero => exact ⟨Nat.le_refl 0, Nat.zero_le _⟩
  | succ fuel ih =>
    cases l with
    | nil => exact ⟨Nat.zero_le _, Nat.le_refl 0⟩
    | cons q l =>
      obtain ⟨hfuel, hlen⟩ := ih l
      rw [runLength]
      split
      · exact ⟨Nat.succ_le_succ hfuel, Nat.succ_le_succ hlen⟩
      · exact ⟨Nat.zero_le _, Nat.zero_le _⟩

/-- R193: every pixel counted agrees with the run's. -/
theorem eqC_of_mem_take_runLength {c : Byte} {p : Pixel} (fuel : Nat) (l : List Pixel) :
    ∀ q ∈ l.take (runLength c p fuel l), eqC c q p = true := by
  induction fuel generalizing l with
  | zero => simp [runLength]
  | succ fuel ih =>
    cases l with
    | nil => simp
    | cons r l =>
      rw [runLength]
      split
      case isTrue hr =>
        rw [List.take_succ_cons, List.forall_mem_cons]
        exact ⟨hr, ih l⟩
      case isFalse => simp

/-- To a decoder in state `k` the chunk `i` gives the first `n` of the pixels `px`, as copies of `q`. -/
structure Coder.Gives (c : Byte) (k : Coder) (i : Instr) (q : Pixel) (n : Nat) (px : List Pixel) : Prop where
  place : i.place = .chunk
  wf : i.wf = true
  effect : chunkEffect k i = (q, n)
  count : 1 ≤ n ∧ n ≤ px.length
  pixels : ∀ p ∈ px.take n, eqC c p q = true

/-- R192, R193: the encoder's next chunk gives a decoder that agrees the pixels it is for, and both still agree. -/
theorem Coder.Agree.encodeChunks_cons {c : Byte} {k k' : Coder} (h : k.Agree c k') (rounds : Nat) (p : Pixel)
    (rest : List Pixel) :
    ∃ i q n k₁, k'.Gives c i q n (p :: rest) ∧ k₁.Agree c (k'.noteMany c q n) ∧
      encodeChunks c (rounds + 1) k (p :: rest) = i :: encodeChunks c rounds k₁ ((p :: rest).drop n) := by
  rw [encodeChunks]
  split
  case isTrue hrun =>
    obtain ⟨hmax, hlen⟩ := runLength_le c p (Config.runMax - 1) rest
    have hprev : eqC c p k'.prev = true := eqC_trans hrun h.prev
    refine ⟨_, k'.prev, _, _, ⟨rfl, ?_, rfl, ⟨Nat.succ_pos _, Nat.succ_le_succ hlen⟩, ?_⟩, ?_, rfl⟩
    · simpa [Instr.wf] using Nat.succ_le_succ hmax
    · rw [List.take_succ_cons, List.forall_mem_cons]
      exact ⟨hprev, fun r hr => eqC_trans (eqC_of_mem_take_runLength _ rest r hr) hprev⟩
    · rw [Coder.noteMany_eq, if_neg (Nat.succ_ne_zero _)]
      exact ⟨h.prev, h.update hprev⟩
  case isFalse =>
    obtain ⟨q, heffect, hq⟩ := h.chunkEffect_selectChunk p
    obtain ⟨hplace, hwf⟩ := selectChunk_wf c k.prev k.cache p
    exact ⟨_, q, 1, _, ⟨hplace, hwf, heffect, ⟨Nat.le_refl 1, Nat.succ_pos _⟩, by simpa using hq⟩, h.note hq, rfl⟩

/-- One chunk of an encoding decoded, then the others. -/
theorem Coder.Gives.decodeBody_encode {c : Byte} (hc : c = 3 ∨ c = 4) {k : Coder} {i : Instr} {q : Pixel} {n : Nat}
    {px : List Pixel} (h : k.Gives c i q n px) {fuel : Nat} {rest : List Byte}
    (hrest : decodeBody c fuel (k.noteMany c q n) (px.drop n).length rest = .ok ((px.drop n).flatMap (pixelBytes c))) :
    decodeBody c (fuel + 1) k px.length (encode i ++ rest) = .ok (px.flatMap (pixelBytes c)) := by
  obtain ⟨hpos, hle⟩ := h.count
  have htake : (px.take n).flatMap (pixelBytes c) = copyBytes c q n := by
    rw [flatMap_pixelBytes_eq_copyBytes hc h.pixels, List.length_take, Nat.min_eq_left hle]
  rw [List.length_drop] at hrest
  rw [decodeBody_of_instr (decodeChunk_encode h.place h.wf rest) c fuel (hpos.trans hle) h.effect,
    if_neg (Nat.not_lt.mpr hle), hrest, Except.map, ← htake, ← List.flatMap_append, List.take_append_drop]

/-- R217, by induction on the rounds of the encoder: the chunks of a pixel sequence decode to its bytes. -/
theorem decodeBody_encodeChunks {c : Byte} (hc : c = 3 ∨ c = 4) {rounds fuel : Nat} {k k' : Coder} (h : k.Agree c k')
    {px : List Pixel} (hrounds : px.length ≤ rounds) (hfuel : (chunkBytes (encodeChunks c rounds k px)).length ≤ fuel) :
    decodeBody c fuel k' px.length (chunkBytes (encodeChunks c rounds k px) ++ encode .endMarker) =
      .ok (px.flatMap (pixelBytes c)) := by
  induction rounds generalizing fuel k k' px with
  | zero =>
    obtain rfl : px = [] := List.eq_nil_of_length_eq_zero (by omega)
    exact (decodeBody_zero c fuel k' _).trans (if_pos rfl)
  | succ rounds ih =>
    cases px with
    | nil => exact (decodeBody_zero c fuel k' _).trans (if_pos rfl)
    | cons p rest =>
      obtain ⟨i, q, n, k₁, hgives, hagree, hchunks⟩ := h.encodeChunks_cons rounds p rest
      obtain ⟨hpos, _⟩ := hgives.count
      have hi := Instr.length_pos i
      rw [hchunks, chunkBytes_cons, List.length_append, encode_length] at hfuel
      obtain ⟨fuel, rfl⟩ : ∃ m, fuel = m + 1 := ⟨fuel - 1, by omega⟩
      rw [hchunks, chunkBytes_cons, List.append_assoc]
      refine hgives.decodeBody_encode hc (ih hagree ?_ (by omega))
      rw [List.length_drop]
      omega

/-- R63, R191: the pixels of a packed buffer of `n` are `n`, and their bytes are the buffer's. -/
theorem flatMap_pixelsOf {c : Byte} (hc : c = 3 ∨ c = 4) {n : Nat} {data : List Byte}
    (h : data.length = n * c.toNat) :
    (pixelsOf c data).length = n ∧ (pixelsOf c data).flatMap (pixelBytes c) = data := by
  induction n generalizing data with
  | zero =>
    rw [Nat.zero_mul] at h
    obtain rfl := List.eq_nil_of_length_eq_zero h
    exact ⟨rfl, rfl⟩
  | succ n ih =>
    rw [Nat.succ_mul] at h
    rcases hc with rfl | rfl
    · match data, h with
      | r :: g :: b :: rest, h =>
        obtain ⟨hlen, hbytes⟩ := ih (data := rest) (Nat.add_right_cancel (m := 3) h)
        rw [pixelsOf_of_ne_four (by decide), List.length_cons, hlen, List.flatMap_cons, hbytes]
        exact ⟨rfl, rfl⟩
    · match data, h with
      | r :: g :: b :: a :: rest, h =>
        obtain ⟨hlen, hbytes⟩ := ih (data := rest) (Nat.add_right_cancel (m := 4) h)
        rw [pixelsOf_of_eq_four rfl, List.length_cons, hlen, List.flatMap_cons, hbytes]
        exact ⟨rfl, rfl⟩

/-- R243: the images an encode accepts. -/
theorem Image.valid_iff {im : Image} :
    im.valid = true ↔
      (im.c = 3 ∨ im.c = 4) ∧ (im.cs = 0 ∨ im.cs = 1) ∧ im.w.toNat ≠ 0 ∧ im.h.toNat ≠ 0 ∧
        im.data.length = im.w.toNat * im.h.toNat * im.c.toNat := by
  simp only [Image.valid, Bool.and_eq_true, Bool.or_eq_true, beq_iff_eq, bne_iff_ne, decide_eq_true_eq, ne_eq,
    word_toNat_eq_zero, and_assoc]

end Sys2Proof.Machine

open Sys2Proof Sys2Proof.Machine

/-- Settles O58: the header comes back and passes its checks, and the chunks decode to the bytes of the image's pixels,
encoder and decoder agreeing on all architectural lanes after each. -/
theorem roundTrip : Obligations.RoundTrip := by
  unfold Obligations.RoundTrip
  intro im cap hvalid hcap
  obtain ⟨hc, hcs, hw, hh, hlen⟩ := Image.valid_iff.mp hvalid
  obtain ⟨hcount, hbytes⟩ := flatMap_pixelsOf hc hlen
  rw [encodeImage, List.append_assoc, decodeImage_of_header (decodeHeader_encode im.w im.h im.c im.cs _),
    if_neg (not_not.mpr hc), if_neg (not_not.mpr hcs), if_neg (not_or.mpr ⟨hw, hh⟩), if_neg (by omega), ← hcount,
    List.length_append, decodeBody_encodeChunks hc (.refl im.c Coder.fresh) le_rfl (Nat.le_add_right _ _), hbytes]
  rfl
end

section
/-! The decoder's run (R214): each step of a decode that meets no bus error against `decode(bytes)`, then by induction
over the chunks the end of the whole operation and the bytes it has written. -/

namespace Sys2Proof

/-! ### A chunk at the head of a stream -/

theorem decodeChunk_of_fits {t : Byte} {more : List Byte} (h : (classify t).length ≤ more.length + 1) :
    ∃ i rest, decodeChunk (t :: more) = .instr i rest := by
  cases hk : classify t with
  | rgb =>
    match more, hk ▸ h with
    | r :: g :: b :: rest, _ => exact ⟨_, _, decode_of_classify_rgb hk r g b rest⟩
  | rgba =>
    match more, hk ▸ h with
    | r :: g :: b :: a :: rest, _ => exact ⟨_, _, decode_of_classify_rgba hk r g b a rest⟩
  | index => exact ⟨_, _, decode_of_classify_index hk more⟩
  | diff => exact ⟨_, _, decode_of_classify_diff hk more⟩
  | luma =>
    match more, hk ▸ h with
    | u :: rest, _ => exact ⟨_, _, decode_of_classify_luma hk u rest⟩
  | run => exact ⟨_, _, decode_of_classify_run hk more⟩

/-- R84: the bytes a chunk was read from are its own, as many as its length, and the rest. -/
theorem decodeChunk_eq_append {bs rest : List Byte} {i : Instr} (h : decodeChunk bs = .instr i rest) :
    i.place = .chunk ∧ ∃ item, bs = item ++ rest ∧ item.length = i.length ∧ decodeChunk item = .instr i [] := by
  cases bs with
  | nil => cases h
  | cons t more =>
    unfold decodeChunk at h
    simp only at h
    split at h <;> cases h <;> rename_i hk
    · exact ⟨rfl, [t, _, _, _], rfl, rfl, decode_of_classify_rgb hk _ _ _ []⟩
    · exact ⟨rfl, [t, _, _, _, _], rfl, rfl, decode_of_classify_rgba hk _ _ _ _ []⟩
    · exact ⟨rfl, [t], rfl, rfl, decode_of_classify_index hk []⟩
    · exact ⟨rfl, [t], rfl, rfl, decode_of_classify_diff hk []⟩
    · exact ⟨rfl, [t, _], rfl, rfl, decode_of_classify_luma hk _ []⟩
    · exact ⟨rfl, [t], rfl, rfl, decode_of_classify_run hk []⟩

end Sys2Proof

namespace Sys2Proof.Machine

/-! ### A decode that meets no bus error -/

/-- A decode past its CHECK step whose every access the platform accepts. -/
structure State.DecodeAccepted (s : State) : Prop where
  host : s.host = []
  op : s.op = .dec
  /-- R244. -/
  regions : s.regionsOk = true
  reads : s.CanRead s.srcBase.toNat s.srcLen.toNat
  writes : s.CanWrite s.dstBase.toNat s.dstCap.toNat
  /-- R241: the flags and results of a running operation. -/
  running : s.status = Status.running ∧ s.errcode = 0 ∧ s.outLen = 0

/-- The stream's bytes from `RP` on (R26, R39). -/
def State.streamLeft (s : State) : List Byte := s.mem.readBytes (s.srcBase.toNat + s.rp) (s.srcLen.toNat - s.rp)

/-- The image of the header's fields and these pixel bytes. -/
def State.imageOf (s : State) (data : List Byte) : Image := ⟨s.lw, s.lh, s.lc, s.lcs, data⟩

/-- Such a decode past its HEADER step, that has written the pixel bytes `out` into the memory `m`. -/
structure State.DecodeWrote (s : State) (m : Memory) (out : List Byte) : Prop where
  accepted : s.DecodeAccepted
  channels : s.lc = 3 ∨ s.lc = 4
  /-- R210. -/
  capacity : s.npix * s.lc.toNat ≤ s.dstCap.toNat
  pixels : s.pix ≤ s.npix
  readHigh : s.rp ≤ s.srcLen.toNat
  length : out.length = s.pix * s.lc.toNat
  mem : s.mem = m.writeBytes s.dstBase.toNat out

/-- The operation ends as the result `r` says: with DONE, the image reported and its pixel bytes written into the memory
`m` from `base` on, or with ERR and the code. -/
def State.EndsAs (s : State) (m : Memory) (base : Nat) (r : Except ErrCode Image) : Prop :=
  ∃ k t, core.run k s = .next t ∧ t.phase = .idle ∧
    match r with
    | .ok im => t.status = ⟨false, true, false⟩ ∧ t.errcode = 0 ∧ t.imgWidth = im.w ∧ t.imgHeight = im.h ∧
        t.imgFormat = ⟨im.c, im.cs⟩ ∧ t.outLen.toNat = im.data.length ∧ t.mem = m.writeBytes base im.data
    | .error c => t.status = ⟨false, false, true⟩ ∧ t.errcode = c.num ∧ t.outLen = 0

theorem State.EndsAs.of_step {s u : State} {m : Memory} {base : Nat} {r : Except ErrCode Image}
    (hstep : step s = .next u) (h : u.EndsAs m base r) : s.EndsAs m base r := by
  obtain ⟨k, t, hrun, hend⟩ := h
  exact ⟨k + 1, t, (run_of_next hstep).trans hrun, hend⟩

theorem State.DecodeAccepted.endsAs_of_raise {s : State} (h : s.DecodeAccepted) {c : ErrCode}
    (hstep : step s = .next (s.raise c)) (m : Memory) (base : Nat) : s.EndsAs m base (.error c) := by
  obtain ⟨hstatus, _, hout⟩ := h.running
  refine .of_step hstep ⟨0, _, rfl, State.raise_phase s c, ?_, State.raise_errcode s c, ?_⟩
  · rw [State.raise_status, hstatus]
    rfl
  · rw [State.raise_outLen, hout]

/-- A step that is a check, then the rest: the check's own code, or the rest's end (R262). -/
theorem State.DecodeAccepted.endsAs_of_check {s u : State} (h : s.DecodeAccepted) {b : Prop} [Decidable b]
    {c : ErrCode} (hstep : step s = .next (if b then s.raise c else u)) {m : Memory} {base : Nat}
    {r : Except ErrCode Image} (hrest : ¬b → step s = .next u → s.EndsAs m base r) :
    s.EndsAs m base (if b then .error c else r) := by
  split at hstep
  case isTrue hb =>
    rw [if_pos hb]
    exact h.endsAs_of_raise hstep m base
  case isFalse hb =>
    rw [if_neg hb]
    exact hrest hb hstep

/-! ### The tail (R144, R213) -/

section
variable {s : State} {m : Memory} {out : List Byte} (h : s.DecodeWrote m out)
include h

theorem State.DecodeWrote.withPhase (p : Phase) : { s with phase := p }.DecodeWrote m out :=
  ⟨⟨h.accepted.host, h.accepted.op, h.accepted.regions, h.accepted.reads, h.accepted.writes, h.accepted.running⟩,
    h.channels, h.capacity, h.pixels, h.readHigh, h.length, h.mem⟩

/-- R39: the bytes left in the stream may be read. -/
theorem State.DecodeWrote.canRead {n : Nat} (hn : s.rp + n ≤ s.srcLen.toNat) : s.CanRead (s.srcBase.toNat + s.rp) n :=
  fun i hi => by
    rw [Nat.add_assoc]
    exact h.accepted.reads (s.rp + i) (by omega)

theorem State.DecodeWrote.tail_endsAs (hp : s.phase = .tail) (hpix : s.pix = s.npix) :
    s.EndsAs m s.dstBase.toNat
      (if s.streamLeft = markerBytes then .ok (s.imageOf out) else .error .missingEndMarker) := by
  obtain ⟨hstatus, herr, _⟩ := h.accepted.running
  obtain ⟨hlen, hbad, _, hmarker⟩ := decoderTailStep s h.accepted.host hp h.accepted.op
  by_cases h8 : s.srcLen.toNat = s.rp + 8
  · have hleft : s.streamLeft = s.mem.readBytes (s.srcBase.toNat + s.rp) 8 := by
      rw [State.streamLeft, h8, Nat.add_sub_cancel_left]
    rw [hleft]
    split
    case isTrue hm =>
      have hout : (BitVec.ofNat 32 (s.npix * s.lc.toNat)).toNat = out.length := by
        rw [BitVec.toNat_ofNat, Nat.mod_eq_of_lt (h.capacity.trans_lt s.dstCap.isLt), h.length, hpix]
      refine .of_step (hmarker h8 (h.canRead h8.ge) hm) ⟨0, _, rfl, rfl, ?_, herr, rfl, rfl, rfl, hout, h.mem⟩
      rw [hstatus]
      rfl
    case isFalse hm => exact h.accepted.endsAs_of_raise (hbad h8 (h.canRead h8.ge) hm) m _
  · have hleft : s.streamLeft ≠ markerBytes := fun hm => by
      have hcount := congrArg List.length hm
      rw [State.streamLeft, Memory.readBytes_length, show markerBytes.length = 8 from rfl] at hcount
      omega
    rw [if_neg hleft]
    exact h.accepted.endsAs_of_raise (hlen h8) m _

/-! ### One BODY step (R211) -/

/-- R211, R263: the bytes left end inside a chunk, or before it. -/
theorem State.DecodeWrote.fetchChunk_of_reject {e : DecodeError} (hd : decodeChunk s.streamLeft = .reject e) :
    fetchChunk s = .error (.raise .truncatedStream) := by
  rw [fetchChunk]
  by_cases hlt : s.rp < s.srcLen.toNat
  · obtain ⟨n, hn⟩ : ∃ n, s.srcLen.toNat - s.rp = n + 1 := ⟨s.srcLen.toNat - s.rp - 1, by omega⟩
    obtain ⟨haddr, hok⟩ := (h.canRead (n := 1) hlt).head
    rw [State.streamLeft, hn, readBytes_succ] at hd
    have hlong : ¬(classify (s.mem.read (s.srcBase.toNat + s.rp))).length ≤ n + 1 := fun hfits => by
      obtain ⟨i, rest, hi⟩ := decodeChunk_of_fits (t := s.mem.read (s.srcBase.toNat + s.rp))
        (more := s.mem.readBytes (s.srcBase.toNat + s.rp + 1) n) (by rwa [Memory.readBytes_length])
      rw [hd] at hi
      cases hi
    rw [require_of_true (decide_eq_true hlt), ok_bind, loadByte_of_canRead haddr hok, ok_bind,
      require_of_false (decide_eq_false (by omega)), error_bind]
  · rw [require_of_false (decide_eq_false hlt), error_bind]

/-- R211: a chunk at the head of the bytes left is what the fetch gives, and the bytes after it are left. -/
theorem State.DecodeWrote.fetchChunk_of_instr {i : Instr} {rest : List Byte}
    (hd : decodeChunk s.streamLeft = .instr i rest) :
    fetchChunk s = .ok i ∧ i.place = .chunk ∧ s.rp + i.length ≤ s.srcLen.toNat ∧
      rest = s.mem.readBytes (s.srcBase.toNat + (s.rp + i.length)) (s.srcLen.toNat - (s.rp + i.length)) := by
  obtain ⟨hplace, item, hbytes, hlen, hitem⟩ := decodeChunk_eq_append hd
  have hcount := congrArg List.length hbytes
  rw [State.streamLeft, Memory.readBytes_length, List.length_append, hlen] at hcount
  have hinside := h.readHigh
  have hsplit : s.srcLen.toNat - s.rp = i.length + (s.srcLen.toNat - (s.rp + i.length)) := by omega
  have hfits : s.rp + i.length ≤ s.srcLen.toNat := by omega
  rw [State.streamLeft, hsplit, Memory.readBytes_append, Nat.add_assoc] at hbytes
  obtain ⟨hhead, hrest⟩ := List.append_inj hbytes (by rw [Memory.readBytes_length, hlen])
  rw [← hhead] at hitem
  exact ⟨fetchChunk_eq_ok.mpr ⟨hfits, h.canRead hfits, hplace, hitem⟩, hplace, hfits, hrest.symm⟩

theorem State.DecodeWrote.step_body (hp : s.phase = .body) (hlt : s.pix < s.npix) :
    step s = runFetched s (fetchChunk s) := by
  rw [step_of_no_host h.accepted.host, engineStep_decBody hp h.accepted.op, if_neg (by omega)]

end

/-- The state after a BODY step that produced `n` copies of `p` from the chunk `i` (R211, R212). -/
def State.afterProduced (s : State) (i : Instr) (p : Pixel) (n : Nat) : State :=
  { s.afterPixels p n with rp := s.rp + i.length }

/-- R212, R214: the machine's coder after the pixels is that of `decode(bytes)`. -/
theorem State.coder_afterProduced (s : State) (i : Instr) (p : Pixel) (n : Nat) :
    (⟨(s.afterProduced i p n).prev, (s.afterProduced i p n).cache⟩ : Coder) =
      (⟨s.prev, s.cache⟩ : Coder).noteMany s.lc p n := by
  rw [Coder.noteMany_eq]
  by_cases hn : n = 0 <;> simp [State.afterProduced, State.afterPixels, hn, Coder.note]

section
variable {s : State} {m : Memory} {out : List Byte} (h : s.DecodeWrote m out) {i : Instr} {p : Pixel} {n : Nat}
include h

/-- R210: the pixels wanted lie in the destination. -/
theorem State.DecodeWrote.pixels_le (hn : s.pix + n ≤ s.npix) :
    s.pix * s.lc.toNat + n * s.lc.toNat ≤ s.dstCap.toNat := by
  rw [← Nat.add_mul]
  exact (Nat.mul_le_mul_right _ hn).trans h.capacity

theorem State.DecodeWrote.step_chunk (hp : s.phase = .body) (hlt : s.pix < s.npix) (hf : fetchChunk s = .ok i)
    (hi : i.place = .chunk) (he : chunkEffect ⟨s.prev, s.cache⟩ i = (p, n)) :
    step s = .next (if s.npix - s.pix < n then s.raise .pixelCountMismatch else s.afterProduced i p n) := by
  rw [h.step_body hp hlt, hf, runFetched_ok, exec_chunk hi, he]
  split
  case isTrue hmany => rw [chunkStep, require_of_false (decide_eq_false (by omega)), error_bind, settle_raise]
  case isFalse hfew =>
    have hn : s.pix + n ≤ s.npix := by omega
    have hwrite : s.CanWrite (s.dstPixel s.pix) (n * s.lc.toNat) := fun j hj => by
      have hroom := h.pixels_le hn
      rw [State.dstPixel, Nat.add_assoc]
      exact h.accepted.writes (s.pix * s.lc.toNat + j) (by omega)
    rw [(chunkStep_eq_ok h.channels).mpr ⟨hn, hwrite, rfl⟩, settle_ok]
    rfl

theorem State.DecodeWrote.afterProduced (hn : s.pix + n ≤ s.npix) (hfits : s.rp + i.length ≤ s.srcLen.toNat) :
    (s.afterProduced i p n).DecodeWrote m (out ++ copyBytes s.lc p n) where
  accepted := ⟨h.accepted.host, h.accepted.op, h.accepted.regions, h.accepted.reads, h.accepted.writes,
    h.accepted.running⟩
  channels := h.channels
  capacity := h.capacity
  pixels := hn
  readHigh := hfits
  length := by
    rw [List.length_append, h.length, copyBytes_length p h.channels, ← Nat.add_mul]
    rfl
  mem := by
    show s.mem.writeBytes (s.dstPixel s.pix) (copyBytes s.lc p n) = _
    rw [h.mem, State.dstPixel, ← h.length, ← Memory.writeBytes_append]
    rfl

/-- Pixels written into the destination leave the stream as it is (R61, R244). -/
theorem State.DecodeWrote.streamLeft_afterProduced (hn : s.pix + n ≤ s.npix) :
    (s.afterProduced i p n).streamLeft =
      s.mem.readBytes (s.srcBase.toNat + (s.rp + i.length)) (s.srcLen.toNat - (s.rp + i.length)) := by
  obtain ⟨_, _, hapart⟩ := State.regionsOk_iff.mp h.accepted.regions
  have hroom := h.pixels_le hn
  refine Memory.readBytes_congr fun a hlo hhi => Memory.read_writeBytes_outside _ _ ?_
  rw [copyBytes_length p h.channels, State.dstPixel]
  simp only [State.afterProduced, State.afterPixels] at hlo hhi
  omega

end

/-! ### The chunks, the header and the whole decode (R214) -/

/-- What `decode(bytes)` makes of the bytes left, from the machine's coder and the pixels still wanted. -/
def State.decodeLeft (s : State) (fuel : Nat) (out : List Byte) : Except ErrCode Image :=
  (decodeBody s.lc fuel ⟨s.prev, s.cache⟩ (s.npix - s.pix) s.streamLeft).map fun rest => s.imageOf (out ++ rest)

section
variable {s : State} {m : Memory} {out : List Byte} (h : s.DecodeWrote m out)
include h

/-- R211, R214: `decode(bytes)` takes the chunk that the machine's step takes. -/
theorem State.DecodeWrote.decodeLeft_of_instr (hlt : s.pix < s.npix) {i : Instr} {rest : List Byte}
    (hd : decodeChunk s.streamLeft = .instr i rest) {p : Pixel} {n : Nat}
    (he : chunkEffect ⟨s.prev, s.cache⟩ i = (p, n)) (fuel : Nat) :
    s.decodeLeft (fuel + 1) out =
      if s.npix - s.pix < n then .error .pixelCountMismatch
      else (s.afterProduced i p n).decodeLeft fuel (out ++ copyBytes s.lc p n) := by
  obtain ⟨_, _, _, hbytes⟩ := h.fetchChunk_of_instr hd
  rw [State.decodeLeft, decodeBody_of_instr hd _ _ (Nat.sub_pos_of_lt hlt) he]
  split
  case isTrue => rfl
  case isFalse hfew =>
    rw [State.decodeLeft, h.streamLeft_afterProduced (by omega), ← hbytes, State.coder_afterProduced]
    show _ = Except.map (fun rest => s.imageOf (out ++ copyBytes s.lc p n ++ rest))
      (decodeBody s.lc fuel _ (s.npix - (s.pix + n)) rest)
    rw [Nat.sub_sub]
    cases decodeBody s.lc fuel (Coder.noteMany ⟨s.prev, s.cache⟩ s.lc p n) (s.npix - (s.pix + n)) rest with
    | error x => rfl
    | ok data => simp only [Except.map, List.append_assoc]

variable (hp : s.phase = .body)
include hp

/-- R211: with no pixel wanted, a step that reads nothing, then the tail. -/
theorem State.DecodeWrote.bodyEnd_endsAs (hpix : s.pix = s.npix) (fuel : Nat) :
    s.EndsAs m s.dstBase.toNat (s.decodeLeft fuel out) := by
  have hstep : step s = .next { s with phase := .tail } := by
    rw [step_of_no_host h.accepted.host, engineStep_decBody hp h.accepted.op, if_pos hpix]
  have hleft : s.decodeLeft fuel out =
      if s.streamLeft = markerBytes then .ok (s.imageOf out) else .error .missingEndMarker := by
    rw [State.decodeLeft, hpix, Nat.sub_self, decodeBody_zero]
    split
    · rw [Except.map, List.append_nil]
    · rfl
  rw [hleft]
  exact .of_step hstep ((h.withPhase .tail).tail_endsAs rfl hpix)

theorem State.DecodeWrote.truncated_endsAs (hlt : s.pix < s.npix) {e : DecodeError}
    (hd : decodeChunk s.streamLeft = .reject e) (fuel : Nat) :
    s.EndsAs m s.dstBase.toNat (s.decodeLeft fuel out) := by
  have hstep : step s = .next (s.raise .truncatedStream) := by
    rw [h.step_body hp hlt, h.fetchChunk_of_reject hd, runFetched_raise]
  rw [State.decodeLeft, decodeBody_of_reject hd _ _ _ (Nat.sub_pos_of_lt hlt)]
  exact h.accepted.endsAs_of_raise hstep m _

/-- R211: one chunk, given the end of what follows its pixels. -/
theorem State.DecodeWrote.chunk_endsAs (hlt : s.pix < s.npix) {i : Instr} {rest : List Byte}
    (hd : decodeChunk s.streamLeft = .instr i rest) {fuel : Nat}
    (hrest : ∀ p n, s.pix + n ≤ s.npix →
      (s.afterProduced i p n).EndsAs m s.dstBase.toNat
        ((s.afterProduced i p n).decodeLeft fuel (out ++ copyBytes s.lc p n))) :
    s.EndsAs m s.dstBase.toNat (s.decodeLeft (fuel + 1) out) := by
  obtain ⟨hfetch, hplace, _, _⟩ := h.fetchChunk_of_instr hd
  obtain ⟨p, n, he⟩ : ∃ p n, chunkEffect ⟨s.prev, s.cache⟩ i = (p, n) := ⟨_, _, rfl⟩
  rw [h.decodeLeft_of_instr hlt hd he]
  exact h.accepted.endsAs_of_check (h.step_chunk hp hlt hfetch hplace he) fun hfew hstep =>
    .of_step hstep (hrest p n (by omega))

end

/-- R211, R214, by induction on the rounds of `decode(bytes)`, of which the bytes left need at most one each. -/
theorem State.DecodeWrote.body_endsAs {fuel : Nat} {s : State} {m : Memory} {out : List Byte} (h : s.DecodeWrote m out)
    (hp : s.phase = .body) (hfuel : s.srcLen.toNat ≤ s.rp + fuel) :
    s.EndsAs m s.dstBase.toNat (s.decodeLeft fuel out) := by
  induction fuel generalizing s out with
  | zero =>
    rcases h.pixels.eq_or_lt with hpix | hlt
    · exact h.bodyEnd_endsAs hp hpix 0
    · have hd : decodeChunk s.streamLeft = .reject .truncated := by
        rw [State.streamLeft, Nat.sub_eq_zero_of_le (by omega)]
        rfl
      exact h.truncated_endsAs hp hlt hd 0
  | succ fuel ih =>
    rcases h.pixels.eq_or_lt with hpix | hlt
    · exact h.bodyEnd_endsAs hp hpix _
    · cases hd : decodeChunk s.streamLeft with
      | reject e => exact h.truncated_endsAs hp hlt hd _
      | instr i rest =>
        obtain ⟨_, _, hfits, _⟩ := h.fetchChunk_of_instr hd
        have hi := Instr.length_pos i
        refine h.chunk_endsAs hp hlt hd fun p n hn => ih (h.afterProduced hn hfits) hp ?_
        show s.srcLen.toNat ≤ s.rp + i.length + fuel
        omega

/-- R210: the decode a passed HEADER step begins. -/
theorem State.DecodeAccepted.beginDecode {s : State} (h : s.DecodeAccepted) {w ht : Word} {c cs : Byte}
    (hc : c = 3 ∨ c = 4) (hcap : w.toNat * ht.toNat * c.toNat ≤ s.dstCap.toNat) (hlong : 14 ≤ s.srcLen.toNat) :
    (s.beginDecode w ht c cs).DecodeWrote s.mem [] where
  accepted := ⟨h.host, h.op, h.regions, h.reads, h.writes, h.running⟩
  channels := hc
  capacity := hcap
  pixels := Nat.zero_le _
  readHigh := hlong
  length := (Nat.zero_mul _).symm
  mem := rfl

/-- R210, R214: the `n` bytes after the header decoded. -/
theorem State.DecodeAccepted.beginDecode_endsAs {s : State} (h : s.DecodeAccepted) {w ht : Word} {c cs : Byte}
    (hc : c = 3 ∨ c = 4) (hcap : w.toNat * ht.toNat * c.toNat ≤ s.dstCap.toNat) {n : Nat}
    (hn : s.srcLen.toNat = 14 + n) :
    (s.beginDecode w ht c cs).EndsAs s.mem s.dstBase.toNat
      ((decodeBody c n Coder.fresh (w.toNat * ht.toNat) (s.mem.readBytes (s.srcBase.toNat + 14) n)).map
        fun out => ⟨w, ht, c, cs, out⟩) := by
  have hleft : (s.beginDecode w ht c cs).streamLeft = s.mem.readBytes (s.srcBase.toNat + 14) n := by
    rw [State.streamLeft, State.beginDecode_srcLen, State.beginDecode_rp, hn, Nat.add_sub_cancel_left]
    rfl
  have hend := (h.beginDecode (cs := cs) hc hcap (by omega)).body_endsAs (fuel := n) rfl hn.le
  rw [State.decodeLeft, hleft] at hend
  exact hend

theorem State.DecodeAccepted.header_endsAs {s : State} (h : s.DecodeAccepted) (hp : s.phase = .header) :
    s.EndsAs s.mem s.dstBase.toNat
      (decodeImage s.dstCap.toNat (s.mem.readBytes s.srcBase.toNat s.srcLen.toNat)) := by
  have hstep := step_decHeader h.host hp h.op
  by_cases hlong : 14 ≤ s.srcLen.toNat
  · have hread : s.CanRead s.srcBase.toNat 14 := fun i hi => h.reads i (hi.trans_le hlong)
    rw [fetchHeader_of_long hlong, loadBytes_of_canRead hread, ok_bind] at hstep
    obtain ⟨n, hn⟩ : ∃ n, s.srcLen.toNat = 14 + n := ⟨s.srcLen.toNat - 14, by omega⟩
    rw [hn, Memory.readBytes_append]
    rcases decodeHeader_append (Memory.readBytes_length s.mem s.srcBase.toNat 14)
      (s.mem.readBytes (s.srcBase.toNat + 14) n) with ⟨w, ht, c, cs, hitem, hall⟩ | ⟨hitem, hall⟩
    · rw [decodeFetched_of_instr hitem, runFetched_ok, exec_hdr_eq] at hstep
      rw [decodeImage_of_header hall, Memory.readBytes_length]
      refine h.endsAs_of_check hstep fun hc hstep => ?_
      refine h.endsAs_of_check hstep fun _ hstep => ?_
      refine h.endsAs_of_check hstep fun _ hstep => ?_
      refine h.endsAs_of_check hstep fun hcap hstep => .of_step hstep ?_
      exact h.beginDecode_endsAs (not_not.mp hc) (Nat.not_lt.mp hcap) hn
    · rw [decodeFetched_of_reject hitem, runFetched_raise] at hstep
      simp only [decodeImage, hall]
      exact h.endsAs_of_raise hstep _ _
  · have hshort : s.srcLen.toNat < 14 := Nat.not_le.mp hlong
    rw [fetchHeader_of_short hshort, runFetched_raise] at hstep
    simp only [decodeImage, decodeHeader_of_short (bs := s.mem.readBytes s.srcBase.toNat s.srcLen.toNat)
      (by rwa [Memory.readBytes_length])]
    exact h.endsAs_of_raise hstep _ _

/-- R241: in CHECK the flags are those of a running operation. -/
theorem State.Inv.status_of_check {s : State} (h : s.Inv) (hp : s.phase = .check) : s.status = Status.running := by
  have hbusy := h.busy_of_check hp
  obtain ⟨hnotDone, hnotErr, _⟩ := h.oneFlag
  have hdone : s.status.done = false := by simpa [hbusy] using hnotDone
  have herr : s.status.err = false := by simpa [hbusy] using hnotErr
  calc s.status = ⟨s.status.busy, s.status.done, s.status.err⟩ := rfl
    _ = Status.running := by rw [hbusy, hdone, herr, Status.running]

/-- R242, R244: the CHECK step of a decode with legal regions. -/
theorem step_check_decode {s : State} (hhost : s.host = []) (hp : s.phase = .check) (hcmd : s.ctrl.cmd = 1)
    (hr : s.regionsOk = true) : step s = .next { s with op := .dec, phase := .header } := by
  rw [step_of_no_host hhost, engineStep_check hp, checkStep, if_neg (by rw [hcmd]; decide), if_pos hcmd,
    settle_require_bind, if_pos hr]
  rfl

end Sys2Proof.Machine

open Sys2Proof Sys2Proof.Machine

/-- Settles O60: the CHECK step begins the decode, whose HEADER, BODY and TAIL steps end as `decode(bytes)` says. -/
theorem decodeRunWritesDecoding : Obligations.DecodeRunWritesDecoding := by
  unfold Obligations.DecodeRunWritesDecoding
  intro s hinv hhost hp hcmd hregions hreads hwrites
  have haccepted : ({ s with op := .dec, phase := .header } : State).DecodeAccepted :=
    ⟨hhost, rfl, hregions, hreads, hwrites, hinv.status_of_check hp, hinv.running (hinv.busy_of_check hp)⟩
  obtain ⟨k, t, hrun, hidle, hend⟩ : s.EndsAs s.mem s.dstBase.toNat _ :=
    .of_step (step_check_decode hhost hp hcmd hregions) (haccepted.header_endsAs rfl)
  exact ⟨k, t, hrun, hidle, hend⟩
end

section
/-! The host's register writes (R240 to R248): an admitted access reaches the register at its offset, and what each
register does with the value. -/

namespace Sys2Proof.Machine

/-! ### The register an access reaches -/

/-- R43, R65: the accesses the window admits. -/
theorem windowOffset_of_aligned (p : Platform) {o : Nat} (hlt : o < 64) (halign : o % 4 = 0) :
    windowOffset p (p.regBase + o) 4 = some o := by
  rw [windowOffset, Nat.add_sub_cancel_left, if_pos ⟨Nat.le_add_right _ _, Nat.add_lt_add_left hlt _, halign, rfl⟩]

theorem step_regWrite {s : State} {o : Nat} {v : Word} {moves : List HostMove} (hlt : o < 64) (halign : o % 4 = 0)
    (hhost : s.host = .regWrite (s.platform.regBase + o) 4 v :: moves) :
    step s = writeReg { s with host := moves } (regAt o) v := by
  rw [step, moveStep, hhost]
  simp only [hostStep, windowOffset_of_aligned s.platform hlt halign]

/-! ### What a write does to its register -/

theorem writeReg_of_busy {s : State} (h : s.status.busy = true) (r : Reg) (v : Word) : writeReg s r v = .next s :=
  if_pos h

/-- R241: a word with START set starts the command it names, whichever that is. -/
theorem writeCtrl_of_start {v : Word} (h : v.getLsbD 0 = true) (s : State) :
    writeCtrl s v = .next (s.start ⟨v.extractLsb' 1 2, v.getLsbD 3⟩) := by
  rw [writeCtrl, decodeCtrl, if_pos h]
  by_cases hencode : v.extractLsb' 1 2 = 0b00#2
  · rw [if_pos hencode, hencode]
    rfl
  · rw [if_neg hencode]
    by_cases hdecode : v.extractLsb' 1 2 = 0b01#2
    · rw [if_pos hdecode, hdecode]
      rfl
    · rw [if_neg hdecode]
      rfl

theorem writeCtrl_of_no_start {v : Word} (h : ¬ v.getLsbD 0 = true) (s : State) :
    writeCtrl s v = .next (s.setFlags ⟨v.extractLsb' 1 2, v.getLsbD 3⟩ s.status) := by
  rw [writeCtrl, decodeCtrl, if_neg h]

/-- R241, R44: START clears the flags, so it lowers the interrupt; without START the old flags meet the new IRQ_EN. -/
theorem writeReg_ctrl_of_idle {s : State} (hidle : ¬ s.status.busy = true) (v : Word) :
    writeReg s .ctrl v = .next (
      if v.getLsbD 0 then
        { s with ctrl := ⟨v.extractLsb' 1 2, v.getLsbD 3⟩, status := ⟨true, false, false⟩, irq := false, errcode := 0,
                 outLen := 0, phase := .check }
      else { s with ctrl := ⟨v.extractLsb' 1 2, v.getLsbD 3⟩
                    irq := v.getLsbD 3 && (s.status.done || s.status.err) }) := by
  have hreg : writeReg s .ctrl v = writeCtrl s v := if_neg hidle
  by_cases hstart : v.getLsbD 0 = true
  · have hirq : irqLevel ⟨v.extractLsb' 1 2, v.getLsbD 3⟩ Status.running = false := Bool.and_false _
    rw [hreg, writeCtrl_of_start hstart, State.start_of_idle _ _ (Bool.eq_false_iff.mpr hidle), State.setFlags, hirq,
      Status.running, if_pos hstart]
  · rw [hreg, writeCtrl_of_no_start hstart, State.setFlags, irqLevel, if_neg hstart]

end Sys2Proof.Machine

open Sys2Proof Sys2Proof.Machine

/-- Settles O42: the write reaches the register at its offset, which ignores it while BUSY = 1; otherwise the sixteen
offsets one by one, CTRL by the lemma on its write and every other by its own arm of `writeReg`. -/
theorem registerWrite : Obligations.RegisterWrite := by
  unfold Obligations.RegisterWrite
  intro s u o v moves hlt halign hhost hu
  have hstep : step s = writeReg u (regAt o) v := hu ▸ step_regWrite hlt halign hhost
  have hstatus : s.status = u.status := by rw [hu]
  have hctrl : s.ctrl = u.ctrl := by rw [hu]
  rw [hstep, hstatus, hctrl]
  by_cases hbusy : u.status.busy = true
  · rw [if_pos hbusy]
    exact writeReg_of_busy hbusy (regAt o) v
  · rw [if_neg hbusy]
    obtain ⟨k, rfl⟩ := Nat.dvd_of_mod_eq_zero halign
    have hk : k < 16 := by omega
    interval_cases k
    · exact writeReg_ctrl_of_idle hbusy v
    all_goals exact if_neg hbusy
end

section
/-! The encodings both ways (R81 to R90): the decoder reads back what the encoder writes at every place, and the encoder
gives back the bytes the decoder read from the stream. -/

namespace Sys2Proof

/-! ### The class of a chunk by its fields -/

/-- R82 the other way round: what each class says of byte 0. -/
theorem toNat_of_classify (t : Byte) :
    match classify t with
    | .rgb => t.toNat = 0xFE
    | .rgba => t.toNat = 0xFF
    | .index => t.toNat / 64 = 0
    | .diff => t.toNat / 64 = 1
    | .luma => t.toNat / 64 = 2
    | .run => t.toNat / 64 = 3 ∧ t.toNat % 64 < 62 := by
  have ht : t.toNat < 256 := t.isLt
  rw [classify_eq_of_value]
  split_ifs <;> dsimp only <;> omega

/-- A byte is its tag bits and its low six bits. -/
theorem tag_append_low {t : Byte} {k : BitVec 2} (h : t.toNat / 64 = k.toNat) : k ++ t.extractLsb' 0 6 = t := by
  refine BitVec.eq_of_toNat_eq ?_
  rw [append_toNat_eq_add, lowBits_toNat, ← h]
  omega

/-- Six bits are their three fields of two. -/
theorem low_fields (t : Byte) (k : BitVec 2) :
    k ++ t.extractLsb' 4 2 ++ t.extractLsb' 2 2 ++ t.extractLsb' 0 2 = k ++ t.extractLsb' 0 6 := by
  refine BitVec.eq_of_toNat_eq ?_
  simp only [append_toNat_eq_add, BitVec.extractLsb'_toNat, Nat.shiftRight_eq_div_pow]
  omega

/-- A byte is its two nibbles. -/
theorem nibbles_append (u : Byte) : u.extractLsb' 4 4 ++ u.extractLsb' 0 4 = u := by
  have hu : u.toNat < 256 := u.isLt
  refine BitVec.eq_of_toNat_eq ?_
  rw [append_toNat_eq_add, BitVec.extractLsb'_toNat, BitVec.extractLsb'_toNat, Nat.shiftRight_eq_div_pow]
  omega

/-! ### The encoder on what the decoder reads -/

section
variable {t : Byte}

theorem encode_decodeIndex (h : t.toNat / 64 = 0) : encode (decodeIndex t) = [t] :=
  congrArg ([·]) (tag_append_low (k := 0b00#2) h)

theorem encode_decodeDiff (h : t.toNat / 64 = 1) : encode (decodeDiff t) = [t] := by
  rw [decodeDiff, encode, biased_unbias, biased_unbias, biased_unbias, low_fields, tag_append_low (k := 0b01#2) h]

theorem encode_decodeLuma (h : t.toNat / 64 = 2) (u : Byte) : encode (decodeLuma t u) = [t, u] := by
  rw [decodeLuma, encode, biased_unbias, biased_unbias, biased_unbias, tag_append_low (k := 0b10#2) h, nibbles_append]

theorem encode_decodeRun (h : t.toNat / 64 = 3) : encode (decodeRun t) = [t] := by
  have hfield : biased 6 (((t.extractLsb' 0 6).toNat + 1 : Nat) : Int) (-1) = t.extractLsb' 0 6 := by
    rw [biased, Nat.cast_add, Nat.cast_one, Int.add_neg_cancel_right, BitVec.ofInt_natCast, BitVec.ofNat_toNat,
      BitVec.setWidth_eq]
  rw [decodeRun, encode, hfield, tag_append_low (k := 0b11#2) h]

end

/-- R81 to R83: no bit of a chunk is lost. -/
theorem encode_of_decodeChunk {bs rest : List Byte} {i : Instr} (h : decodeChunk bs = .instr i rest) :
    encode i ++ rest = bs := by
  cases bs with
  | nil => cases h
  | cons t more =>
    have hclass := toNat_of_classify t
    unfold decodeChunk at h
    simp only at h
    split at h <;> cases h <;> rename_i hk <;> rw [hk] at hclass
    · rw [show t = 0xFE from BitVec.eq_of_toNat_eq hclass]
      rfl
    · rw [show t = 0xFF from BitVec.eq_of_toNat_eq hclass]
      rfl
    · rw [encode_decodeIndex hclass, List.singleton_append]
    · rw [encode_decodeDiff hclass, List.singleton_append]
    · rw [encode_decodeLuma hclass]
      rfl
    · rw [encode_decodeRun hclass.1, List.singleton_append]

/-- R89: so it is with the header. -/
theorem encode_of_decodeHeader {bs rest : List Byte} {i : Instr} (h : decodeHeader bs = .instr i rest) :
    i.place = .header ∧ encode i ++ rest = bs := by
  unfold decodeHeader at h
  split at h
  · split at h
    · rename_i hmagic
      cases h
      refine ⟨rfl, ?_⟩
      simp only [encode, beBytes_beWord, ← hmagic, List.cons_append, List.nil_append]
    · cases h
  · cases h

/-- R90: so it is with the marker. -/
theorem encode_of_decodeMarker {bs rest : List Byte} {i : Instr} (h : decodeMarker bs = .instr i rest) :
    i.place = .tail ∧ encode i ++ rest = bs := by
  unfold decodeMarker at h
  split at h
  · rename_i hmarker
    cases h
    refine ⟨rfl, ?_⟩
    rw [encode, ← hmarker, List.take_append_drop]
  · cases h

theorem decodeMarker_encode (rest : List Byte) : decodeMarker (encode .endMarker ++ rest) = .instr .endMarker rest := by
  have hhead : (encode .endMarker ++ rest).take 8 = markerBytes := rfl
  rw [decodeMarker, if_pos hhead]
  rfl

/-! ### The operands the decoder reads -/

theorem inRange_unbias {n : Nat} (f : BitVec n) {bias hi : Int} (h : ((2 ^ n : Nat) : Int) = hi + 1 + bias) :
    inRange (-bias) hi (unbias f bias) = true := by
  have hf := f.isLt
  rw [inRange, Bool.and_eq_true, decide_eq_true_iff, decide_eq_true_iff, unbias]
  omega

/-- R83, R85: the operands of a chunk read are within their fields' ranges. -/
theorem decodeChunk_wf {bs rest : List Byte} {i : Instr} (h : decodeChunk bs = .instr i rest) : i.wf = true := by
  cases bs with
  | nil => cases h
  | cons t more =>
    have hclass := toNat_of_classify t
    unfold decodeChunk at h
    simp only at h
    split at h <;> cases h <;> rename_i hk <;> rw [hk] at hclass
    · rfl
    · rfl
    · rfl
    · have hfield (f : BitVec 2) : inRange (-2) 1 (unbias f 2) = true := inRange_unbias f rfl
      simp only [decodeDiff, Instr.wf, hfield, Bool.and_self]
    · have hgreen (f : BitVec 6) : inRange (-32) 31 (unbias f 32) = true := inRange_unbias f rfl
      have hother (f : BitVec 4) : inRange (-8) 7 (unbias f 8) = true := inRange_unbias f rfl
      simp only [decodeLuma, Instr.wf, hgreen, hother, Bool.and_self]
    · have hmax := hclass.2
      simp only [decodeRun, Instr.wf, lowBits_toNat, Bool.and_eq_true, decide_eq_true_eq]
      omega

/-- R83: DIFF's operands by arithmetic on its byte. -/
theorem decodeDiff_eq (t : Byte) :
    decodeDiff t = .diff ((t.toNat / 16 % 4 : Nat) - 2) ((t.toNat / 4 % 4 : Nat) - 2) ((t.toNat % 4 : Nat) - 2) := by
  simp only [decodeDiff, unbias, BitVec.extractLsb'_toNat, Nat.shiftRight_eq_div_pow, Nat.reducePow, Nat.div_one]

/-- R83: LUMA's operands by arithmetic on its bytes. -/
theorem decodeLuma_eq (t u : Byte) :
    decodeLuma t u = .luma ((t.toNat % 64 : Nat) - 32) ((u.toNat / 16 : Nat) - 8) ((u.toNat % 16 : Nat) - 8) := by
  have hhigh : u.toNat / 16 % 16 = u.toNat / 16 := Nat.mod_eq_of_lt (by have := u.isLt; omega)
  simp only [decodeLuma, unbias, BitVec.extractLsb'_toNat, Nat.shiftRight_eq_div_pow, Nat.reducePow, Nat.div_one, hhigh]

/-! ### Command words (R87) -/

/-- The decoder's reading of a written word, by its bits. -/
theorem decodeCtrl_eq (v : Word) :
    decodeCtrl v =
      if v.getLsbD 0 = false then .reject .noStart
      else if v.extractLsb' 1 2 = 0 then .instr (.encodeCmd (v.getLsbD 3)) []
      else if v.extractLsb' 1 2 = 1 then .instr (.decodeCmd (v.getLsbD 3)) []
      else .instr (.reservedCmd (v.extractLsb' 1 2) (v.getLsbD 3)) [] := by
  rw [decodeCtrl]
  cases v.getLsbD 0 <;> rfl

/-- A word's bytes, least significant first, are read as the word (log 20). -/
theorem decode_ctrl_leBytes_append {v : Word} {i : Instr} (h : decodeCtrl v = .instr i []) (rest : List Byte) :
    decode .ctrl (leBytes v ++ rest) = .instr i rest := by
  simp only [leBytes, List.cons_append, List.nil_append, decode, beWord_beBytes, h]

theorem decode_ctrl_leBytes (v : Word) : decode .ctrl (leBytes v) = decodeCtrl v := by
  simp only [leBytes, decode, beWord_beBytes]
  rw [decodeCtrl_eq]
  split_ifs <;> rfl

/-- Where the encoder puts START, CMD and IRQ_EN. -/
theorem ctrlWord_fields (cmd : BitVec 2) (irqEn : Bool) :
    (ctrlWord cmd irqEn).getLsbD 0 = true ∧ (ctrlWord cmd irqEn).extractLsb' 1 2 = cmd ∧
      (ctrlWord cmd irqEn).getLsbD 3 = irqEn := by
  revert cmd irqEn
  decide

theorem decodeCtrl_ctrlWord (cmd : BitVec 2) (irqEn : Bool) :
    decodeCtrl (ctrlWord cmd irqEn) =
      if cmd = 0 then .instr (.encodeCmd irqEn) []
      else if cmd = 1 then .instr (.decodeCmd irqEn) []
      else .instr (.reservedCmd cmd irqEn) [] := by
  obtain ⟨hstart, hcmd, hirq⟩ := ctrlWord_fields cmd irqEn
  rw [decodeCtrl_eq, hstart, hcmd, hirq]
  rfl

theorem leBytes_ctrlWord (cmd : BitVec 2) (irqEn : Bool) :
    leBytes (ctrlWord cmd irqEn) = [BitVec.ofNat 8 (irqEn.toNat * 8 + cmd.toNat * 2 + 1), 0, 0, 0] := by
  revert cmd irqEn
  decide

end Sys2Proof

open Sys2Proof

/-- Settles O1: chunk by chunk, the header and the marker by their bytes, a command by its word's fields. -/
theorem decodeOfEncodeIsInstruction : Obligations.DecodeOfEncodeIsInstruction := by
  unfold Obligations.DecodeOfEncodeIsInstruction
  intro i rest hwf
  cases i with
  | rgb | rgba | index | diff | luma | run => exact decodeChunk_encode rfl hwf rest
  | hdr w h c cs => exact decodeHeader_encode w h c cs rest
  | endMarker => exact decodeMarker_encode rest
  | encodeCmd irqEn => exact decode_ctrl_leBytes_append ((decodeCtrl_ctrlWord 0 irqEn).trans (if_pos rfl)) rest
  | decodeCmd irqEn =>
    exact decode_ctrl_leBytes_append ((decodeCtrl_ctrlWord 1 irqEn).trans ((if_neg (by decide)).trans (if_pos rfl))) rest
  | reservedCmd cmd irqEn =>
    have hcmd : cmd ≠ 0 ∧ cmd ≠ 1 := by
      rw [Instr.wf, Bool.or_eq_true, beq_iff_eq, beq_iff_eq] at hwf
      rcases hwf with rfl | rfl <;> decide
    have hword := decodeCtrl_ctrlWord cmd irqEn
    rw [if_neg hcmd.1, if_neg hcmd.2] at hword
    exact decode_ctrl_leBytes_append hword rest

/-- Settles O2: place by place, the encoder on the fields the decoder read. -/
theorem encodeOfDecodeIsBytes : Obligations.EncodeOfDecodeIsBytes := by
  unfold Obligations.EncodeOfDecodeIsBytes
  intro p bs i rest hplace hd
  cases p with
  | header => exact encode_of_decodeHeader hd
  | chunk => exact ⟨(decodeChunk_eq_append hd).1, encode_of_decodeChunk hd⟩
  | tail => exact encode_of_decodeMarker hd
  | ctrl => exact absurd rfl hplace

/-- Settles O3: with the bytes its class takes a chunk is read, of that length and with operands in range. -/
theorem tagSelectsOneChunk : Obligations.TagSelectsOneChunk := by
  unfold Obligations.TagSelectsOneChunk
  intro t more hfits
  obtain ⟨i, rest, hd⟩ := decodeChunk_of_fits hfits
  obtain ⟨hplace, hlength, hrest, _⟩ := decodeChunk_instr hd
  rw [hrest, hlength] at hd
  exact ⟨i, hd, hplace, decodeChunk_wf hd, hlength⟩

/-- Settles O5: the class from the tag bits, then the decoder's fields as quotients and remainders. -/
theorem biasedFieldsAssembled : Obligations.BiasedFieldsAssembled := by
  unfold Obligations.BiasedFieldsAssembled
  intro t u more
  refine ⟨fun htag => ?_, fun htag => ?_, fun htag hmax => ?_⟩
  · rw [decode_of_classify_diff (classify_eq_diff (by omega) (by omega)), decodeDiff_eq]
  · rw [decode_of_classify_luma (classify_eq_luma (by omega) (by omega)), decodeLuma_eq]
  · rw [decode_of_classify_run (classify_eq_run (by omega) (by omega)), decodeRun, lowBits_toNat]

/-- Settles O7: the four bytes of a command word, and the decoder's reading of any word by its bits. -/
theorem commandWords : Obligations.CommandWords := by
  unfold Obligations.CommandWords
  refine fun cmd irqEn => ⟨leBytes_ctrlWord 0 irqEn, leBytes_ctrlWord 1 irqEn, leBytes_ctrlWord cmd irqEn, fun v => ?_⟩
  rw [decode_ctrl_leBytes, decodeCtrl_eq]

/-- Settles O8: the decoder evaluated on each of the words. -/
theorem sampleWordsDecode : Obligations.SampleWordsDecode := by
  unfold Obligations.SampleWordsDecode
  decide
end

section
/-! The chunks' meanings (R160 to R171, R211, R212): what emit_pixels answers in each case, and every chunk's next state
from the pixel and the count it gives. -/

namespace Sys2Proof.Machine

theorem copyBytes_eq_flatten (c : Byte) (p : Pixel) (n : Nat) :
    copyBytes c p n = (List.replicate n (pixelBytes c p)).flatten := by
  induction n with
  | zero => rfl
  | succ n ih => rw [copyBytes, ih, List.replicate_succ, List.flatten_cons]

/-- A chunk of at least one pixel leaves that pixel in the cache and in PREV (R212). -/
theorem State.afterPixels_of_pos (s : State) (p : Pixel) {n : Nat} (hn : 1 ≤ n) :
    s.afterPixels p n = { s with
      mem := s.mem.writeBytes (s.dstPixel s.pix) (copyBytes s.lc p n)
      cache := update s.lc s.cache p, prev := p, pix := s.pix + n } := by
  have hne : n ≠ 0 := Nat.ne_of_gt hn
  rw [State.afterPixels, if_neg hne, if_neg hne]

/-! ### What emit_pixels answers -/

section
variable {s : State} {p : Pixel} {n len : Nat}

theorem chunkStep_of_many (h : s.npix < s.pix + n) : chunkStep s p n len = .error (.raise .pixelCountMismatch) := by
  rw [chunkStep, require_of_false (decide_eq_false (Nat.not_le.mpr h)), error_bind]

variable (hc : s.lc = 3 ∨ s.lc = 4)
include hc

theorem chunkStep_of_canWrite (hpix : s.pix + n ≤ s.npix) (hw : s.CanWrite (s.dstPixel s.pix) (n * s.lc.toNat)) :
    chunkStep s p n len = .ok { s.afterPixels p n with rp := s.rp + len } :=
  (chunkStep_eq_ok hc).mpr ⟨hpix, hw, rfl⟩

/-- R269: one refused byte, and the chunk raises BUS_ERROR. -/
theorem chunkStep_of_refused (hpix : s.pix + n ≤ s.npix) (hend : s.dstPixel s.pix + n * s.lc.toNat ≤ Config.addressEnd)
    (hdeny : ∃ j, j < n * s.lc.toNat ∧ s.platform.memOk (s.dstPixel s.pix + j) .write = false) :
    chunkStep s p n len = .error (.raise .busError) := by
  obtain ⟨j, hj, hno⟩ := hdeny
  cases hstep : chunkStep s p n len with
  | ok t =>
    obtain ⟨_, hw, _⟩ := (chunkStep_eq_ok hc).mp hstep
    have hyes := (hw j hj).2
    simp [hno] at hyes
  | error e =>
    rcases chunkStep_eq_error hc hstep with ⟨hmany, _⟩ | ⟨_, i, hi, hstop⟩
    · omega
    · rw [eq_busError_of_access (by omega) hstop]

end

/-! ### The next state of a chunk -/

section
variable {s : State} {i : Instr} {p : Pixel} (hi : i.place = .chunk)
include hi

theorem exec_chunk_of_canWrite {n : Nat} (he : chunkEffect ⟨s.prev, s.cache⟩ i = (p, n)) (hc : s.lc = 3 ∨ s.lc = 4)
    (hn : 1 ≤ n) (hpix : s.pix + n ≤ s.npix) (hw : s.CanWrite (s.dstPixel s.pix) (n * s.lc.toNat)) :
    exec i s = .next { s with
      mem := s.mem.writeBytes (s.dstPixel s.pix) (List.replicate n (pixelBytes s.lc p)).flatten
      cache := update s.lc s.cache p, prev := p, pix := s.pix + n, rp := s.rp + i.length } := by
  rw [exec_chunk hi, he, chunkStep_of_canWrite hc hpix hw, settle_ok, State.afterPixels_of_pos s p hn,
    copyBytes_eq_flatten]

/-- The chunks of one pixel: all but RUN. -/
theorem exec_onePixel_of_canWrite (he : chunkEffect ⟨s.prev, s.cache⟩ i = (p, 1)) (hc : s.lc = 3 ∨ s.lc = 4)
    (hpix : s.pix + 1 ≤ s.npix) (hw : s.CanWrite (s.dstPixel s.pix) s.lc.toNat) :
    exec i s = .next { s with
      mem := s.mem.writeBytes (s.dstPixel s.pix) (pixelBytes s.lc p)
      cache := update s.lc s.cache p, prev := p, pix := s.pix + 1, rp := s.rp + i.length } := by
  rw [exec_chunk_of_canWrite hi he hc (Nat.le_refl 1) hpix (by rwa [Nat.one_mul]), ← copyBytes_eq_flatten,
    copyBytes_one]

/-- What a chunk that answers a next state has done: an error ending, or its pixels and nothing else. -/
theorem exec_chunk_next {t : State} (hc : s.lc = 3 ∨ s.lc = 4) (h : exec i s = .next t) :
    (t = s.raise .pixelCountMismatch ∨ t = s.raise .busError) ∨
      ∃ p n, t = { s.afterPixels p n with rp := s.rp + i.length } := by
  rw [exec_chunk hi] at h
  rcases settle_next.mp h with hok | ⟨c, hstop, rfl⟩
  · obtain ⟨_, _, rfl⟩ := (chunkStep_eq_ok hc).mp hok
    exact .inr ⟨_, _, rfl⟩
  · rcases chunkStep_eq_error hc hstop with ⟨_, he⟩ | ⟨_, j, _, hstop⟩
    · cases he
      exact .inl (.inl rfl)
    · rcases access_eq_error.mp hstop with ⟨_, he⟩ | ⟨_, _, he⟩ <;> cases he
      exact .inl (.inr rfl)

end

/-- The bytes outside the pixels emitted are as before. -/
theorem read_afterPixels_outside {s : State} (hc : s.lc = 3 ∨ s.lc = 4) (p : Pixel) (n : Nat) {a : Nat}
    (h : a < s.dstPixel s.pix ∨ s.dstPixel (s.pix + n) ≤ a) : (s.afterPixels p n).mem.read a = s.mem.read a := by
  rw [dstPixel_add, ← copyBytes_length p hc] at h
  exact Memory.read_writeBytes_outside _ _ h

end Sys2Proof.Machine

open Sys2Proof Sys2Proof.Machine

/-- Settles O22: too many pixels, all bytes accepted, and one refused. -/
theorem pixelsEmittedOrRaised : Obligations.PixelsEmittedOrRaised := by
  unfold Obligations.PixelsEmittedOrRaised
  intro s p n len hc hn
  refine ⟨chunkStep_of_many, fun hpix hw => ?_, chunkStep_of_refused hc⟩
  rw [chunkStep_of_canWrite hc hpix hw, State.afterPixels_of_pos s p hn, copyBytes_eq_flatten]

/-- Settles O23: the inversion of a chunk's step, and the bytes outside its pixels. -/
theorem chunkFrame : Obligations.ChunkFrame := by
  unfold Obligations.ChunkFrame
  intro i s t hi hc hstep
  rcases exec_chunk_next hi hc hstep with herr | ⟨p, n, rfl⟩
  · exact .inl herr
  · exact .inr ⟨⟨_, _, _, _, _, rfl⟩, rfl, fun a ha => read_afterPixels_outside hc p n ha⟩

/-- Settles O16: RGB as a chunk of one pixel. -/
theorem rgbChunkResult : Obligations.RgbChunkResult := by
  unfold Obligations.RgbChunkResult
  exact fun r g b s => exec_onePixel_of_canWrite (i := .rgb r g b) rfl rfl

/-- Settles O17: RGBA as a chunk of one pixel. -/
theorem rgbaChunkResult : Obligations.RgbaChunkResult := by
  unfold Obligations.RgbaChunkResult
  exact fun r g b a s => exec_onePixel_of_canWrite (i := .rgba r g b a) rfl rfl

/-- Settles O18: INDEX as a chunk of one pixel. -/
theorem indexChunkResult : Obligations.IndexChunkResult := by
  unfold Obligations.IndexChunkResult
  exact fun idx s => exec_onePixel_of_canWrite (i := .index idx) rfl rfl

/-- Settles O19: DIFF as a chunk of one pixel. -/
theorem diffChunkResult : Obligations.DiffChunkResult := by
  unfold Obligations.DiffChunkResult
  intro dr dg db p s hc hpix hw hp
  exact exec_onePixel_of_canWrite (i := .diff dr dg db) rfl (by rw [hp]; rfl) hc hpix hw

/-- Settles O20: LUMA as a chunk of one pixel. -/
theorem lumaChunkResult : Obligations.LumaChunkResult := by
  unfold Obligations.LumaChunkResult
  intro dg drg dbg p s hc hpix hw hp
  exact exec_onePixel_of_canWrite (i := .luma dg drg dbg) rfl (by rw [hp]; rfl) hc hpix hw

/-- Settles O21: RUN as a chunk of `n` pixels, PREV each of them. -/
theorem runChunkResult : Obligations.RunChunkResult := by
  unfold Obligations.RunChunkResult
  exact fun n s hn hc => exec_chunk_of_canWrite (i := .run n) rfl rfl hc hn
end

section
/-! The framing items' and the commands' meanings (R141, R142, R210, R213, R240, R241): the header's checks one by one, the
marker's completion, START, and what none of them touches. -/

namespace Sys2Proof.Machine

/-- R241, R44: START field by field; no flag that raises the interrupt is left. -/
theorem State.start_eq {s : State} (h : s.status.busy = false) (c : Ctrl) :
    s.start c = { s with ctrl := c, status := ⟨true, false, false⟩, irq := false, errcode := 0, outLen := 0,
                         phase := .check } := by
  have hirq : irqLevel c Status.running = false := Bool.and_false _
  rw [State.start_of_idle s c h, State.setFlags, hirq, Status.running]

/-- START writes CTRL, the flags, the results and PHASE, and nothing else. -/
theorem State.start_frame (s : State) (c : Ctrl) :
    ∃ ctrl status irq errcode outLen phase, s.start c = { s with
      ctrl := ctrl, status := status, irq := irq, errcode := errcode, outLen := outLen, phase := phase } := by
  cases hbusy : s.status.busy with
  | true => exact ⟨_, _, _, _, _, _, State.start_of_busy s c hbusy⟩
  | false => exact ⟨_, _, _, _, _, _, State.start_eq hbusy c⟩

end Sys2Proof.Machine

open Sys2Proof Sys2Proof.Machine

/-- Settles O24: all of the header's checks pass. -/
theorem headerInitialisesDecode : Obligations.HeaderInitialisesDecode := by
  unfold Obligations.HeaderInitialisesDecode
  intro w h c cs s hc hcs hw hh hcap
  have hnonzero : ¬(w.toNat = 0 ∨ h.toNat = 0) := by
    rw [word_toNat_eq_zero, word_toNat_eq_zero]
    exact not_or.mpr ⟨hw, hh⟩
  rw [exec_hdr_eq, if_neg (not_not.mpr hc), if_neg (not_not.mpr hcs), if_neg hnonzero, if_neg (Nat.not_lt.mpr hcap)]
  rfl

/-- Settles O25: the header's checks, the first that fails. -/
theorem headerChecksInOrder : Obligations.HeaderChecksInOrder := by
  unfold Obligations.HeaderChecksInOrder
  intro w h c cs s
  have hdim : (w.toNat = 0 ∨ h.toNat = 0) ↔ (w = 0 ∨ h = 0) := by rw [word_toNat_eq_zero, word_toNat_eq_zero]
  rw [exec_hdr_eq]
  refine ⟨fun hc => ?_, fun hc hcs => ?_, fun hc hcs hzero => ?_, fun hc hcs hw hh hcap => ?_⟩
  · rw [if_pos hc]
  · rw [if_neg (not_not.mpr hc), if_pos hcs]
  · rw [if_neg (not_not.mpr hc), if_neg (not_not.mpr hcs), if_pos (hdim.mpr hzero)]
  · rw [if_neg (not_not.mpr hc), if_neg (not_not.mpr hcs), if_neg (mt hdim.mp (not_or.mpr ⟨hw, hh⟩)),
      if_pos hcap]

/-- Settles O26: the report, then the success completion field by field. -/
theorem endMarkerCompletes : Obligations.EndMarkerCompletes := by
  unfold Obligations.EndMarkerCompletes
  intro s
  rw [exec, execEndMarker, State.complete_eq]
  rfl

/-- Settles O27: item by item; the commands all by what START writes. -/
theorem framingAndCommandFrame : Obligations.FramingAndCommandFrame := by
  unfold Obligations.FramingAndCommandFrame
  intro i s t hplace hstep
  cases i with
  | rgb | rgba | index | diff | luma | run => exact absurd rfl hplace
  | hdr w h c cs =>
    rcases execHdr_cases hstep with herr | ⟨_, _, _, _, _, rfl⟩
    · exact .inl herr
    · simp [Instr.place]
  | endMarker =>
    cases hstep
    simp [Instr.place]
  | encodeCmd | decodeCmd | reservedCmd =>
    obtain ⟨c, rfl⟩ : ∃ c, t = s.start c := ⟨_, (Host.Outcome.next.inj hstep).symm⟩
    obtain ⟨_, _, _, _, _, _, hframe⟩ := s.start_frame c
    simp [hframe, Instr.place]

/-- Settles O28: each command is START while BUSY = 0. -/
theorem commandsStartOperation : Obligations.CommandsStartOperation := by
  unfold Obligations.CommandsStartOperation
  rintro cmd irqEn s t hidle rfl
  refine ⟨?_, ?_, fun _ => congrArg _ (State.start_eq hidle _)⟩ <;>
    (rintro rfl; exact congrArg _ (State.start_eq hidle _))

/-- Settles O29: each command is START while BUSY = 1. -/
theorem startWhileBusyIgnored : Obligations.StartWhileBusyIgnored := by
  unfold Obligations.StartWhileBusyIgnored
  refine fun cmd irqEn s hbusy => ⟨?_, ?_, ?_⟩ <;> exact congrArg _ (State.start_of_busy s _ hbusy)
end

section
/-! The engine's steps (R192 to R196, R211, R242 to R244, R263): CHECK with every check in its order, the encoder's BODY step
on a run and on a pixel with each way it can end, and the decoder's BODY step where a chunk's bytes are not there. -/

namespace Sys2Proof.Machine

/-! ### The CHECK step -/

/-- R244: the region check as its two tests in order, then the rest. -/
theorem settle_regions_bind (s : State) (f : Unit → Except Stop State) :
    settle s (require s.regionsOk .bufferFault >>= f) =
      if 2 ^ 32 < s.srcBase.toNat + s.srcLen.toNat ∨ 2 ^ 32 < s.dstBase.toNat + s.dstCap.toNat then
        .next (s.raise .bufferFault)
      else if 0 < s.srcLen.toNat ∧ 0 < s.dstCap.toNat ∧ s.srcBase.toNat < s.dstBase.toNat + s.dstCap.toNat ∧
          s.dstBase.toNat < s.srcBase.toNat + s.srcLen.toNat then .next (s.raise .bufferFault)
      else settle s (f ()) := by
  have hregions : s.regionsOk = true ↔
      ¬(2 ^ 32 < s.srcBase.toNat + s.srcLen.toNat ∨ 2 ^ 32 < s.dstBase.toNat + s.dstCap.toNat) ∧
      ¬(0 < s.srcLen.toNat ∧ 0 < s.dstCap.toNat ∧ s.srcBase.toNat < s.dstBase.toNat + s.dstCap.toNat ∧
        s.dstBase.toNat < s.srcBase.toNat + s.srcLen.toNat) := by
    rw [State.regionsOk_iff, Config.addressEnd]
    omega
  simp only [settle_require_bind, hregions, ite_and, ite_not]

theorem step_check {s : State} (hhost : s.host = []) (hp : s.phase = .check) : step s = checkStep s := by
  rw [step_of_no_host hhost, engineStep_check hp]

/-- R243, R244, R190: the CHECK step of an encode. -/
theorem checkStep_encode {s : State} (hcmd : s.ctrl.cmd = 0) :
    checkStep s =
      if ¬(s.imgFormat.channels = 3 ∨ s.imgFormat.channels = 4) then .next (s.raise .valChannels)
      else if ¬(s.imgFormat.colorspace = 0 ∨ s.imgFormat.colorspace = 1) then .next (s.raise .valColorspace)
      else if s.imgWidth = 0 ∨ s.imgHeight = 0 then .next (s.raise .valZeroDimension)
      else if s.srcLen = 0 then .next (s.raise .valEmptyBuffer)
      else if s.srcLen.toNat ≠ s.imgWidth.toNat * s.imgHeight.toNat * s.imgFormat.channels.toNat then
        .next (s.raise .valPixelCount)
      else settle s (require s.regionsOk .bufferFault >>= fun _ => .ok s.beginEncode) := by
  simp only [checkStep, if_pos hcmd, State.validateEncode, bind_assoc, settle_require_bind, pure_eq_ok,
    Bool.or_eq_true, Bool.and_eq_true, beq_iff_eq, bne_iff_ne, decide_eq_true_eq, ne_eq, ite_not, ← not_or]

/-- R244: the CHECK step of a decode. -/
theorem checkStep_decode {s : State} (hcmd : s.ctrl.cmd = 1) :
    checkStep s = settle s (require s.regionsOk .bufferFault >>= fun _ => .ok { s with op := .dec, phase := .header }) := by
  rw [checkStep, if_neg (by rw [hcmd]; decide), if_pos hcmd]
  rfl

/-- R242: the CHECK step of a reserved command. -/
theorem checkStep_reserved {s : State} (hcmd : s.ctrl.cmd = 2 ∨ s.ctrl.cmd = 3) :
    checkStep s = .next (s.raise .illegalCommand) := by
  have hne : s.ctrl.cmd ≠ 0 ∧ s.ctrl.cmd ≠ 1 := by rcases hcmd with h | h <;> rw [h] <;> decide
  rw [checkStep, if_neg hne.1, if_neg hne.2, settle_raise]

/-- R32: the four values of CMD. -/
theorem cmd_cases (cmd : BitVec 2) : cmd = 0 ∨ cmd = 1 ∨ cmd = 2 ∨ cmd = 3 := by
  revert cmd
  decide

/-! ### The encoder's BODY step -/

/-- The run scan gives the run's length where the pixels it looks at may be read (R193). -/
theorem runScan_of_run {s : State} {p : Pixel} (hc : s.lc = 3 ∨ s.lc = 4) {m fuel n : Nat} (hlo : n ≤ m)
    (hhi : m ≤ n + fuel) (hin : s.pix + m ≤ s.npix)
    (hq : ∀ j, n ≤ j → j < m → eqC s.lc (s.pixelAt (s.pix + j)) p = true)
    (hstop : m = n + fuel ∨ s.pix + m = s.npix ∨ eqC s.lc (s.pixelAt (s.pix + m)) p = false)
    (hr : ∀ j, n ≤ j → j ≤ m → j < n + fuel → s.pix + j < s.npix →
      s.CanRead (s.srcPixel (s.pix + j)) s.lc.toNat) : runScan s p fuel n = .ok m := by
  induction fuel generalizing n with
  | zero =>
    obtain rfl : n = m := by omega
    rfl
  | succ fuel ih =>
    rw [runScan]
    split
    case isFalse hend =>
      obtain rfl : n = m := by omega
      rfl
    case isTrue hlt =>
      rw [(loadPixel_eq_ok hc).mpr ⟨hr n (Nat.le_refl n) hlo (by omega) hlt, rfl⟩, ok_bind]
      rcases hlo.eq_or_lt with rfl | hnm
      · have hne : eqC s.lc (s.pixelAt (s.pix + n)) p = false := by
          rcases hstop with h | h | h
          · omega
          · omega
          · exact h
        rw [hne]
        rfl
      · rw [if_pos (hq n (Nat.le_refl n) hnm)]
        exact ih hnm (by omega) (fun j h1 h2 => hq j (by omega) h2) (hstop.imp_left fun h => by omega)
          fun j h1 h2 h3 => hr j (by omega) h2 (by omega)

/-- With every pixel left readable the run scan gives a length. -/
theorem runScan_answers {s : State} {p : Pixel} (hc : s.lc = 3 ∨ s.lc = 4)
    (hr : ∀ i, s.pix ≤ i → i < s.npix → s.CanRead (s.srcPixel i) s.lc.toNat) (fuel n : Nat) :
    ∃ m, runScan s p fuel n = .ok m := by
  induction fuel generalizing n with
  | zero => exact ⟨n, rfl⟩
  | succ fuel ih =>
    rw [runScan]
    split
    case isFalse => exact ⟨n, rfl⟩
    case isTrue hlt =>
      rw [(loadPixel_eq_ok hc).mpr ⟨hr _ (Nat.le_add_right _ _) hlt, rfl⟩, ok_bind]
      split
      · exact ih (n + 1)
      · exact ⟨n, rfl⟩

/-- The bytes of a source pixel are among those of all the pixels left (R63). -/
theorem canRead_srcPixel {s : State} (h : s.CanRead (s.srcPixel s.pix) ((s.npix - s.pix) * s.lc.toNat)) {i : Nat}
    (hlo : s.pix ≤ i) (hhi : i < s.npix) : s.CanRead (s.srcPixel i) s.lc.toNat := fun j hj => by
  obtain ⟨d, rfl⟩ := Nat.exists_eq_add_of_le hlo
  have hmul : (d + 1) * s.lc.toNat ≤ (s.npix - s.pix) * s.lc.toNat := Nat.mul_le_mul_right _ (by omega)
  have haddr : s.srcPixel (s.pix + d) + j = s.srcPixel s.pix + (d * s.lc.toNat + j) := by
    simp only [State.srcPixel, Nat.add_mul]
    omega
  rw [Nat.succ_mul] at hmul
  rw [haddr]
  exact h (d * s.lc.toNat + j) (by omega)

/-- R192 steps 2 to 6, the lookup and the RAW choice written out. -/
theorem selectChunk_eq (c : Byte) (prev : Pixel) (k : Cache) (p : Pixel) :
    selectChunk c prev k p =
      if eqC c (slot k (indexOf c p)) p then .index (indexOf c p)
      else if diffOk c p prev then .diff (wd p.r prev.r) (wd p.g prev.g) (wd p.b prev.b)
      else if lumaOk c p prev then
        .luma (wd p.g prev.g) (wd p.r prev.r - wd p.g prev.g) (wd p.b prev.b - wd p.g prev.g)
      else if c = 3 ∨ p.a = prev.a then .rgb p.r p.g p.b
      else .rgba p.r p.g p.b p.a := by
  rw [selectChunk, lookup]
  cases eqC c (slot k (indexOf c p)) p <;> rfl

section
variable {s : State} (hhost : s.host = []) (hp : s.phase = .body) (ho : s.op = .enc)
include hhost hp ho

theorem step_encBody : step s = settle s (encBody s) := by
  rw [step_of_no_host hhost, engineStep_encBody hp ho]

/-- R192 step 1. -/
theorem step_encBody_end (hpix : s.pix = s.npix) : step s = .next { s with phase := .tail } := by
  rw [step_encBody hhost hp ho, encBody, if_pos hpix, settle_ok]

variable (hlt : s.pix < s.npix)
include hlt

/-- R191, R269: no pixel, no chunk. -/
theorem step_encBody_of_error {c : ErrCode} (hl : loadPixel s s.pix = .error (.raise c)) :
    step s = .next (s.raise c) := by
  rw [step_encBody hhost hp ho, encBody, if_neg (Nat.ne_of_lt hlt), hl, error_bind, settle_raise]

variable (hc : s.lc = 3 ∨ s.lc = 4) (hread : s.CanRead (s.srcPixel s.pix) s.lc.toNat)
include hc hread

theorem step_encBody_run (hq : eqC s.lc (s.pixelAt s.pix) s.prev = true) :
    step s = settle s (encRun s (s.pixelAt s.pix)) := by
  rw [step_encBody hhost hp ho, encBody, if_neg (Nat.ne_of_lt hlt), (loadPixel_eq_ok hc).mpr ⟨hread, rfl⟩, ok_bind,
    if_pos hq]

theorem step_encBody_pixel (hq : eqC s.lc (s.pixelAt s.pix) s.prev = false) :
    step s = settle s (encPixel s (s.pixelAt s.pix)) := by
  rw [step_encBody hhost hp ho, encBody, if_neg (Nat.ne_of_lt hlt), (loadPixel_eq_ok hc).mpr ⟨hread, rfl⟩, ok_bind, hq]
  rfl

end

/-- R193, R196: a run of `n` pixels as the emission of its chunk, in each case of the emission. -/
theorem settle_encRun {s : State} {p : Pixel} {n : Nat} (hscan : runScan s p (Config.runMax - 1) 1 = .ok n) :
    settle s (encRun s p) = settle s (emit s (encode (.run n)) >>= fun t =>
      pure { t with cache := update s.lc s.cache p, pix := s.pix + n }) := by
  rw [encRun, hscan, ok_bind]

/-! ### The decoder's BODY step -/

section
variable {s : State}

/-- R211, R263 step 5 (a): no tag byte left. -/
theorem fetchChunk_of_end (h : s.srcLen.toNat ≤ s.rp) : fetchChunk s = .error (.raise .truncatedStream) := by
  rw [fetchChunk, require_of_false (decide_eq_false (Nat.not_lt.mpr h)), error_bind]

/-- With a tag byte left, its read comes first (R263 step 5 (b)). -/
theorem fetchChunk_of_left (h : s.rp < s.srcLen.toNat) :
    fetchChunk s = loadByte s (s.srcBase.toNat + s.rp) >>= fun t =>
      require (decide (s.rp + (classify t).length ≤ s.srcLen.toNat)) .truncatedStream >>= fun _ =>
      loadBytes s (s.srcBase.toNat + s.rp + 1) ((classify t).length - 1) >>= fun ops =>
      decodeFetched .chunk (t :: ops) := by
  rw [fetchChunk, require_of_true (decide_eq_true h), ok_bind]

/-- R269: a refused read of one byte. -/
theorem loadByte_of_refused {a : Nat} (ha : a < Config.addressEnd) (hno : s.platform.memOk a .read = false) :
    loadByte s a = .error (.raise .busError) :=
  loadByte_eq_error.mpr (access_eq_error.mpr (.inr ⟨ha, hno, rfl⟩))

variable {t : Byte} (ht : t = s.mem.read (s.srcBase.toNat + s.rp))
include ht

/-- With the tag read, its class says how many bytes must be left (R263 step 5 (c)). -/
theorem fetchChunk_of_tag (h : s.rp < s.srcLen.toNat) (hread : s.CanRead (s.srcBase.toNat + s.rp) 1) :
    fetchChunk s =
      require (decide (s.rp + (classify t).length ≤ s.srcLen.toNat)) .truncatedStream >>= fun _ =>
      loadBytes s (s.srcBase.toNat + s.rp + 1) ((classify t).length - 1) >>= fun ops =>
      decodeFetched .chunk (t :: ops) := by
  obtain ⟨haddr, hok⟩ := hread.head
  rw [fetchChunk_of_left h, loadByte_of_canRead haddr hok, ← ht, ok_bind]

/-- R84, R263 step 5 (c): the stream ends inside the chunk. -/
theorem fetchChunk_of_short (h : s.rp < s.srcLen.toNat) (hread : s.CanRead (s.srcBase.toNat + s.rp) 1)
    (hshort : s.srcLen.toNat < s.rp + (classify t).length) : fetchChunk s = .error (.raise .truncatedStream) := by
  rw [fetchChunk_of_tag ht h hread, require_of_false (decide_eq_false (Nat.not_le.mpr hshort)), error_bind]

/-- R263 step 5 (d): a byte after the tag is refused. -/
theorem fetchChunk_of_refused (hread : s.CanRead (s.srcBase.toNat + s.rp) 1)
    (hfits : s.rp + (classify t).length ≤ s.srcLen.toNat)
    (hend : s.srcBase.toNat + s.rp + (classify t).length ≤ Config.addressEnd)
    (hdeny : ∃ j, j < (classify t).length ∧ s.platform.memOk (s.srcBase.toNat + s.rp + j) .read = false) :
    fetchChunk s = .error (.raise .busError) := by
  have hpos := ChunkKind.length_pos (classify t)
  obtain ⟨_, htag⟩ := hread.head
  obtain ⟨j, hj, hno⟩ := hdeny
  have hj0 : j ≠ 0 := fun h0 => by
    rw [h0, Nat.add_zero, htag] at hno
    cases hno
  have hoperand : s.srcBase.toNat + s.rp + 1 + (j - 1) = s.srcBase.toNat + s.rp + j := by omega
  have hload : loadBytes s (s.srcBase.toNat + s.rp + 1) ((classify t).length - 1) = .error (.raise .busError) :=
    loadBytes_of_refused (by omega) ⟨j - 1, by omega, hoperand ▸ hno⟩
  rw [fetchChunk_of_tag ht (by omega) hread, require_of_true (decide_eq_true hfits), ok_bind, hload, error_bind]

end

section
variable {s : State} (hhost : s.host = []) (hp : s.phase = .body) (ho : s.op = .dec)
include hhost hp ho

theorem step_decBody_end (hpix : s.pix = s.npix) : step s = .next { s with phase := .tail } := by
  rw [step_of_no_host hhost, engineStep_decBody hp ho, if_pos hpix]

theorem step_decBody (hpix : s.pix ≠ s.npix) : step s = runFetched s (fetchChunk s) := by
  rw [step_of_no_host hhost, engineStep_decBody hp ho, if_neg hpix]

theorem step_decBody_of_error (hpix : s.pix ≠ s.npix) {c : ErrCode} (hf : fetchChunk s = .error (.raise c)) :
    step s = .next (s.raise c) := by
  rw [step_decBody hhost hp ho hpix, hf, runFetched_raise]

end

/-! ### The place of what is decoded -/

theorem place_of_decode_header {bs rest : List Byte} {i : Instr} (h : decode .header bs = .instr i rest) :
    ∃ w ht c cs, i = .hdr w ht c cs := by
  obtain ⟨hplace, _⟩ := encode_of_decodeHeader h
  cases i with
  | hdr w ht c cs => exact ⟨w, ht, c, cs, rfl⟩
  | _ => cases hplace

theorem eq_endMarker_of_decode {bs rest : List Byte} {i : Instr} (h : decode .tail bs = .instr i rest) :
    i = .endMarker ∧ bs.take 8 = markerBytes := by
  simp only [decode, decodeMarker] at h
  split at h
  · rename_i hmarker
    cases h
    exact ⟨rfl, hmarker⟩
  · cases h

end Sys2Proof.Machine

open Sys2Proof Sys2Proof.Machine

/-- Settles O30: the checks of an encode, then the region check; for a decode the region check alone; the other two
commands are the reserved ones. -/
theorem checkStepRule : Obligations.CheckStepRule := by
  unfold Obligations.CheckStepRule
  intro s hhost hp
  rw [step_check hhost hp]
  simp only [apply_ite (Host.Outcome.next (φ := Fault) (ρ := Refusal))]
  rcases cmd_cases s.ctrl.cmd with hencode | hdecode | hreserved
  · have hnot : ¬((0 : BitVec 2) = 2 ∨ (0 : BitVec 2) = 3) := by decide
    simp only [checkStep_encode hencode, settle_regions_bind, settle_ok, hencode, hnot, true_and, if_false, if_true]
    rfl
  · have hnot : ¬((1 : BitVec 2) = 2 ∨ (1 : BitVec 2) = 3) := by decide
    have hzero : ¬(1 : BitVec 2) = 0 := by decide
    simp only [checkStep_decode hdecode, settle_regions_bind, settle_ok, hdecode, hnot, hzero, false_and, if_false]
  · rw [checkStep_reserved hreserved, if_pos hreserved]

/-- Settles O33: the scan gives the run's length, and one RUN chunk of it is emitted. -/
theorem encoderCodesRun : Obligations.EncoderCodesRun := by
  unfold Obligations.EncoderCodesRun
  intro s n hhost hp ho hc h1 h62 hin hq hrun hstop hreads hroom hw
  have hlt : s.pix < s.npix := by omega
  have hscan : runScan s (s.pixelAt s.pix) (Config.runMax - 1) 1 = .ok n :=
    runScan_of_run hc h1 h62 hin hrun hstop fun j _ hj hmax hlt => hreads j hj hmax hlt
  have hread := hreads 0 (Nat.zero_le n) (by decide) hlt
  obtain ⟨_, hemit, _⟩ := settle_emit_bind s (encode (.run n)) fun t =>
    { t with cache := update s.lc s.cache (s.pixelAt s.pix), pix := s.pix + n }
  rw [encode_length] at hemit
  rw [step_encBody_run hhost hp ho hlt hc hread hq, settle_encRun hscan, hemit hroom hw, encode_run h1 h62]
  rfl

/-- Settles O34: the chunk chosen by the priority is emitted. -/
theorem encoderCodesPixel : Obligations.EncoderCodesPixel := by
  unfold Obligations.EncoderCodesPixel
  intro s p i hhost hp ho hc
  refine ⟨step_encBody_end hhost hp ho, ?_⟩
  rintro hlt hread rfl hq hi hroom hw
  rw [← selectChunk_eq] at hi
  obtain ⟨_, hemit, _⟩ := settle_emit_bind s (encode i) fun t => t.coded (s.pixelAt s.pix) 1
  rw [encode_length] at hemit
  rw [step_encBody_pixel hhost hp ho hlt hc hread hq, encPixel, ← hi, hemit hroom hw]
  rfl

/-- Settles O35: the pixel's read, the look-ahead's, then the emission of the chunk in each of its cases. -/
theorem capacityEndsEncode : Obligations.CapacityEndsEncode := by
  unfold Obligations.CapacityEndsEncode
  intro s hhost hp ho hc hlt
  refine ⟨fun hend hdeny => ?refused, fun n hrun h62 hin hend hdeny => ?lookAhead, fun n hrun hstop => ?run,
    fun hreads hroom => ?noRoom, fun len hread hq hlen => ?pixel⟩
  case refused => exact step_encBody_of_error hhost hp ho hlt (loadPixel_of_refused hc hend hdeny)
  case lookAhead =>
    have hscan : runScan s (s.pixelAt s.pix) (Config.runMax - 1) 1 = .error (.raise .busError) :=
      runScan_of_error hc (loadPixel_of_refused hc hend hdeny) hin hrun.length.1 (by omega) hrun.others
        fun j _ hj => hrun.reads j hj
    rw [step_encBody_run hhost hp ho hlt hc (hrun.reads 0 hrun.length.1) hrun.first, encRun, hscan, error_bind,
      settle_raise]
  case run =>
    obtain ⟨h1, h62⟩ := hrun.length
    have hscan : runScan s (s.pixelAt s.pix) (Config.runMax - 1) 1 = .ok n := by
      refine runScan_of_run hc h1 h62 hrun.inImage hrun.others (hstop.imp_right (.imp_right And.right))
        fun j _ hj hmax hlt => ?_
      rcases hj.eq_or_lt with rfl | hj
      · rcases hstop with h | h | ⟨hread, _⟩
        · simp only [Config.runMax] at hmax
          omega
        · omega
        · exact hread
      · exact hrun.reads j hj
    obtain ⟨hcap, _, hbus⟩ := settle_emit_bind s (encode (.run n)) fun t =>
      { t with cache := update s.lc s.cache (s.pixelAt s.pix), pix := s.pix + n }
    rw [encode_length] at hcap hbus
    rw [step_encBody_run hhost hp ho hlt hc (hrun.reads 0 h1) hrun.first, settle_encRun hscan]
    exact ⟨hcap, fun hroom hend hdeny => hbus hroom hend ⟨0, Nat.zero_lt_one, hdeny⟩⟩
  case noRoom =>
    have hreadAt (i : Nat) (hlo : s.pix ≤ i) (hhi : i < s.npix) := canRead_srcPixel hreads hlo hhi
    have hread := hreadAt s.pix (Nat.le_refl _) hlt
    cases hq : eqC s.lc (s.pixelAt s.pix) s.prev with
    | true =>
      obtain ⟨n, hscan⟩ := runScan_answers (p := s.pixelAt s.pix) hc hreadAt (Config.runMax - 1) 1
      rw [step_encBody_run hhost hp ho hlt hc hread hq, settle_encRun hscan]
      refine (settle_emit_bind s _ _).1 ?_
      rwa [encode_length]
    | false =>
      rw [step_encBody_pixel hhost hp ho hlt hc hread hq, encPixel]
      refine (settle_emit_bind s _ fun t => t.coded (s.pixelAt s.pix) 1).1 ?_
      have hpos := Instr.length_pos (selectChunk s.lc s.prev s.cache (s.pixelAt s.pix))
      rw [encode_length]
      omega
  case pixel =>
    obtain ⟨hcap, _, hbus⟩ := settle_emit_bind s (encode (selectChunk s.lc s.prev s.cache (s.pixelAt s.pix)))
      fun t => t.coded (s.pixelAt s.pix) 1
    rw [encode_length, ← hlen] at hcap hbus
    rw [step_encBody_pixel hhost hp ho hlt hc hread hq, encPixel]
    exact ⟨hcap, hbus⟩

/-- Settles O38: the fetch's checks in their order, each ending the step with its own code. -/
theorem decoderBodyFetch : Obligations.DecoderBodyFetch := by
  unfold Obligations.DecoderBodyFetch
  intro s t hhost hp ho ht
  refine ⟨step_decBody_end hhost hp ho, fun hpix hend => ?_, fun hpix hleft haddr hno => ?_,
    fun hpix hleft hread hshort => ?_, fun hpix hread hfits hend hdeny => ?_⟩ <;>
    refine step_decBody_of_error hhost hp ho hpix ?_
  · exact fetchChunk_of_end hend
  · rw [fetchChunk_of_left hleft, loadByte_of_refused haddr hno, error_bind]
  · exact fetchChunk_of_short ht hleft hread hshort
  · exact fetchChunk_of_refused ht hread hfits hend hdeny

/-- Settles O40: the fetch of each phase gives the decoded item; a CTRL write and a wait reach the engine by the host's
port. -/
theorem stepRunsDecodedInstruction : Obligations.StepRunsDecodedInstruction := by
  unfold Obligations.StepRunsDecodedInstruction
  intro s i
  refine ⟨fun hhost hp ho hpix hread hfits hd => ?chunk, fun hhost hp ho hread hlong hd => ?header,
    fun hhost hp ho hread hlen hd => ?marker, fun v moves hhost hidle hd => ?command, fun moves hhost => ?wait⟩
  case chunk =>
    have hfetch := fetchChunk_eq_ok.mpr ⟨hfits, hread, (decodeChunk_eq_append hd).1, hd⟩
    rw [step_decBody hhost hp ho hpix, hfetch, runFetched_ok]
  case header =>
    obtain ⟨w, ht, c, cs, hi⟩ := place_of_decode_header hd
    rw [step_decHeader hhost hp ho, fetchHeader_eq_ok.mpr ⟨hlong, hread, w, ht, c, cs, hi, hd⟩, runFetched_ok]
  case marker =>
    obtain ⟨hi, hmarker⟩ := eq_endMarker_of_decode hd
    rw [List.take_of_length_le (Memory.readBytes_length _ _ 8).le] at hmarker
    rw [step_decTail hhost hp ho, fetchMarker_eq_ok.mpr ⟨hlen, hread, hi, hmarker⟩, runFetched_ok]
  case command =>
    rw [decode_ctrl_leBytes] at hd
    have hstep := step_regWrite (o := 0) (by decide) (by decide) hhost
    rw [hstep, show regAt 0 = .ctrl from rfl, writeReg, if_neg (Bool.eq_false_iff.mp hidle), writeCtrl, hd]
  case wait =>
    rw [step, moveStep, hhost]
    rfl

/-- Settles O41: at PHASE = IDLE the engine has no step. -/
theorem idleEngineRests : Obligations.IdleEngineRests := by
  unfold Obligations.IdleEngineRests
  intro s hp hhost
  rw [step_of_no_host hhost, engineStep_idle hp]
end

section
/-! The host's port and the endings (R71, R246, R249, R261, R262, R290): register reads, refused accesses, the host's own
memory accesses, reset, and the error ending. -/

namespace Sys2Proof.Machine

/-! ### Register reads -/

theorem step_regRead {s : State} {o : Nat} {moves : List HostMove} (hlt : o < 64) (halign : o % 4 = 0)
    (hhost : s.host = .regRead (s.platform.regBase + o) 4 :: moves) :
    step s = .next { s with host := moves, rdata := s.readReg (regAt o) } := by
  rw [step, moveStep, hhost]
  simp only [hostStep, windowOffset_of_aligned s.platform hlt halign]
  rfl

/-- R32: CTRL reads with START 0. -/
theorem State.readReg_ctrl_toNat (s : State) :
    (s.readReg .ctrl).toNat = s.ctrl.irqEn.toNat * 8 + s.ctrl.cmd.toNat * 2 := by
  simp only [State.readReg, append_toNat_eq_add, BitVec.toNat_ofNat, BitVec.toNat_ofBool]
  omega

theorem State.readReg_status_toNat (s : State) :
    (s.readReg .status).toNat = s.status.err.toNat * 4 + s.status.done.toNat * 2 + s.status.busy.toNat := by
  simp only [State.readReg, append_toNat_eq_add, BitVec.toNat_ofNat, BitVec.toNat_ofBool]
  omega

theorem State.readReg_errcode_toNat (s : State) : (s.readReg .errcode).toNat = s.errcode.toNat := by
  simp only [State.readReg, append_toNat_eq_add, BitVec.toNat_ofNat]
  omega

theorem State.readReg_imgFormat_toNat (s : State) :
    (s.readReg .imgFormat).toNat = s.imgFormat.colorspace.toNat * 256 + s.imgFormat.channels.toNat := by
  simp only [State.readReg, append_toNat_eq_add, BitVec.toNat_ofNat]
  omega

/-! ### Refused accesses -/

/-- R43, R65: an access that is not one of the window. -/
theorem windowOffset_eq_none {p : Platform} {addr size : Nat}
    (h : ¬(∃ o, o < 64 ∧ o % 4 = 0 ∧ size = 4 ∧ addr = p.regBase + o)) : windowOffset p addr size = none := by
  refine if_neg fun ⟨hlo, hhi, halign, hsize⟩ => h ⟨addr - p.regBase, ?_, halign, hsize, ?_⟩
  · simp only [Config.windowLen] at hhi
    omega
  · omega

/-! ### What is lost -/

theorem Phase.mayHaveWritten_of_working {p : Phase} (h : p.working) : p.mayHaveWritten = true := by
  rcases h with rfl | rfl | rfl <;> rfl

theorem State.inDestination_eq_true {s : State} {a : Nat} :
    s.inDestination a = true ↔ s.dstBase.toNat ≤ a ∧ a < s.dstBase.toNat + s.dstCap.toNat := by
  rw [State.inDestination, Bool.and_eq_true, decide_eq_true_iff, decide_eq_true_iff]

theorem State.inDestination_eq_false {s : State} {a : Nat} :
    s.inDestination a = false ↔ a < s.dstBase.toNat ∨ s.dstBase.toNat + s.dstCap.toNat ≤ a := by
  rw [← Bool.not_eq_true, State.inDestination_eq_true]
  omega

/-- No byte outside the destination is lost (R261, R290). -/
theorem State.read_loseDestination_outside (s : State) {a : Nat} (h : s.inDestination a = false) :
    s.loseDestination.mem.read a = s.mem.read a := by
  rw [State.loseDestination]
  split
  · exact Memory.read_obscure_outside _ (State.inDestination_eq_false.mp h) _
  · rfl

/-- Once the operation may have written, every byte of the destination is a free value (log 7, log 8). -/
theorem State.read_loseDestination_inside {s : State} {a : Nat} (h : s.inDestination a = true)
    (ha : a < Config.addressEnd) (hp : s.phase.working) : s.loseDestination.mem.read a = Config.freeByte s.draws a := by
  obtain ⟨hlo, hhi⟩ := State.inDestination_eq_true.mp h
  rw [State.loseDestination, if_pos (Phase.mayHaveWritten_of_working hp)]
  exact Memory.read_obscure_inside _ hlo hhi ha _

theorem State.loseDestination_of_idle {s : State} (hp : s.phase = .idle) : s.loseDestination = s := by
  rw [State.loseDestination, hp]
  rfl

/-! ### Errors are precise -/

/-- A step whose success leaves ERR alone sets it by an error ending alone. -/
theorem settle_err {s t : State} {x : Except Stop State} (hx : ∀ u, x = .ok u → u.status.err = s.status.err)
    (hs : s.status.err = false) (ht : settle s x = .next t) (herr : t.status.err = true) : ∃ c, t = s.raise c := by
  rcases settle_next.mp ht with hok | ⟨c, _, rfl⟩
  · rw [hx t hok, hs] at herr
    cases herr
  · exact ⟨c, rfl⟩

/-- What emits and then updates keeps the flags that the update keeps. -/
theorem emit_bind_status {s u : State} {bs : List Byte} {finish : State → State}
    (h : (emit s bs >>= fun t => pure (finish t)) = .ok u) :
    ∃ t, t.status = s.status ∧ u = finish t := by
  obtain ⟨t, ht, hu⟩ := bind_eq_ok.mp h
  obtain ⟨_, _, rfl⟩ := emit_eq_ok.mp ht
  refine ⟨_, ?_, (Except.ok.inj hu).symm⟩
  rfl

theorem encBody_status {s u : State} (h : encBody s = .ok u) : u.status = s.status := by
  unfold encBody at h
  split at h
  · cases h
    rfl
  · obtain ⟨p, _, h⟩ := bind_eq_ok.mp h
    split at h
    · obtain ⟨n, _, h⟩ := bind_eq_ok.mp h
      obtain ⟨t, ht, rfl⟩ := emit_bind_status h
      exact ht
    · obtain ⟨t, ht, rfl⟩ := emit_bind_status h
      exact ht

theorem putPixels_status {p : Pixel} {n : Nat} {s u : State} (h : putPixels p n s = .ok u) : u.status = s.status := by
  induction n generalizing s with
  | zero =>
    cases h
    rfl
  | succ n ih =>
    obtain ⟨t, ht, hu⟩ := bind_eq_ok.mp h
    obtain ⟨_, rfl⟩ := putPixel_eq_ok.mp ht
    exact (ih hu).trans rfl

theorem chunkStep_status {s u : State} {p : Pixel} {n len : Nat} (h : chunkStep s p n len = .ok u) :
    u.status = s.status := by
  obtain ⟨_, _, h⟩ := bind_eq_ok.mp h
  obtain ⟨t, ht, h⟩ := bind_eq_ok.mp h
  cases h
  exact (putPixels_status ht).trans rfl

theorem checkStep_err {s t : State} (hs : s.status.err = false) (h : checkStep s = .next t)
    (herr : t.status.err = true) : ∃ c, t = s.raise c := by
  refine settle_err (fun u hu => ?_) hs h herr
  split at hu
  · obtain ⟨_, _, hu⟩ := bind_eq_ok.mp hu
    obtain ⟨_, _, hu⟩ := bind_eq_ok.mp hu
    cases hu
    rfl
  · split at hu
    · obtain ⟨_, _, hu⟩ := bind_eq_ok.mp hu
      cases hu
      rfl
    · cases hu

/-- R262, for the items of the stream. -/
theorem runFetched_err {s t : State} {x : Except Stop Instr} (hx : ∀ i, x = .ok i → i.place ≠ .ctrl)
    (hs : s.status.err = false) (h : runFetched s x = .next t) (herr : t.status.err = true) : ∃ c, t = s.raise c := by
  rcases runFetched_next h with hraise | ⟨i, hi, h⟩
  · exact hraise
  · have hplace := hx i hi
    cases i with
    | rgb | rgba | index | diff | luma | run =>
      rw [exec_chunk rfl] at h
      exact settle_err (fun u hu => congrArg Status.err (chunkStep_status hu)) hs h herr
    | hdr w ht c cs =>
      rcases execHdr_cases h with hraise | ⟨_, _, _, _, _, rfl⟩
      · exact hraise
      · rw [State.beginDecode_status, hs] at herr
        cases herr
    | endMarker =>
      cases h
      rw [State.complete_status] at herr
      exact absurd (hs.symm.trans herr) (by decide)
    | encodeCmd | decodeCmd | reservedCmd => exact absurd rfl hplace

end Sys2Proof.Machine

open Sys2Proof Sys2Proof.Machine

/-- Settles O43: the access reaches the register at its offset; the sixteen offsets one by one. -/
theorem registerRead : Obligations.RegisterRead := by
  unfold Obligations.RegisterRead
  intro s o moves hlt halign hhost
  refine ⟨_, step_regRead hlt halign hhost, ?_⟩
  obtain ⟨k, rfl⟩ := Nat.dvd_of_mod_eq_zero halign
  have hk : k < 16 := by omega
  interval_cases k
  · exact s.readReg_ctrl_toNat
  · exact s.readReg_status_toNat
  · exact s.readReg_errcode_toNat
  · rfl
  · rfl
  · exact s.readReg_imgFormat_toNat
  all_goals rfl

/-- Settles O44: the window admits no such access. -/
theorem unadmittedAccessRefused : Obligations.UnadmittedAccessRefused := by
  unfold Obligations.UnadmittedAccessRefused
  intro s addr size v moves hhost hnot
  have hnone := windowOffset_eq_none hnot
  rcases hhost with hhost | hhost <;>
    · rw [step, moveStep, hhost]
      simp only [hostStep, hnone]

/-- Settles O45: the host's write and the host's read, while BUSY = 1 and while not. -/
theorem hostMemoryPort : Obligations.HostMemoryPort := by
  unfold Obligations.HostMemoryPort
  rintro s u a v moves rfl
  refine ⟨fun hhost => ?_, fun hhost => ?_⟩
  · rw [step, moveStep, hhost]
    simp only [hostStep, Bool.and_eq_true, Bool.or_eq_true]
    rfl
  · rw [step, moveStep, hhost]
    simp only [hostStep, State.hostRead, Bool.and_eq_true]
    rfl

/-- Settles O46: the block's own state is State.reset's; memory is as the abandoned operation leaves it. -/
theorem hardwareReset : Obligations.HardwareReset := by
  unfold Obligations.HardwareReset
  intro s moves hhost
  refine ⟨({ s with host := moves } : State).resetBlock, ?_, rfl, rfl, rfl, rfl, rfl, rfl, rfl, rfl, rfl, rfl, rfl, rfl,
    rfl, rfl, rfl, rfl, fun a ha => ?_, fun a ha hend hp => ?_⟩
  · rw [step, moveStep, hhost]
    rfl
  · rcases ha with hout | hidle
    · exact State.read_loseDestination_outside { s with host := moves } hout
    · exact congrArg (fun t => t.mem.read a) (State.loseDestination_of_idle (s := { s with host := moves }) hidle)
  · exact State.read_loseDestination_inside (s := { s with host := moves }) ha hend hp

/-- Settles O47: the fields raise writes, and the destination bytes it loses. -/
theorem errorEnding : Obligations.ErrorEnding := by
  unfold Obligations.ErrorEnding
  intro s c
  refine ⟨⟨s.loseDestination.mem, s.loseDestination.draws, ?_⟩, fun a ha => ?_, fun a ha hend hp => ?_⟩
  · rw [State.raise, State.loseDestination]
    split <;> cases c <;> simp [State.setFlags, irqLevel, ErrCode.num]
  · rw [State.raise_mem, State.read_loseDestination_outside s ha]
  · rw [State.raise_mem, State.read_loseDestination_inside ha hend hp]

/-- Settles O48: step by step, what goes through leaves ERR as it was. -/
theorem errorsArePrecise : Obligations.ErrorsArePrecise := by
  unfold Obligations.ErrorsArePrecise
  intro s t hs h herr
  cases hp : s.phase with
  | idle =>
    rw [engineStep_idle hp] at h
    cases h
    exact absurd (hs.symm.trans herr) (by decide)
  | check =>
    rw [engineStep_check hp] at h
    exact checkStep_err hs h herr
  | header =>
    cases ho : s.op with
    | enc =>
      rw [engineStep_encHeader hp ho] at h
      refine settle_err (fun u hu => ?_) hs h herr
      obtain ⟨v, hv, rfl⟩ := emit_bind_status hu
      exact congrArg Status.err hv
    | dec =>
      rw [engineStep_decHeader hp ho] at h
      refine runFetched_err (fun i hi => ?_) hs h herr
      obtain ⟨_, _, w, ht, c, cs, rfl, _⟩ := fetchHeader_eq_ok.mp hi
      simp [Instr.place]
  | body =>
    cases ho : s.op with
    | enc =>
      rw [engineStep_encBody hp ho] at h
      exact settle_err (fun u hu => congrArg Status.err (encBody_status hu)) hs h herr
    | dec =>
      rw [engineStep_decBody hp ho] at h
      split at h
      · cases h
        exact absurd (hs.symm.trans herr) (by decide)
      · refine runFetched_err (fun i hi => ?_) hs h herr
        obtain ⟨_, _, hplace, _⟩ := fetchChunk_eq_ok.mp hi
        rw [hplace]
        decide
  | tail =>
    cases ho : s.op with
    | enc =>
      rw [engineStep_encTail hp ho] at h
      refine settle_err (fun u hu => ?_) hs h herr
      obtain ⟨v, hv, rfl⟩ := emit_bind_status (finish := fun t =>
        ({ t with outLen := BitVec.ofNat 32 t.wp } : State).complete) hu
      exact (congrArg Status.err hv).trans rfl
    | dec =>
      rw [engineStep_decTail hp ho] at h
      refine runFetched_err (fun i hi => ?_) hs h herr
      obtain ⟨_, _, rfl, _⟩ := fetchMarker_eq_ok.mp hi
      decide
end

section
/-! The invariant (R24 to R28, R33, R34, R42, R44, R60, R61, R125): memory, flags and operation each kept by every engine
step and every host move, and what follows: no step faults, and the engine writes in the destination alone. -/

namespace Sys2Proof.Machine

/-! ### The invariant in three parts -/

/-- The flags, the results and the interrupt line (R28, R33, R34, R42, R44, R260). -/
structure State.FlagsLegal (s : State) : Prop where
  busyPhase : s.phase = .idle ↔ s.status.busy = false
  oneFlag : ¬(s.status.busy = true ∧ s.status.done = true) ∧ ¬(s.status.busy = true ∧ s.status.err = true) ∧
    ¬(s.status.done = true ∧ s.status.err = true)
  line : s.irq = irqLevel s.ctrl s.status
  code : s.errcode.toNat ≤ 16
  running : s.status.busy = true → s.errcode = 0 ∧ s.outLen = 0
  succeeded : s.status.done = true → s.errcode = 0
  failed : s.status.err = true → s.errcode ≠ 0 ∧ s.outLen = 0

/-- The operation past its CHECK step (R24 to R27, R61, R125). -/
structure State.WorkLegal (s : State) : Prop where
  regions : s.phase.working → s.regionsOk = true
  encoding : s.phase.working → s.op = .enc → s.Encoding
  decodeCommand : s.phase.working → s.op = .dec → s.ctrl.cmd = 1
  decoding : s.phase = .body ∨ s.phase = .tail → s.op = .dec → s.Decoding

theorem State.inv_iff {s : State} : s.Inv ↔ s.mem.wf ∧ s.FlagsLegal ∧ s.WorkLegal :=
  ⟨fun ⟨hm, h1, h2, h3, h4, h5, h6, h7, h8, h9, h10, h11⟩ =>
    ⟨hm, ⟨h1, h2, h3, h4, h5, h6, h7⟩, ⟨h8, h9, h10, h11⟩⟩,
   fun ⟨hm, ⟨h1, h2, h3, h4, h5, h6, h7⟩, ⟨h8, h9, h10, h11⟩⟩ => ⟨hm, h1, h2, h3, h4, h5, h6, h7, h8, h9, h10, h11⟩⟩

theorem State.Inv.flags {s : State} (h : s.Inv) : s.FlagsLegal := (State.inv_iff.mp h).2.1

theorem State.Inv.work {s : State} (h : s.Inv) : s.WorkLegal := (State.inv_iff.mp h).2.2

/-! ### The flags -/

section
variable {s t : State}

/-- They are legal as long as nothing touches them. -/
theorem State.FlagsLegal.congr (h : s.FlagsLegal) (hphase : t.phase = .idle ↔ s.phase = .idle)
    (hstatus : t.status = s.status) (hctrl : t.ctrl = s.ctrl) (hirq : t.irq = s.irq) (herr : t.errcode = s.errcode)
    (hout : t.outLen = s.outLen) : t.FlagsLegal := by
  constructor
  · rw [hphase, hstatus]
    exact h.busyPhase
  · rw [hstatus]
    exact h.oneFlag
  · rw [hirq, hctrl, hstatus]
    exact h.line
  · rw [herr]
    exact h.code
  · rw [hstatus, herr, hout]
    exact h.running
  · rw [hstatus, herr]
    exact h.succeeded
  · rw [hstatus, herr, hout]
    exact h.failed

theorem State.FlagsLegal.busy (h : s.FlagsLegal) (hp : s.phase ≠ .idle) : s.status.busy = true := by
  rw [← Bool.not_eq_false, ← h.busyPhase]
  exact hp

/-- R33: with BUSY set the two others are clear. -/
theorem State.FlagsLegal.status_eq (h : s.FlagsLegal) (hp : s.phase ≠ .idle) : s.status = Status.running := by
  have hbusy := h.busy hp
  obtain ⟨hnotDone, hnotErr, _⟩ := h.oneFlag
  have hdone : s.status.done = false := by simpa [hbusy] using hnotDone
  have herr : s.status.err = false := by simpa [hbusy] using hnotErr
  calc s.status = ⟨s.status.busy, s.status.done, s.status.err⟩ := rfl
    _ = Status.running := by rw [hbusy, hdone, herr, Status.running]

/-- R260: the codes are 1 to 16. -/
theorem ErrCode.num_range (c : ErrCode) : c.num.toNat ≤ 16 ∧ c.num ≠ 0#5 := by cases c <;> decide

theorem State.FlagsLegal.raise (h : s.FlagsLegal) (hp : s.phase ≠ .idle) (c : ErrCode) : (s.raise c).FlagsLegal := by
  obtain ⟨hle, hne⟩ := c.num_range
  obtain ⟨_, hout⟩ := h.running (h.busy hp)
  constructor <;> simp [h.status_eq hp, Status.running, hle, hne, hout]

/-- R247: what completes is a running operation with no cause. -/
theorem State.complete_flagsLegal (hstatus : s.status = Status.running) (herr : s.errcode = 0) :
    s.complete.FlagsLegal := by
  constructor <;> simp [hstatus, Status.running, herr]

theorem State.FlagsLegal.start (h : s.FlagsLegal) (c : Ctrl) : (s.start c).FlagsLegal := by
  cases hbusy : s.status.busy with
  | true =>
    rw [State.start_of_busy s c hbusy]
    exact h
  | false =>
    rw [State.start_eq hbusy]
    constructor <;> simp [irqLevel]

/-- R241: CMD and IRQ_EN written without START, while BUSY = 0. -/
theorem State.FlagsLegal.setCtrl (h : s.FlagsLegal) (c : Ctrl) : (s.setFlags c s.status).FlagsLegal :=
  ⟨h.busyPhase, h.oneFlag, rfl, h.code, h.running, h.succeeded, h.failed⟩

/-- R245: DONE and ERR are only ever cleared by the host. -/
theorem State.FlagsLegal.writeStatus (h : s.FlagsLegal) (v : Word) : (s.writeStatus v).FlagsLegal := by
  obtain ⟨hbusyDone, hbusyErr, hdoneErr⟩ := h.oneFlag
  constructor
  · exact h.busyPhase
  · simp only [State.writeStatus, State.setFlags_status, Bool.and_eq_true]
    exact ⟨fun hb => hbusyDone ⟨hb.1, hb.2.1⟩, fun hb => hbusyErr ⟨hb.1, hb.2.1⟩, fun hb => hdoneErr ⟨hb.1.1, hb.2.1⟩⟩
  · rfl
  · exact h.code
  · exact h.running
  · exact fun hdone => h.succeeded (Bool.and_eq_true_iff.mp hdone).1
  · exact fun herr => h.failed (Bool.and_eq_true_iff.mp herr).1

theorem State.reset_flagsLegal : State.reset.FlagsLegal := by constructor <;> decide

end

/-! ### The operation -/

section
variable {s : State}

theorem State.op_cases (s : State) : s.op = .enc ∨ s.op = .dec := by
  cases s.op
  · exact .inl rfl
  · exact .inr rfl

/-- Idle and in CHECK there is none yet. -/
theorem State.WorkLegal.of_not_working (h : ¬s.phase.working) : s.WorkLegal :=
  ⟨fun hp => absurd hp h, fun hp => absurd hp h, fun hp => absurd hp h, fun hp => absurd (.inr hp) h⟩

theorem State.WorkLegal.of_idle (h : s.phase = .idle) : s.WorkLegal :=
  .of_not_working (by rw [h]; simp [Phase.working])

theorem State.WorkLegal.of_encoding (ho : s.op = .enc) (hr : s.regionsOk = true) (he : s.Encoding) : s.WorkLegal := by
  have hnot : s.op ≠ .dec := by rw [ho]; decide
  exact ⟨fun _ => hr, fun _ _ => he, fun _ h => absurd h hnot, fun _ h => absurd h hnot⟩

theorem State.WorkLegal.of_decoding (ho : s.op = .dec) (hr : s.regionsOk = true) (hcmd : s.ctrl.cmd = 1)
    (hd : s.phase = .body ∨ s.phase = .tail → s.Decoding) : s.WorkLegal := by
  have hnot : s.op ≠ .enc := by rw [ho]; decide
  exact ⟨fun _ => hr, fun _ h => absurd h hnot, fun _ _ => hcmd, fun hp _ => hd hp⟩

/-- R125: an update puts a pixel into its own slot. -/
theorem Cache.own_update {c : Byte} {k : Cache} (h : Cache.own c k) (p : Pixel) : Cache.own c (update c k p) := by
  intro i
  rw [slot_update]
  split
  case isTrue hown => exact .inr hown.symm
  case isFalse => exact h i

theorem Cache.own_fresh (c : Byte) : Cache.own c Cache.fresh := fun i =>
  .inl (by simp [slot, Cache.fresh])

/-- R190: the encode a passed CHECK step begins. -/
theorem State.beginEncode_encoding (hcmd : s.ctrl.cmd = 0) (hv : s.validateEncode = .ok ()) : s.beginEncode.Encoding := by
  obtain ⟨hc, hcs, ⟨hw, hh⟩, _, hlen⟩ := State.validateEncode_eq_ok.mp hv
  exact ⟨hcmd, ⟨rfl, rfl, rfl, rfl⟩, ⟨hc, hcs, hw, hh⟩, hlen, Nat.zero_le _, Nat.zero_le _, Cache.own_fresh _,
    fun _ => ⟨rfl, rfl⟩, fun h => by cases h⟩

/-- What an encode's steps change (R192, R196). -/
theorem State.Encoding.progress (h : s.Encoding) {mem : Memory} {prev : Pixel} {cache : Cache} {pix wp : Nat}
    {phase : Phase} (hpix : pix ≤ s.npix) (hwp : wp ≤ s.dstCap.toNat) (hcache : Cache.own s.lc cache)
    (hheader : phase ≠ .header) (htail : phase = .tail → pix = s.npix) :
    State.Encoding { s with mem := mem, prev := prev, cache := cache, pix := pix, wp := wp, phase := phase } :=
  ⟨h.command, h.image, ⟨h.legal.channels, h.legal.colorspace, h.legal.width, h.legal.height⟩, h.source, hpix, hwp,
    hcache, fun hp => absurd hp hheader, htail⟩

/-- What a decode's steps change (R211, R212). -/
theorem State.Decoding.progress (h : s.Decoding) {mem : Memory} {prev : Pixel} {cache : Cache} {pix rp : Nat}
    {phase : Phase} (hpix : pix ≤ s.npix) (hlow : s.rp ≤ rp) (hhigh : rp ≤ s.srcLen.toNat)
    (htail : phase = .tail → pix = s.npix) :
    State.Decoding { s with mem := mem, prev := prev, cache := cache, pix := pix, rp := rp, phase := phase } :=
  ⟨⟨h.legal.channels, h.legal.colorspace, h.legal.width, h.legal.height⟩, h.capacity, hpix, h.readLow.trans hlow, hhigh,
    htail⟩

/-- R210: the decode a passed HEADER step begins. -/
theorem State.beginDecode_decoding {w ht : Word} {c cs : Byte} (hc : c = 3 ∨ c = 4) (hcs : cs = 0 ∨ cs = 1)
    (hw : w ≠ 0) (hht : ht ≠ 0) (hcap : w.toNat * ht.toNat * c.toNat ≤ s.dstCap.toNat) (hlong : 14 ≤ s.srcLen.toNat) :
    (s.beginDecode w ht c cs).Decoding :=
  ⟨⟨hc, hcs, hw, hht⟩, hcap, Nat.zero_le _, Nat.le_refl _, hlong, fun h => by cases h⟩

end

/-! ### One engine step -/

section
variable {s t : State} (h : s.Inv)
include h

/-- What an engine step makes of memory: nothing, the loss of the destination, or bytes written inside it (R41, R261). -/
theorem EngineNext.mem_cases (hn : EngineNext s t) :
    t.mem = s.mem ∨ t.mem = s.loseDestination.mem ∨
      ∃ a bs, t.mem = s.mem.writeBytes a bs ∧ s.dstBase.toNat ≤ a ∧
        a + bs.length ≤ s.dstBase.toNat + s.dstCap.toNat ∧ s.dstBase.toNat + s.dstCap.toNat ≤ Config.addressEnd := by
  have hend (hp : s.phase.working) : s.dstBase.toNat + s.dstCap.toNat ≤ Config.addressEnd :=
    (State.regionsOk_iff.mp (h.regions hp)).2.1
  have hemit {bs : List Byte} (hp : s.phase.working) (hd : s.wp + bs.length ≤ s.dstCap.toNat) :
      ∃ a xs, s.mem.writeBytes (s.dstBase.toNat + s.wp) bs = s.mem.writeBytes a xs ∧ s.dstBase.toNat ≤ a ∧
        a + xs.length ≤ s.dstBase.toNat + s.dstCap.toNat ∧ s.dstBase.toNat + s.dstCap.toNat ≤ Config.addressEnd :=
    ⟨_, bs, rfl, by omega, by omega, hend hp⟩
  cases hn with
  | rest | beginEncode | beginDecode | toTail | decHeader | decTail => exact .inl rfl
  | raised c => exact .inr (.inl (State.raise_mem s c))
  | encHeader hp _ hd => exact .inr (.inr (hemit (.inl hp) (by rwa [encode_length])))
  | encRun n hp _ _ _ _ _ _ hd => exact .inr (.inr (hemit (.inr (.inl hp)) (by rwa [encode_length])))
  | encPixel i hp _ _ _ _ hd => exact .inr (.inr (hemit (.inr (.inl hp)) (by rwa [encode_length])))
  | encTail hp _ hd => exact .inr (.inr (hemit (bs := markerBytes) (.inr (.inr hp)) hd))
  | decChunk i p n hp ho _ _ _ _ _ _ hn _ =>
    have hdec := h.decoding (.inl hp) ho
    have hmul := (Nat.mul_le_mul_right s.lc.toNat hn).trans hdec.capacity
    rw [Nat.add_mul] at hmul
    refine .inr (.inr ⟨s.dstPixel s.pix, copyBytes s.lc p n, rfl, ?_, ?_, hend (.inr (.inl hp))⟩)
    · exact Nat.le_add_right _ _
    · rw [copyBytes_length p hdec.legal.channels, State.dstPixel]
      omega

theorem EngineNext.mem_wf (hn : EngineNext s t) : t.mem.wf := by
  rcases hn.mem_cases h with hm | hm | ⟨a, bs, hm, _, hhi, hend⟩ <;> rw [hm]
  · exact h.memory
  · rw [← State.raise_mem s .busError]
    exact wf_raise h.memory _
  · exact Memory.wf_writeBytes h.memory bs (hhi.trans hend)

theorem EngineNext.read_outside (hn : EngineNext s t) {a : Nat} (ha : s.inDestination a = false) :
    t.mem.read a = s.mem.read a := by
  rcases hn.mem_cases h with hm | hm | ⟨b, bs, hm, hlo, hhi, _⟩ <;> rw [hm]
  · exact State.read_loseDestination_outside s ha
  · have hout := State.inDestination_eq_false.mp ha
    exact Memory.read_writeBytes_outside _ bs (by omega)

theorem EngineNext.flagsLegal (hn : EngineNext s t) : t.FlagsLegal := by
  have hkeep {u : State} (hp : s.phase ≠ .idle) (hq : u.phase ≠ .idle) (hstatus : u.status = s.status)
      (hctrl : u.ctrl = s.ctrl) (hirq : u.irq = s.irq) (herr : u.errcode = s.errcode) (hout : u.outLen = s.outLen) :
      u.FlagsLegal := h.flags.congr (iff_of_false hq hp) hstatus hctrl hirq herr hout
  have hdone {u : State} (hp : s.phase ≠ .idle) (hstatus : u.status = s.status) (herr : u.errcode = s.errcode) :
      u.complete.FlagsLegal := State.complete_flagsLegal (hstatus.trans (h.flags.status_eq hp))
    (herr.trans (h.running (h.flags.busy hp)).1)
  cases hn with
  | rest => exact h.flags
  | raised c hp => exact h.flags.raise hp c
  | beginEncode hp | beginDecode hp | toTail hp | encHeader hp | decHeader _ _ _ _ hp =>
    exact hkeep (by rw [hp]; decide) (by simp) rfl rfl rfl rfl rfl
  | encRun _ hp | encPixel _ hp | decChunk _ _ _ hp =>
    have hne : s.phase ≠ .idle := by rw [hp]; decide
    exact hkeep hne hne rfl rfl rfl rfl rfl
  | encTail hp | decTail hp => exact hdone (by rw [hp]; decide) rfl rfl

theorem EngineNext.workLegal (hn : EngineNext s t) : t.WorkLegal := by
  have hbody (hp : s.phase = .body) : s.phase.working := .inr (.inl hp)
  cases hn with
  | rest => exact h.work
  | raised c => exact .of_idle (State.raise_phase s c)
  | beginEncode _ hcmd hv hr => exact .of_encoding rfl hr (State.beginEncode_encoding hcmd hv)
  | beginDecode _ hcmd hr => exact .of_decoding rfl hr hcmd fun hq => by rcases hq with hq | hq <;> cases hq
  | toTail hp he =>
    rcases s.op_cases with ho | ho
    · have henc := h.encoding (hbody hp) ho
      exact .of_encoding ho (h.regions (hbody hp)) (henc.progress henc.pixels henc.written henc.cacheOwn (by decide)
        fun _ => he)
    · have hdec := h.decoding (.inl hp) ho
      exact .of_decoding ho (h.regions (hbody hp)) (h.decodeCommand (hbody hp) ho) fun _ =>
        hdec.progress hdec.pixels (Nat.le_refl _) hdec.readHigh fun _ => he
  | encHeader hp ho hd =>
    have henc := h.encoding (.inl hp) ho
    exact .of_encoding ho (h.regions (.inl hp)) (henc.progress henc.pixels hd henc.cacheOwn (by decide)
      fun hq => by cases hq)
  | encRun n hp ho _ _ hn _ _ hd =>
    have henc := h.encoding (hbody hp) ho
    exact .of_encoding ho (h.regions (hbody hp)) (henc.progress hn hd (Cache.own_update henc.cacheOwn _) (by simp [hp])
      fun hq => absurd (hp.symm.trans hq) (by decide))
  | encPixel i hp ho hn _ _ hd =>
    have henc := h.encoding (hbody hp) ho
    exact .of_encoding ho (h.regions (hbody hp)) (henc.progress hn hd (Cache.own_update henc.cacheOwn _) (by simp [hp])
      fun hq => absurd (hp.symm.trans hq) (by decide))
  | encTail => exact .of_idle rfl
  | decHeader w ht c cs hp ho hl _ _ hc hcs hw hht hcap =>
    exact .of_decoding ho (h.regions (.inl hp)) (h.decodeCommand (.inl hp) ho) fun _ =>
      State.beginDecode_decoding hc hcs hw hht hcap hl
  | decChunk i p n hp ho _ _ hl _ _ _ hn =>
    have hdec := h.decoding (.inl hp) ho
    exact .of_decoding ho (h.regions (hbody hp)) (h.decodeCommand (hbody hp) ho) fun _ =>
      hdec.progress hn (Nat.le_add_right _ _) hl fun hq => absurd (hp.symm.trans hq) (by decide)
  | decTail => exact .of_idle rfl

theorem EngineNext.inv (hn : EngineNext s t) : t.Inv :=
  State.inv_iff.mpr ⟨hn.mem_wf h, hn.flagsLegal h, hn.workLegal h⟩

/-- From a good state an engine step's next state is one of those listed (R24, R25). -/
theorem State.Inv.engineNext (hstep : engineStep s = .next t) : EngineNext s t := by
  have hlegal (hp : s.phase = .body) : (s.lc = 3 ∨ s.lc = 4) ∧ s.pix ≤ s.npix := by
    rcases s.op_cases with ho | ho
    · have henc := h.encoding (.inr (.inl hp)) ho
      exact ⟨henc.legal.channels, henc.pixels⟩
    · have hdec := h.decoding (.inl hp) ho
      exact ⟨hdec.legal.channels, hdec.pixels⟩
  exact engineStep_next (fun hp => (hlegal hp).1) (fun hp => (hlegal hp).2) hstep

end

end Sys2Proof.Machine
end

section
/-! Every step from a good state (R20, R240 to R249, R290): the host's moves keep the invariant too, no step faults, and
the statements about the invariant and about memory. -/

namespace Sys2Proof.Machine

/-! ### The host's moves -/

section
variable {s : State} (h : s.Inv)
include h

/-- What the invariant does not look at, and memory for any in canonical form. -/
theorem State.Inv.exchange {mem : Memory} (hm : mem.wf) (host : List HostMove) (rdata : Word) (draws : Nat) :
    State.Inv { s with mem := mem, host := host, rdata := rdata, draws := draws } := by
  refine State.inv_iff.mpr ⟨hm, h.flags.congr Iff.rfl rfl rfl rfl rfl rfl, h.regions, fun hp ho => ?_, h.decodeCommand,
    fun hp ho => ?_⟩
  · have henc := h.encoding hp ho
    exact ⟨henc.command, henc.image, ⟨henc.legal.channels, henc.legal.colorspace, henc.legal.width, henc.legal.height⟩,
      henc.source, henc.pixels, henc.written, henc.cacheOwn, henc.atHeader, henc.atTail⟩
  · have hdec := h.decoding hp ho
    exact ⟨⟨hdec.legal.channels, hdec.legal.colorspace, hdec.legal.width, hdec.legal.height⟩, hdec.capacity,
      hdec.pixels, hdec.readLow, hdec.readHigh, hdec.atTail⟩

theorem State.Inv.withHost (moves : List HostMove) : State.Inv { s with host := moves } :=
  h.exchange h.memory moves s.rdata s.draws

theorem State.Inv.idle (hbusy : ¬s.status.busy = true) : s.phase = .idle :=
  h.busyPhase.mpr (Bool.eq_false_iff.mpr hbusy)

/-- A register written while no operation runs. -/
theorem State.Inv.writeIdle {t : State} (hbusy : ¬s.status.busy = true) (hm : t.mem = s.mem) (hphase : t.phase = s.phase)
    (hf : t.FlagsLegal) : t.Inv :=
  State.inv_iff.mpr ⟨hm ▸ h.memory, hf, .of_idle (hphase.trans (h.idle hbusy))⟩

theorem State.Inv.start_inv (c : Ctrl) : (s.start c).Inv := by
  cases hbusy : s.status.busy with
  | true =>
    rw [State.start_of_busy s c hbusy]
    exact h
  | false =>
    refine State.inv_iff.mpr ⟨?_, h.flags.start c, .of_not_working ?_⟩ <;> rw [State.start_eq hbusy]
    · exact h.memory
    · simp [Phase.working]

/-- R240: every register write is answered, and keeps the invariant. -/
theorem State.Inv.writeReg_answers (r : Reg) (v : Word) : ∃ t, writeReg s r v = .next t ∧ t.Inv := by
  by_cases hbusy : s.status.busy = true
  · exact ⟨s, writeReg_of_busy hbusy r v, h⟩
  · have hkeep {t : State} (hm : t.mem = s.mem) (hphase : t.phase = s.phase) (hstatus : t.status = s.status)
        (hctrl : t.ctrl = s.ctrl) (hirq : t.irq = s.irq) (herr : t.errcode = s.errcode)
        (hout : t.outLen = s.outLen) : t.Inv :=
      h.writeIdle hbusy hm hphase (h.flags.congr (by rw [hphase]) hstatus hctrl hirq herr hout)
    cases r with
    | ctrl =>
      have hreg : writeReg s .ctrl v = writeCtrl s v := if_neg hbusy
      by_cases hstart : v.getLsbD 0 = true
      · exact ⟨_, hreg.trans (writeCtrl_of_start hstart s), h.start_inv _⟩
      · exact ⟨_, hreg.trans (writeCtrl_of_no_start hstart s), h.writeIdle hbusy rfl rfl (h.flags.setCtrl _)⟩
    | status => exact ⟨_, if_neg hbusy, h.writeIdle hbusy rfl rfl (h.flags.writeStatus v)⟩
    | errcode | imgWidth | imgHeight | imgFormat | srcBase | srcLen | dstBase | dstCap | outLen | reserved =>
      exact ⟨_, if_neg hbusy, hkeep rfl rfl rfl rfl rfl rfl rfl⟩

theorem State.Inv.resetBlock_inv : s.resetBlock.Inv := by
  have hm : s.loseDestination.mem.wf := by
    rw [← State.raise_mem s .busError]
    exact wf_raise h.memory _
  exact State.inv_iff.mpr ⟨hm, State.reset_flagsLegal.congr Iff.rfl rfl rfl rfl rfl rfl, .of_idle rfl⟩

theorem State.Inv.hostRead_inv (a : Nat) : (s.hostRead a).Inv := by
  rw [State.hostRead]
  split
  · exact h.exchange h.memory s.host _ _
  · exact h.exchange h.memory s.host _ s.draws

/-- A move of the host's own is refused, or answered by a good state. -/
theorem State.Inv.hostStep_refused_or_next {m : HostMove} (hm : m ≠ .wait) :
    (∃ r, hostStep m s = .refused r) ∨ ∃ t, hostStep m s = .next t ∧ t.Inv := by
  cases m with
  | wait => exact absurd rfl hm
  | reset => exact .inr ⟨_, rfl, h.resetBlock_inv⟩
  | regWrite addr size v =>
    simp only [hostStep]
    split
    · exact .inr (h.writeReg_answers _ v)
    · exact .inl ⟨_, rfl⟩
  | regRead addr size =>
    simp only [hostStep]
    split
    · exact .inr ⟨_, rfl, h.exchange h.memory s.host _ s.draws⟩
    · exact .inl ⟨_, rfl⟩
  | memWrite addr v =>
    simp only [hostStep]
    split
    · exact .inl ⟨_, rfl⟩
    · exact .inr ⟨_, rfl, h.exchange (Memory.wf_write h.memory addr.isLt v) s.host s.rdata s.draws⟩
  | memRead addr => exact .inr ⟨_, rfl, h.hostRead_inv _⟩

end

/-- One step is the engine's, or a move of the host's own. -/
theorem step_cases (s : State) :
    (∃ moves, step s = engineStep { s with host := moves }) ∨
      ∃ m moves, m ≠ .wait ∧ step s = hostStep m { s with host := moves } := by
  cases hhost : s.host with
  | nil => exact .inl ⟨[], by rw [step_of_no_host hhost, ← hhost]⟩
  | cons m moves =>
    have hstep : step s = hostStep m { s with host := moves } := by rw [step, moveStep, hhost]
    by_cases hm : m = .wait
    · exact .inl ⟨moves, by rw [hstep, hm]; rfl⟩
    · exact .inr ⟨m, moves, hm, hstep⟩

/-! ### No step faults -/

/-- A computation whose stops are all error endings. -/
def OnlyRaises {α : Type} (x : Except Stop α) : Prop := ∀ e, x = .error e → e.IsRaise

theorem OnlyRaises.bind {α β : Type} {x : Except Stop α} {f : α → Except Stop β} (hx : OnlyRaises x)
    (hf : ∀ a, x = .ok a → OnlyRaises (f a)) : OnlyRaises (x >>= f) := fun e he => by
  rcases bind_eq_error.mp he with he | ⟨a, ha, he⟩
  · exact hx e he
  · exact hf a ha e he

theorem onlyRaises_ok {α : Type} (a : α) : OnlyRaises (.ok a) := fun _ he => by cases he

/-- The CHECK step accesses no memory (R242). -/
theorem checkStep_answers (s : State) : ∃ t, checkStep s = .next t := by
  rcases cmd_cases s.ctrl.cmd with hencode | hdecode | hreserved
  · rw [checkStep_encode hencode, settle_regions_bind]
    split_ifs <;> exact ⟨_, rfl⟩
  · rw [checkStep_decode hdecode, settle_regions_bind]
    split_ifs <;> exact ⟨_, rfl⟩
  · exact ⟨_, checkStep_reserved hreserved⟩

section
variable {s : State} (hr : s.regionsOk = true)
include hr

/-- An output that is inside the destination, or none at all (R196, R244). -/
theorem onlyRaises_emit (bs : List Byte) : OnlyRaises (emit s bs) := fun e he => by
  obtain ⟨_, hdst, _⟩ := State.regionsOk_iff.mp hr
  rcases emit_eq_error he with ⟨_, rfl⟩ | ⟨_, i, hi, hstop⟩
  · exact ⟨_, rfl⟩
  · exact ⟨_, eq_busError_of_access (by omega) hstop⟩

/-- A fetch reads inside the source (R141, R144, R211, R244). -/
theorem onlyRaises_fetch {x : Except Stop Instr} (hx : x = fetchHeader s ∨ x = fetchChunk s ∨ x = fetchMarker s) :
    OnlyRaises x := fun e he => by
  obtain ⟨hsrc, _, _⟩ := State.regionsOk_iff.mp hr
  have hfetch : fetchHeader s = .error e ∨ fetchChunk s = .error e ∨ fetchMarker s = .error e := by
    rcases hx with rfl | rfl | rfl
    · exact .inl he
    · exact .inr (.inl he)
    · exact .inr (.inr he)
  rcases fetch_eq_error hfetch with hraise | ⟨a, _, ha, hstop⟩
  · exact hraise
  · exact ⟨_, eq_busError_of_access (by omega) hstop⟩

/-- The pixels of a chunk lie inside the destination (R210, R244). -/
theorem State.Decoding.onlyRaises_chunkStep (h : s.Decoding) (p : Pixel) (n len : Nat) :
    OnlyRaises (chunkStep s p n len) := fun e he => by
  obtain ⟨_, hdst, _⟩ := State.regionsOk_iff.mp hr
  rcases chunkStep_eq_error h.legal.channels he with ⟨_, rfl⟩ | ⟨hn, i, hi, hstop⟩
  · exact ⟨_, rfl⟩
  · have hmul := (Nat.mul_le_mul_right s.lc.toNat hn).trans h.capacity
    rw [Nat.add_mul] at hmul
    exact ⟨_, eq_busError_of_access (by rw [State.dstPixel]; omega) hstop⟩

variable (h : s.Encoding)
include h

/-- The pixels of the image lie inside the source (R243 check 5, R244). -/
theorem State.Encoding.onlyRaises_loadPixel {i : Nat} (hi : i < s.npix) : OnlyRaises (loadPixel s i) := fun e he => by
  obtain ⟨hsrc, _, _⟩ := State.regionsOk_iff.mp hr
  obtain ⟨j, hj, hstop⟩ := loadPixel_eq_error h.legal.channels he
  have hmul : (i + 1) * s.lc.toNat ≤ s.npix * s.lc.toNat := Nat.mul_le_mul_right _ hi
  have hlen := h.source
  rw [Nat.succ_mul] at hmul
  exact ⟨_, eq_busError_of_access (by rw [State.srcPixel]; omega) hstop⟩

theorem State.Encoding.onlyRaises_encBody : OnlyRaises (encBody s) := by
  have hpix := h.pixels
  rw [encBody]
  split
  case isTrue => exact onlyRaises_ok _
  case isFalse hne =>
    refine (h.onlyRaises_loadPixel hr (by omega)).bind fun p _ => ?_
    split
    · refine OnlyRaises.bind (fun e he => ?_) fun n _ => (onlyRaises_emit hr _).bind fun _ _ => onlyRaises_ok _
      obtain ⟨i, hi, he⟩ := runScan_eq_error he
      exact h.onlyRaises_loadPixel hr hi e he
    · exact (onlyRaises_emit hr _).bind fun _ _ => onlyRaises_ok _

end

/-- A fetched item's step is answered if the item's is. -/
theorem runFetched_answers {s : State} {x : Except Stop Instr} (hx : OnlyRaises x)
    (hi : ∀ i, x = .ok i → ∃ t, exec i s = .next t) : ∃ t, runFetched s x = .next t := by
  cases x with
  | ok i => exact hi i rfl
  | error e =>
    obtain ⟨c, rfl⟩ := hx e rfl
    exact ⟨_, runFetched_raise s c⟩

/-- From a good state every engine step is answered. -/
theorem State.Inv.engineStep_answers {s : State} (h : s.Inv) : ∃ t, engineStep s = .next t := by
  cases hp : s.phase with
  | idle => exact ⟨s, engineStep_idle hp⟩
  | check =>
    rw [engineStep_check hp]
    exact checkStep_answers s
  | header =>
    have hr := h.regions (.inl hp)
    cases ho : s.op with
    | enc =>
      rw [engineStep_encHeader hp ho]
      exact settle_answers ((onlyRaises_emit hr _).bind fun _ _ => onlyRaises_ok _)
    | dec =>
      rw [engineStep_decHeader hp ho]
      refine runFetched_answers (onlyRaises_fetch hr (.inl rfl)) fun i hi => ?_
      obtain ⟨_, _, w, ht, c, cs, rfl, _⟩ := fetchHeader_eq_ok.mp hi
      exact ⟨_, exec_hdr_eq w ht c cs s⟩
  | body =>
    have hr := h.regions (.inr (.inl hp))
    cases ho : s.op with
    | enc =>
      rw [engineStep_encBody hp ho]
      exact settle_answers ((h.encoding (.inr (.inl hp)) ho).onlyRaises_encBody hr)
    | dec =>
      rw [engineStep_decBody hp ho]
      split
      · exact ⟨_, rfl⟩
      · refine runFetched_answers (onlyRaises_fetch hr (.inr (.inl rfl))) fun i hi => ?_
        obtain ⟨_, _, hplace, _⟩ := fetchChunk_eq_ok.mp hi
        rw [exec_chunk hplace]
        exact settle_answers ((h.decoding (.inl hp) ho).onlyRaises_chunkStep hr _ _ _)
  | tail =>
    have hr := h.regions (.inr (.inr hp))
    cases ho : s.op with
    | enc =>
      rw [engineStep_encTail hp ho]
      exact settle_answers ((onlyRaises_emit hr _).bind fun _ _ => onlyRaises_ok _)
    | dec =>
      rw [engineStep_decTail hp ho]
      refine runFetched_answers (onlyRaises_fetch hr (.inr (.inr rfl))) fun i hi => ?_
      obtain ⟨_, _, rfl, _⟩ := fetchMarker_eq_ok.mp hi
      exact ⟨_, rfl⟩

/-- What a good state's step is: refused, or answered by a good state. -/
theorem State.Inv.step_refused_or_next {s : State} (h : s.Inv) : (∃ r, step s = .refused r) ∨ ∃ t, step s = .next t ∧ t.Inv := by
  rcases step_cases s with ⟨moves, hstep⟩ | ⟨m, moves, hm, hstep⟩ <;> rw [hstep]
  · have hinv := h.withHost moves
    obtain ⟨t, ht⟩ := hinv.engineStep_answers
    exact .inr ⟨t, ht, (hinv.engineNext ht).inv hinv⟩
  · exact (h.withHost moves).hostStep_refused_or_next hm

end Sys2Proof.Machine

open Sys2Proof Sys2Proof.Machine

/-- Settles O50: the engine's steps keep memory, flags and operation legal, and so do the host's moves. -/
theorem stepKeepsInvariant : Obligations.StepKeepsInvariant := by
  unfold Obligations.StepKeepsInvariant
  intro s t hinv hstep
  rcases hinv.step_refused_or_next with ⟨r, hr⟩ | ⟨u, hu, hgood⟩
  · rw [hstep] at hr
    cases hr
  · rw [hstep] at hu
    cases hu
    exact hgood

/-- Settles O51: a good state's step is refused or answered. -/
theorem stepNeverFaults : Obligations.StepNeverFaults := by
  unfold Obligations.StepNeverFaults
  intro s f hinv hstep
  rcases hinv.step_refused_or_next with ⟨r, hr⟩ | ⟨u, hu, _⟩
  · rw [hstep] at hr
    cases hr
  · rw [hstep] at hu
    cases hu

/-- Settles O52: what an engine step makes of memory is inside the destination. -/
theorem engineWritesOnlyDestination : Obligations.EngineWritesOnlyDestination := by
  unfold Obligations.EngineWritesOnlyDestination
  exact fun s t hinv hstep a ha => (hinv.engineNext hstep).read_outside hinv ha

/-- Settles O49: empty memory, clear flags and no operation. -/
theorem resetMeetsInvariant : Obligations.ResetMeetsInvariant := by
  unfold Obligations.ResetMeetsInvariant
  exact State.inv_iff.mpr ⟨Memory.wf_empty, State.reset_flagsLegal, .of_idle rfl⟩
end

section
/-! The end of a decode (R216): every step from a good state is answered by a good state, and a BODY step of a decode ends
the body, ends in error, or takes bytes and gives pixels. -/

namespace Sys2Proof.Machine

/-- A chunk that is read gives at least one pixel (R83, R212). -/
theorem chunkEffect_count_pos {k : Coder} {i : Instr} (hp : i.place = .chunk) (hwf : i.wf = true) :
    1 ≤ (chunkEffect k i).2 := by
  cases i with
  | rgb | rgba | index | diff | luma => exact Nat.le_refl 1
  | run n =>
    simp only [Instr.wf, Bool.and_eq_true, decide_eq_true_eq] at hwf
    exact hwf.1
  | hdr | endMarker | encodeCmd | decodeCmd | reservedCmd => cases hp

/-- R211, R216: a BODY step of a decode ends in error, ends the body, or takes a byte or more and gives a pixel or more. -/
theorem decBody_next {s t : State} (hp : s.phase = .body) (ho : s.op = .dec) (h : EngineNext s t) :
    (∃ c, t = s.raise c) ∨ (s.pix = s.npix ∧ t = { s with phase := .tail }) ∨
      (t.phase = .body ∧ t.op = .dec ∧ t.npix = s.npix ∧ t.srcLen = s.srcLen ∧ s.rp + 1 ≤ t.rp ∧ t.rp ≤ s.srcLen.toNat ∧
        s.pix + 1 ≤ t.pix ∧ t.pix ≤ s.npix) := by
  cases h with
  | raised c => exact .inl ⟨c, rfl⟩
  | toTail _ he => exact .inr (.inl ⟨he, rfl⟩)
  | decChunk i p n _ _ hi he hl _ hd _ hn _ =>
    have hcount := chunkEffect_count_pos (k := ⟨s.prev, s.cache⟩) hi (decodeChunk_wf hd)
    rw [he] at hcount
    exact .inr (.inr ⟨hp, ho, rfl, rfl, Nat.add_le_add_left (Instr.length_pos i) s.rp, hl,
      Nat.add_le_add_left hcount s.pix, hn⟩)
  | encRun _ _ henc | encPixel _ _ henc => rw [ho] at henc; cases henc
  | rest hq | beginEncode hq | beginDecode hq | encHeader hq | encTail hq | decHeader _ _ _ _ hq | decTail hq =>
    rw [hp] at hq; cases hq

/-- With nothing from the host a good state's step is the engine's, and is answered by a good state. -/
theorem State.Inv.step_alone {s : State} (h : s.Inv) (hhost : s.host = []) :
    ∃ t, step s = .next t ∧ EngineNext s t ∧ t.Inv ∧ t.host = [] := by
  obtain ⟨t, ht⟩ := h.engineStep_answers
  have hn := h.engineNext ht
  exact ⟨t, (step_of_no_host hhost).trans ht, hn, hn.inv h, hn.keeps.1.trans hhost⟩

/-- The bound on `OUT_LEN` that every word meets: R216 says nothing of the output. -/
def anyOutLen : Nat := 2 ^ 32

theorem State.Inv.endsWithin_of_raise {s : State} (h : s.Inv) (hp : s.phase ≠ .idle) {c : ErrCode}
    (hstep : step s = .next (s.raise c)) (k : Nat) : s.EndsWithin (k + 1) anyOutLen :=
  .of_raise hstep (h.running (h.flags.busy hp)).2

/-- R144, R213: the TAIL step is the last. -/
theorem State.Inv.decTail_endsWithin {s : State} (h : s.Inv) (hhost : s.host = []) (hp : s.phase = .tail)
    (ho : s.op = .dec) : s.EndsWithin 1 anyOutLen := by
  obtain ⟨t, hstep, hnext, _, _⟩ := h.step_alone hhost
  cases hnext with
  | raised c hne => exact h.endsWithin_of_raise hne hstep 0
  | decTail => exact .of_step hstep ⟨0, _, Nat.le_refl 0, rfl, rfl, .inl rfl, (BitVec.isLt _).le⟩
  | encTail _ henc => rw [ho] at henc; cases henc
  | rest hq | beginEncode hq | beginDecode hq | toTail hq | encHeader hq | encRun _ hq | encPixel _ hq
  | decHeader _ _ _ _ hq | decChunk _ _ _ hq => rw [hp] at hq; cases hq

/-- R216, by induction on what is left of pixels or bytes, whichever is less. -/
theorem State.Inv.decBody_endsWithin {s : State} (h : s.Inv) (hhost : s.host = []) (hp : s.phase = .body)
    (ho : s.op = .dec) : s.EndsWithin (min (s.npix - s.pix) (s.srcLen.toNat - s.rp) + 2) anyOutLen := by
  induction hm : min (s.npix - s.pix) (s.srcLen.toNat - s.rp) using Nat.strong_induction_on generalizing s with
  | _ m ih =>
    obtain ⟨t, hstep, hnext, hinv, hquiet⟩ := h.step_alone hhost
    rcases decBody_next hp ho hnext with
      ⟨c, rfl⟩ | ⟨_, rfl⟩ | ⟨hbody, hdec, hnpix, hlen, hrp, hread, hpix, hcount⟩
    · exact h.endsWithin_of_raise (by rw [hp]; decide) hstep _
    · exact (State.EndsWithin.of_step hstep (hinv.decTail_endsWithin hquiet rfl ho)).mono (by omega) (Nat.le_refl _)
    · have hless : min (t.npix - t.pix) (t.srcLen.toNat - t.rp) < m := by
        rw [hnpix, hlen]
        omega
      exact (State.EndsWithin.of_step hstep (ih _ hless hinv hquiet hbody hdec rfl)).mono (by omega) (Nat.le_refl _)

/-- The image of a HEADER step that begins the decode is the one its bytes describe (R89, R141). -/
theorem State.Inv.decHeader_endsWithin {s : State} (h : s.Inv) (hhost : s.host = []) (hp : s.phase = .header)
    (ho : s.op = .dec) {b : Nat → Byte} (hb : ∀ k, b k = s.mem.read (s.srcBase.toNat + k)) :
    s.EndsWithin (min ((beWord (b 4) (b 5) (b 6) (b 7)).toNat * (beWord (b 8) (b 9) (b 10) (b 11)).toNat)
      (s.srcLen.toNat - 14) + 3) anyOutLen := by
  obtain ⟨t, hstep, hnext, hinv, hquiet⟩ := h.step_alone hhost
  cases hnext with
  | raised c hne => exact h.endsWithin_of_raise hne hstep _
  | decHeader w ht c cs _ _ _ _ hd =>
    have hbytes : s.mem.readBytes s.srcBase.toNat 14 =
        [b 0, b 1, b 2, b 3, b 4, b 5, b 6, b 7, b 8, b 9, b 10, b 11, b 12, b 13] := by
      rw [readBytes_eq_map]
      simp only [← hb]
      rfl
    have hfields := decodeFetched_of_instr hd
    rw [hbytes, decodeFetched_header] at hfields
    split at hfields
    · cases hfields
      exact .of_step hstep (hinv.decBody_endsWithin hquiet rfl ho)
    · cases hfields
  | encHeader _ henc => rw [ho] at henc; cases henc
  | rest hq | beginEncode hq | beginDecode hq | toTail hq | encRun _ hq | encPixel _ hq | encTail hq
  | decChunk _ _ _ hq | decTail hq => rw [hp] at hq; cases hq

/-- R216 from the CHECK step on. -/
theorem State.Inv.decCheck_endsWithin {s : State} (h : s.Inv) (hhost : s.host = []) (hp : s.phase = .check)
    (hcmd : s.ctrl.cmd = 1) {b : Nat → Byte} (hb : ∀ k, b k = s.mem.read (s.srcBase.toNat + k)) :
    s.EndsWithin (min ((beWord (b 4) (b 5) (b 6) (b 7)).toNat * (beWord (b 8) (b 9) (b 10) (b 11)).toNat)
      (s.srcLen.toNat - 14) + 4) anyOutLen := by
  obtain ⟨t, hstep, hnext, hinv, hquiet⟩ := h.step_alone hhost
  cases hnext with
  | raised c hne => exact h.endsWithin_of_raise hne hstep _
  | beginDecode => exact .of_step hstep (hinv.decHeader_endsWithin hquiet rfl rfl hb)
  | beginEncode _ hzero => rw [hcmd] at hzero; cases hzero
  | rest hq | toTail hq | encHeader hq | encRun _ hq | encPixel _ hq | encTail hq | decHeader _ _ _ _ hq
  | decChunk _ _ _ hq | decTail hq => rw [hp] at hq; cases hq

end Sys2Proof.Machine

open Sys2Proof Sys2Proof.Machine

/-- Settles O57: the steps of CHECK, HEADER, BODY and TAIL counted, and what a BODY step does. -/
theorem decodeEndsInTime : Obligations.DecodeEndsInTime := by
  unfold Obligations.DecodeEndsInTime
  refine ⟨fun s b w ht hinv hhost hp hcmd hb hw hht => ?_, fun s t hinv hp ho hstep => ?_⟩
  · rw [← beWord_toNat] at hw hht
    obtain ⟨k, t, hk, hrun, hidle, hflag, _⟩ := hinv.decCheck_endsWithin hhost hp hcmd hb
    rw [← hw, ← hht] at hk
    exact ⟨k, t, hk, hrun, hidle, hflag⟩
  · rcases decBody_next hp ho (hinv.engineNext hstep) with ⟨c, rfl⟩ | ⟨_, rfl⟩ | ⟨_, _, _, _, hrp, _, hpix, _⟩
    · exact .inl (by simp)
    · exact .inl (by simp)
    · exact .inr ⟨hrp, hpix⟩
end

section
/-! Two engine steps side by side (R29, R46, R60, R70): from states that differ only in what a slack allows, the engine
answers states that differ only in that, or stops alike. The three statements on noninterference are uses of this. -/

namespace Sys2Proof.Machine

/-! ### Two computations in lockstep -/

/-- Two computations that answer related values, or stop alike. -/
inductive Lockstep {α β : Type} (R : α → β → Prop) : Except Stop α → Except Stop β → Prop where
  | ok {a : α} {b : β} (h : R a b) : Lockstep R (.ok a) (.ok b)
  | error (e : Stop) : Lockstep R (.error e) (.error e)

/-- Two steps that answer related states, or stop alike. -/
inductive OutcomeLockstep (R : State → State → Prop) : Outcome → Outcome → Prop where
  | next {s u : State} (h : R s u) : OutcomeLockstep R (.next s) (.next u)
  | fault (f : Fault) : OutcomeLockstep R (.fault f) (.fault f)
  | refused (r : Refusal) : OutcomeLockstep R (.refused r) (.refused r)

theorem Lockstep.refl {α : Type} {R : α → α → Prop} (hR : ∀ a, R a a) (x : Except Stop α) : Lockstep R x x := by
  cases x with
  | ok a => exact .ok (hR a)
  | error e => exact .error e

theorem Lockstep.bind {α β γ δ : Type} {R : α → β → Prop} {Q : γ → δ → Prop} {x : Except Stop α} {y : Except Stop β}
    {f : α → Except Stop γ} {g : β → Except Stop δ} (h : Lockstep R x y)
    (hf : ∀ a b, x = .ok a → R a b → Lockstep Q (f a) (g b)) : Lockstep Q (x >>= f) (y >>= g) := by
  cases h with
  | ok hab => exact hf _ _ rfl hab
  | error e => exact .error e

/-- The same first half, then related second halves. -/
theorem Lockstep.bind_same {α γ δ : Type} {Q : γ → δ → Prop} (x : Except Stop α) {f : α → Except Stop γ}
    {g : α → Except Stop δ} (hf : ∀ a, x = .ok a → Lockstep Q (f a) (g a)) : Lockstep Q (x >>= f) (x >>= g) :=
  (Lockstep.refl (R := Eq) (fun _ => rfl) x).bind fun a _ ha hab => hab ▸ hf a ha

theorem Lockstep.settle {R : State → State → Prop} {s u : State} {x y : Except Stop State} (h : Lockstep R x y)
    (hraise : ∀ c, R (s.raise c) (u.raise c)) : OutcomeLockstep R (settle s x) (settle u y) := by
  cases h with
  | ok hst => exact .next hst
  | error e =>
    cases e with
    | raise c => exact .next (hraise c)
    | fault f => exact .fault f

theorem OutcomeLockstep.next_iff {R : State → State → Prop} {t : State} {y : Outcome}
    (h : OutcomeLockstep R (.next t) y) : ∃ u, y = .next u ∧ R t u := by
  cases h with
  | next h => exact ⟨_, rfl, h⟩

/-! ### What two states may differ in -/

/-- What two states may differ in: lanes of PREV and CACHE that do not count with `lanes` channels, memory as `mem` says,
and, if `spare`, the counter that the operation does not use (RP in an encode, WP in a decode). -/
structure Slack where
  lanes : Byte
  mem : Memory → Memory → Prop
  spare : Prop
  write : ∀ {m n : Memory} {a : Nat} (v : Byte), mem m n → a < Config.addressEnd → mem (m.write a v) (n.write a v)
  obscure : ∀ {m n : Memory} (lo hi d : Nat), mem m n → mem (m.obscure lo hi d) (n.obscure lo hi d)

/-- `u` is `s` but for what the slack allows. -/
structure State.Twin (k : Slack) (s u : State) : Prop where
  lanes : k.lanes = 4 ∨ (k.lanes = 3 ∧ s.lc = 3)
  coder : Coder.Agree k.lanes ⟨s.prev, s.cache⟩ ⟨u.prev, u.cache⟩
  mem : k.mem s.mem u.mem
  wp : u.wp = s.wp ∨ (k.spare ∧ s.op = .dec)
  rp : u.rp = s.rp ∨ (k.spare ∧ s.op = .enc)
  rest : ∃ prev cache mem rp wp, u = { s with prev := prev, cache := cache, mem := mem, rp := rp, wp := wp }

/-- `u` holds the bytes of `s` wherever an engine step may read: in the source, or anywhere if `s` is no good state. -/
def State.SameReads (s u : State) : Prop := ∀ a, (s.Inv → s.inSource a = true) → u.mem.read a = s.mem.read a

theorem State.SameReads.of_eq {s u : State} (h : u.mem = s.mem) : s.SameReads u := fun a _ => by rw [h]

/-! ### Lanes -/

/-- All four lanes count with four channels. -/
theorem eqC_four_iff {p q : Pixel} : eqC 4 p q = true ↔ p = q := by
  refine ⟨fun h => ?_, fun h => h ▸ eqC_self 4 p⟩
  obtain ⟨hr, hg, hb, ha⟩ := eqC_iff.mp h
  cases p
  cases q
  rw [Pixel.mk.injEq]
  exact ⟨hr, hg, hb, ha.resolve_left (by decide)⟩

/-- With three channels the alpha lane alone is free (R29). -/
theorem eqC_three_iff {p q : Pixel} : eqC 3 p q = true ↔ ∃ x, q = { p with a := x } := by
  constructor
  · intro h
    obtain ⟨hr, hg, hb, _⟩ := eqC_iff.mp h
    exact ⟨q.a, by rw [hr, hg, hb]⟩
  · rintro ⟨x, rfl⟩
    exact eqC_iff.mpr ⟨rfl, rfl, rfl, .inl rfl⟩

/-- Pixels that agree on the slack's lanes agree on the image's. -/
theorem eqC_of_lanes {x c : Byte} (h : x = 4 ∨ (x = 3 ∧ c = 3)) {p q : Pixel} (hpq : eqC x p q = true) :
    eqC c p q = true := by
  rcases h with rfl | ⟨rfl, rfl⟩
  · rw [eqC_four_iff.mp hpq]
    exact eqC_self c q
  · exact hpq

theorem eqC_congr_right {c : Byte} {q r : Pixel} (h : eqC c q r = true) (p : Pixel) : eqC c p q = eqC c p r :=
  Bool.eq_iff_iff.mpr ⟨fun hq => eqC_trans hq h, fun hr => eqC_trans hr (eqC_symm h)⟩

theorem pixelBytes_of_eqC {c : Byte} {p q : Pixel} (h : eqC c p q = true) : pixelBytes c p = pixelBytes c q := by
  obtain ⟨hr, hg, hb, ha⟩ := eqC_iff.mp h
  rw [pixelBytes, pixelBytes, hr, hg, hb]
  rcases ha with rfl | ha
  · rfl
  · rw [ha]

/-- R192: the chunk chosen rests on lanes that count alone. -/
theorem selectChunk_congr {c : Byte} {prev prev' : Pixel} {k k' : Cache} {p : Pixel} (hprev : eqC c prev prev' = true)
    (hslot : eqC c (slot k (indexOf c p)) (slot k' (indexOf c p)) = true) :
    selectChunk c prev k p = selectChunk c prev' k' p := by
  have hhit : eqC c (slot k (indexOf c p)) p = eqC c (slot k' (indexOf c p)) p :=
    Bool.eq_iff_iff.mpr ⟨eqC_trans (eqC_symm hslot), eqC_trans hslot⟩
  obtain ⟨hr, hg, hb, ha⟩ := eqC_iff.mp hprev
  have halpha : (c = 3 ∨ p.a = prev.a) ↔ (c = 3 ∨ p.a = prev'.a) := by
    rcases ha with h3 | ha
    · simp [h3]
    · rw [ha]
  have hdiff : diffOk c p prev = diffOk c p prev' := by
    rw [Bool.eq_iff_iff, diffOk_iff, diffOk_iff, hr, hg, hb, halpha]
  have hluma : lumaOk c p prev = lumaOk c p prev' := by
    rw [Bool.eq_iff_iff, lumaOk_iff, lumaOk_iff, hr, hg, hb, halpha]
  simp only [selectChunk_eq, hhit, hdiff, hluma, halpha, hr, hg, hb]

/-- R160 to R170: from coders that agree a chunk gives pixels that agree, as many. -/
theorem Coder.Agree.chunkEffect {c : Byte} {k k' : Coder} (h : k.Agree c k') (i : Instr) :
    eqC c (Machine.chunkEffect k i).1 (Machine.chunkEffect k' i).1 = true ∧
      (Machine.chunkEffect k i).2 = (Machine.chunkEffect k' i).2 := by
  obtain ⟨hr, hg, hb, ha⟩ := eqC_iff.mp h.prev
  cases i with
  | rgb r g b => exact ⟨eqC_iff.mpr ⟨rfl, rfl, rfl, ha⟩, rfl⟩
  | rgba r g b a => exact ⟨eqC_self c _, rfl⟩
  | index idx => exact ⟨h.cache idx, rfl⟩
  | diff dr dg db =>
    refine ⟨eqC_iff.mpr ⟨?_, ?_, ?_, ha⟩, rfl⟩ <;> simp only [Machine.chunkEffect, diffPixel, hr, hg, hb]
  | luma dg drg dbg =>
    refine ⟨eqC_iff.mpr ⟨?_, ?_, ?_, ha⟩, rfl⟩ <;> simp only [Machine.chunkEffect, lumaPixel, hr, hg, hb]
  | run | hdr | endMarker | encodeCmd | decodeCmd | reservedCmd => exact ⟨h.prev, rfl⟩

/-! ### Reads -/

section
variable {s u : State} (hp : u.platform = s.platform)
include hp

theorem loadByte_congr {a : Nat} (hm : u.mem.read a = s.mem.read a) : loadByte u a = loadByte s a := by
  rw [loadByte, loadByte, hp, hm]

theorem loadBytes_congr {a n : Nat} (hm : ∀ i, i < n → u.mem.read (a + i) = s.mem.read (a + i)) :
    loadBytes u a n = loadBytes s a n := by
  induction n generalizing a with
  | zero => rfl
  | succ n ih =>
    have hhead : loadByte u a = loadByte s a := loadByte_congr hp (hm 0 (Nat.succ_pos n))
    have htail : loadBytes u (a + 1) n = loadBytes s (a + 1) n := ih fun i hi => by
      have hnext := hm (i + 1) (by omega)
      rwa [show a + (i + 1) = a + 1 + i by omega] at hnext
    rw [loadBytes, loadBytes, hhead, htail]

theorem loadPixel_congr (hb : u.srcBase = s.srcBase) (hc : u.lc = s.lc) {i : Nat}
    (hm : ∀ j, j < 3 ∨ (j = 3 ∧ s.lc = 4) → u.mem.read (s.srcPixel i + j) = s.mem.read (s.srcPixel i + j)) :
    loadPixel u i = loadPixel s i := by
  have hsrc : u.srcPixel i = s.srcPixel i := by rw [State.srcPixel, State.srcPixel, hb, hc]
  have halpha : loadAlpha u (s.srcPixel i + 3) = loadAlpha s (s.srcPixel i + 3) := by
    rw [loadAlpha, loadAlpha, hc]
    split
    case isTrue h4 => exact loadByte_congr hp (hm 3 (.inr ⟨rfl, h4⟩))
    case isFalse => rfl
  have hred : loadByte u (s.srcPixel i) = loadByte s (s.srcPixel i) := loadByte_congr hp (hm 0 (.inl (by decide)))
  rw [loadPixel, loadPixel, hsrc, hc, halpha, hred, loadByte_congr hp (hm 1 (.inl (by decide))),
    loadByte_congr hp (hm 2 (.inl (by decide)))]

end

theorem runScan_congr {s u : State} (hpix : u.pix = s.pix) (hnpix : u.npix = s.npix) (hc : u.lc = s.lc)
    (hl : ∀ i, i < s.npix → loadPixel u i = loadPixel s i) (p : Pixel) (fuel n : Nat) :
    runScan u p fuel n = runScan s p fuel n := by
  induction fuel generalizing n with
  | zero => rfl
  | succ fuel ih =>
    rw [runScan, runScan, hpix, hnpix, hc]
    split
    case isTrue hlt => simp only [hl _ hlt, ih]
    case isFalse => rfl

/-! ### Twins -/

section
variable {k : Slack} {s u : State} (h : s.Twin k u)
include h

/-- A twin after a step: what both write they write alike. -/
theorem State.Twin.progress {m m' : Memory} (hm : k.mem m m') {prev prev' : Pixel} {cache cache' : Cache}
    (hcoder : Coder.Agree k.lanes ⟨prev, cache⟩ ⟨prev', cache'⟩) {rp rp' wp wp' : Nat}
    (hwp : wp' = wp ∨ (k.spare ∧ s.op = .dec)) (hrp : rp' = rp ∨ (k.spare ∧ s.op = .enc)) (pix : Nat) (phase : Phase) :
    State.Twin k { s with mem := m, prev := prev, cache := cache, pix := pix, phase := phase, rp := rp, wp := wp }
      { u with mem := m', prev := prev', cache := cache', pix := pix, phase := phase, rp := rp', wp := wp' } := by
  obtain ⟨_, _, _, _, _, rfl⟩ := h.rest
  exact ⟨h.lanes, hcoder, hm, hwp, hrp, ⟨_, _, _, _, _, rfl⟩⟩

theorem State.Twin.withPhase (phase : Phase) : State.Twin k { s with phase := phase } { u with phase := phase } := by
  obtain ⟨_, _, _, _, _, rfl⟩ := h.rest
  exact ⟨h.lanes, h.coder, h.mem, h.wp, h.rp, ⟨_, _, _, _, _, rfl⟩⟩

theorem State.Twin.withRp (rp : Nat) : State.Twin k { s with rp := rp } { u with rp := rp } := by
  obtain ⟨_, _, _, _, _, rfl⟩ := h.rest
  exact ⟨h.lanes, h.coder, h.mem, h.wp, .inl rfl, ⟨_, _, _, _, _, rfl⟩⟩

theorem State.Twin.withOutLen (len : Word) : State.Twin k { s with outLen := len } { u with outLen := len } := by
  obtain ⟨_, _, _, _, _, rfl⟩ := h.rest
  exact ⟨h.lanes, h.coder, h.mem, h.wp, h.rp, ⟨_, _, _, _, _, rfl⟩⟩

theorem State.Twin.complete : State.Twin k s.complete u.complete := by
  obtain ⟨_, _, _, _, _, rfl⟩ := h.rest
  exact ⟨h.lanes, h.coder, h.mem, h.wp, h.rp, ⟨_, _, _, _, _, rfl⟩⟩

theorem State.Twin.reportImage : State.Twin k s.reportImage u.reportImage := by
  obtain ⟨_, _, _, _, _, rfl⟩ := h.rest
  exact ⟨h.lanes, h.coder, h.mem, h.wp, h.rp, ⟨_, _, _, _, _, rfl⟩⟩

/-- R261: an error ending takes both alike. -/
theorem State.Twin.raise (c : ErrCode) : State.Twin k (s.raise c) (u.raise c) := by
  obtain ⟨_, _, _, _, _, rfl⟩ := h.rest
  unfold State.raise State.loseDestination
  dsimp only
  split
  · exact ⟨h.lanes, h.coder, k.obscure _ _ _ h.mem, h.wp, h.rp, ⟨_, _, _, _, _, rfl⟩⟩
  · exact ⟨h.lanes, h.coder, h.mem, h.wp, h.rp, ⟨_, _, _, _, _, rfl⟩⟩

theorem State.Twin.wp_eq (ho : s.op = .enc) : u.wp = s.wp :=
  h.wp.resolve_right fun hd => by rw [ho] at hd; cases hd.2

theorem State.Twin.rp_eq (ho : s.op = .dec) : u.rp = s.rp :=
  h.rp.resolve_right fun he => by rw [ho] at he; cases he.2

/-- R122: pixels that agree leave caches that agree. -/
theorem State.Twin.update {p q : Pixel} (hpq : eqC k.lanes p q = true) (i : Fin 64) :
    eqC k.lanes (slot (Machine.update s.lc s.cache p) i) (slot (Machine.update s.lc u.cache q) i) = true := by
  rw [slot_update, slot_update, indexOf_congr (eqC_of_lanes h.lanes hpq)]
  split
  · exact hpq
  · exact h.coder.cache i

end

/-! ### Writes -/

theorem storeBytes_lockstep (k : Slack) {p : Platform} {m n : Memory} (hm : k.mem m n) (a : Nat) (bs : List Byte) :
    Lockstep k.mem (storeBytes p m a bs) (storeBytes p n a bs) := by
  induction bs generalizing m n a with
  | nil => exact .ok hm
  | cons b bs ih =>
    refine Lockstep.bind_same _ fun _ hok => ?_
    obtain ⟨ha, _⟩ := access_eq_ok.mp hok
    exact ih (k.write b hm ha) (a + 1)

section
variable {k : Slack} {s u : State} (h : s.Twin k u)
include h

/-- R196: both emit the same bytes at the same place, and then update. -/
theorem State.Twin.emit_bind (ho : s.op = .enc) {bs : List Byte} {f g : State → State}
    (hfinish : ∀ m n, k.mem m n →
      State.Twin k (f { s with mem := m, wp := s.wp + bs.length }) (g { u with mem := n, wp := s.wp + bs.length })) :
    Lockstep (State.Twin k) (emit s bs >>= fun t => pure (f t)) (emit u bs >>= fun t => pure (g t)) := by
  have hwp := h.wp_eq ho
  obtain ⟨_, _, _, _, _, rfl⟩ := h.rest
  simp only at hwp
  subst hwp
  simp only [emit, bind_assoc]
  refine Lockstep.bind_same _ fun _ _ => (storeBytes_lockstep k h.mem _ bs).bind fun m n _ hmn => ?_
  exact .ok (hfinish m n hmn)

/-- R212: both write the bytes of pixels that agree. -/
theorem State.Twin.putPixel {p q : Pixel} (hpq : eqC k.lanes p q = true) :
    Lockstep (State.Twin k) (putPixel s p) (putPixel u q) := by
  have hbytes := pixelBytes_of_eqC (eqC_of_lanes h.lanes hpq)
  have hcache := h.update hpq
  obtain ⟨_, _, _, _, _, hu⟩ := h.rest
  subst hu
  simp only [Machine.putPixel, hbytes]
  refine (storeBytes_lockstep k h.mem _ _).bind fun m n _ hmn => ?_
  exact .ok (h.progress hmn ⟨hpq, hcache⟩ h.wp h.rp _ _)

theorem State.Twin.putPixels {p q : Pixel} (hpq : eqC k.lanes p q = true) (n : Nat) :
    Lockstep (State.Twin k) (putPixels p n s) (putPixels q n u) := by
  induction n generalizing s u with
  | zero => exact .ok h
  | succ n ih => exact (h.putPixel hpq).bind fun _ _ _ htwin => ih htwin

/-- R211, R212: a chunk's pixels and its length. -/
theorem State.Twin.chunkStep (ho : s.op = .dec) {p q : Pixel} (hpq : eqC k.lanes p q = true) (n len : Nat) :
    Lockstep (State.Twin k) (chunkStep s p n len) (chunkStep u q n len) := by
  have hrp := h.rp_eq ho
  have hcheck : u.pix = s.pix ∧ u.npix = s.npix := by
    obtain ⟨_, _, _, _, _, rfl⟩ := h.rest
    exact ⟨rfl, rfl⟩
  rw [Machine.chunkStep, Machine.chunkStep, hcheck.1, hcheck.2, hrp]
  exact Lockstep.bind_same _ fun _ _ => (h.putPixels hpq n).bind fun _ _ _ ht => .ok (ht.withRp _)

/-! ### The encoder's steps -/

section
variable (ho : s.op = .enc)
include ho

theorem State.Twin.encHeader : Lockstep (State.Twin k) (encHeader s) (encHeader u) := by
  obtain ⟨_, _, _, _, _, rfl⟩ := h.rest
  exact h.emit_bind ho fun m n hmn => h.progress hmn h.coder (.inl rfl) h.rp s.pix .body

theorem State.Twin.encRun {p : Pixel}
    (hscan : runScan u p (Config.runMax - 1) 1 = runScan s p (Config.runMax - 1) 1) :
    Lockstep (State.Twin k) (encRun s p) (encRun u p) := by
  have hcoder : Coder.Agree k.lanes ⟨s.prev, Machine.update s.lc s.cache p⟩ ⟨u.prev, Machine.update s.lc u.cache p⟩ :=
    ⟨h.coder.prev, h.update (eqC_self _ p)⟩
  rw [Machine.encRun, Machine.encRun, hscan]
  obtain ⟨_, _, _, _, _, rfl⟩ := h.rest
  exact Lockstep.bind_same _ fun r _ => h.emit_bind ho fun m n hmn =>
    h.progress hmn hcoder (.inl rfl) h.rp (s.pix + r) s.phase

theorem State.Twin.encPixel (p : Pixel) : Lockstep (State.Twin k) (encPixel s p) (encPixel u p) := by
  have hchunk : selectChunk s.lc s.prev s.cache p = selectChunk s.lc u.prev u.cache p :=
    selectChunk_congr (eqC_of_lanes h.lanes h.coder.prev) (eqC_of_lanes h.lanes (h.coder.cache _))
  rw [Machine.encPixel, Machine.encPixel, hchunk]
  obtain ⟨_, _, _, _, _, rfl⟩ := h.rest
  exact h.emit_bind ho fun m n hmn =>
    h.progress hmn ⟨eqC_self _ p, h.update (eqC_self _ p)⟩ (.inl rfl) h.rp (s.pix + 1) s.phase

/-- R191, R243: a pixel that the body step may look at is read alike. -/
theorem State.Twin.loadPixel (hread : s.SameReads u) (hp : s.phase = .body) {i : Nat}
    (hi : i < s.npix ∨ (i = s.pix ∧ s.pix ≠ s.npix)) : loadPixel u i = loadPixel s i := by
  have hbyte (j : Nat) (hj : j < 3 ∨ (j = 3 ∧ s.lc = 4)) : u.mem.read (s.srcPixel i + j) = s.mem.read (s.srcPixel i + j) := by
    refine hread _ fun hinv => ?_
    have henc := hinv.encoding (.inr (.inl hp)) ho
    have hlt : i < s.npix := by
      have hpix := henc.pixels
      omega
    have hlen := henc.source
    have hmul : (i + 1) * s.lc.toNat ≤ s.npix * s.lc.toNat := Nat.mul_le_mul_right _ hlt
    have hj4 : j < s.lc.toNat := by
      rcases hj with hj | ⟨rfl, h4⟩
      · rcases henc.legal.channels with hc | hc <;> rw [hc]
        · exact hj
        · exact hj.trans (by decide)
      · rw [h4]
        decide
    rw [Nat.succ_mul] at hmul
    rw [State.inSource, State.srcPixel, Bool.and_eq_true, decide_eq_true_iff, decide_eq_true_iff]
    omega
  obtain ⟨hplat, hbase, hlc⟩ : u.platform = s.platform ∧ u.srcBase = s.srcBase ∧ u.lc = s.lc := by
    obtain ⟨_, _, _, _, _, rfl⟩ := h.rest
    exact ⟨rfl, rfl, rfl⟩
  exact loadPixel_congr hplat hbase hlc hbyte

theorem State.Twin.encBody (hread : s.SameReads u) (hp : s.phase = .body) :
    Lockstep (State.Twin k) (encBody s) (encBody u) := by
  have hload {i : Nat} (hi : i < s.npix ∨ (i = s.pix ∧ s.pix ≠ s.npix)) := h.loadPixel ho hread hp hi
  have hfields : u.pix = s.pix ∧ u.npix = s.npix ∧ u.lc = s.lc := by
    obtain ⟨_, _, _, _, _, rfl⟩ := h.rest
    exact ⟨rfl, rfl, rfl⟩
  obtain ⟨hpix, hnpix, hlc⟩ := hfields
  rw [Machine.encBody, Machine.encBody]
  by_cases hend : s.pix = s.npix
  · rw [if_pos hend, if_pos (by rw [hpix, hnpix, hend])]
    exact .ok (h.withPhase .tail)
  · rw [if_neg hend, if_neg (by rwa [hpix, hnpix]), hpix, hlc, hload (.inr ⟨rfl, hend⟩)]
    refine Lockstep.bind_same _ fun p _ => ?_
    rw [← eqC_congr_right (eqC_of_lanes h.lanes h.coder.prev)]
    split
    · exact h.encRun ho (runScan_congr hpix hnpix hlc (fun i hi => hload (.inl hi)) p _ _)
    · exact h.encPixel ho p

theorem State.Twin.encTail : Lockstep (State.Twin k) (encTail s) (encTail u) := by
  obtain ⟨_, _, _, _, _, rfl⟩ := h.rest
  refine h.emit_bind (g := fun t => ({ t with outLen := BitVec.ofNat 32 t.wp } : State).complete) ho fun m n hmn => ?_
  exact ((h.progress hmn h.coder (.inl rfl) h.rp s.pix s.phase).withOutLen _).complete

end
end

end Sys2Proof.Machine
end

section
/-! Two decoder steps side by side, then two engine steps. -/

namespace Sys2Proof.Machine

/-! ### The decoder's fetches -/

theorem require_bind_congr {α : Type} {b : Bool} {c : ErrCode} {f g : Unit → Except Stop α} (h : b = true → f () = g ()) :
    (require b c >>= f) = (require b c >>= g) := by
  cases b with
  | false => rfl
  | true => exact h rfl

theorem State.SameReads.source {s u : State} (h : s.SameReads u) {a : Nat} (hlo : s.srcBase.toNat ≤ a)
    (hhi : a < s.srcBase.toNat + s.srcLen.toNat) : u.mem.read a = s.mem.read a :=
  h a fun _ => by rw [State.inSource, decide_eq_true hlo, decide_eq_true hhi, Bool.and_self]

section
variable {s u : State} (hp : u.platform = s.platform) (hb : u.srcBase = s.srcBase) (hl : u.srcLen = s.srcLen)
  (hread : s.SameReads u)
include hp hb hl hread

theorem fetchHeader_congr : fetchHeader u = fetchHeader s := by
  rw [fetchHeader, fetchHeader, hb, hl]
  refine require_bind_congr fun hlen => ?_
  have hlong := of_decide_eq_true hlen
  rw [loadBytes_congr hp fun i hi => hread.source (by omega) (by omega)]

theorem fetchMarker_congr (hrp : u.rp = s.rp) : fetchMarker u = fetchMarker s := by
  rw [fetchMarker, fetchMarker, hb, hl, hrp]
  refine require_bind_congr fun hlen => ?_
  have hlong := of_decide_eq_true hlen
  rw [loadBytes_congr hp fun i hi => hread.source (by omega) (by omega)]

theorem fetchChunk_congr (hrp : u.rp = s.rp) : fetchChunk u = fetchChunk s := by
  rw [fetchChunk, fetchChunk, hb, hl, hrp]
  refine require_bind_congr fun htag => ?_
  have hleft := of_decide_eq_true htag
  rw [loadByte_congr hp (hread.source (by omega) (by omega))]
  refine bind_congr fun t => require_bind_congr fun hlen => ?_
  have hfits := of_decide_eq_true hlen
  rw [loadBytes_congr hp fun i hi => hread.source (by omega) (by omega)]

end

/-! ### The decoder's steps -/

theorem runFetched_lockstep {R : State → State → Prop} {s u : State} (hraise : ∀ c, R (s.raise c) (u.raise c))
    {x : Except Stop Instr} (hexec : ∀ i, x = .ok i → OutcomeLockstep R (exec i s) (exec i u)) :
    OutcomeLockstep R (runFetched s x) (runFetched u x) := by
  cases x with
  | ok i => exact hexec i rfl
  | error e =>
    cases e with
    | raise c => exact .next (hraise c)
    | fault f => exact .fault f

section
variable {k : Slack} {s u : State} (h : s.Twin k u)
include h

theorem State.Twin.beginDecode (hk : k.lanes = 4) (w ht : Word) (c cs : Byte) :
    State.Twin k (s.beginDecode w ht c cs) (u.beginDecode w ht c cs) := by
  obtain ⟨_, _, _, _, _, rfl⟩ := h.rest
  exact ⟨.inl hk, .refl _ _, h.mem, h.wp, .inl rfl, ⟨_, _, _, _, _, rfl⟩⟩

/-- R141, R142, R210. -/
theorem State.Twin.execHdr (hk : k.lanes = 4) (w ht : Word) (c cs : Byte) :
    OutcomeLockstep (State.Twin k) (exec (.hdr w ht c cs) s) (exec (.hdr w ht c cs) u) := by
  have hcap : u.dstCap = s.dstCap := by
    obtain ⟨_, _, _, _, _, rfl⟩ := h.rest
    rfl
  rw [exec_hdr_eq, exec_hdr_eq, hcap]
  refine .next ?_
  split_ifs
  case' neg => exact h.beginDecode hk w ht c cs
  all_goals exact h.raise _

variable (ho : s.op = .dec)
include ho

theorem State.Twin.execChunk {i : Instr} (hi : i.place = .chunk) :
    OutcomeLockstep (State.Twin k) (exec i s) (exec i u) := by
  obtain ⟨hpixel, hcount⟩ := h.coder.chunkEffect i
  rw [exec_chunk hi, exec_chunk hi, hcount]
  exact (h.chunkStep ho hpixel _ _).settle h.raise

theorem State.Twin.execEndMarker : OutcomeLockstep (State.Twin k) (exec .endMarker s) (exec .endMarker u) := by
  rw [exec, exec, Machine.execEndMarker, Machine.execEndMarker, h.rp_eq ho]
  exact .next (h.withRp _).reportImage.complete

end

/-! ### One engine step -/

/-- An engine step past CHECK keeps twins twins, or stops both alike. A header's bytes set LC, so with a slack in the alpha
lanes it is not among these steps. -/
theorem State.Twin.engineStep {k : Slack} {s u : State} (h : s.Twin k u) (hread : s.SameReads u) (hp : s.phase.working)
    (hheader : s.phase = .header → k.lanes = 4) :
    OutcomeLockstep (State.Twin k) (engineStep s) (engineStep u) := by
  obtain ⟨hphase, hop, hplat, hbase, hlen, hpix, hnpix⟩ : u.phase = s.phase ∧ u.op = s.op ∧ u.platform = s.platform ∧
      u.srcBase = s.srcBase ∧ u.srcLen = s.srcLen ∧ u.pix = s.pix ∧ u.npix = s.npix := by
    obtain ⟨_, _, _, _, _, rfl⟩ := h.rest
    exact ⟨rfl, rfl, rfl, rfl, rfl, rfl, rfl⟩
  rcases s.op_cases with ho | ho
  · have ho' := hop.trans ho
    rcases hp with hp | hp | hp <;> have hp' := hphase.trans hp
    · rw [engineStep_encHeader hp ho, engineStep_encHeader hp' ho']
      exact (h.encHeader ho).settle h.raise
    · rw [engineStep_encBody hp ho, engineStep_encBody hp' ho']
      exact (h.encBody ho hread hp).settle h.raise
    · rw [engineStep_encTail hp ho, engineStep_encTail hp' ho']
      exact (h.encTail ho).settle h.raise
  · have ho' := hop.trans ho
    have hrp := h.rp_eq ho
    rcases hp with hp | hp | hp <;> have hp' := hphase.trans hp
    · rw [engineStep_decHeader hp ho, engineStep_decHeader hp' ho', fetchHeader_congr hplat hbase hlen hread]
      refine runFetched_lockstep h.raise fun i hi => ?_
      obtain ⟨_, _, w, ht, c, cs, rfl, _⟩ := fetchHeader_eq_ok.mp hi
      exact h.execHdr (hheader hp) w ht c cs
    · rw [engineStep_decBody hp ho, engineStep_decBody hp' ho', fetchChunk_congr hplat hbase hlen hread hrp]
      by_cases hend : s.pix = s.npix
      · rw [if_pos hend, if_pos (by rw [hpix, hnpix, hend])]
        exact .next (h.withPhase .tail)
      · rw [if_neg hend, if_neg (by rwa [hpix, hnpix])]
        refine runFetched_lockstep h.raise fun i hi => ?_
        obtain ⟨_, _, hplace, _⟩ := fetchChunk_eq_ok.mp hi
        exact h.execChunk ho hplace
    · rw [engineStep_decTail hp ho, engineStep_decTail hp' ho', fetchMarker_congr hplat hbase hlen hread hrp]
      refine runFetched_lockstep h.raise fun i hi => ?_
      obtain ⟨_, _, rfl, _⟩ := fetchMarker_eq_ok.mp hi
      exact h.execEndMarker ho

/-- The working registers (R21 to R28), PHASE apart. -/
structure Work where
  prev : Pixel
  cache : Cache
  lw : Word
  lh : Word
  lc : Byte
  lcs : Byte
  pix : Nat
  rp : Nat
  wp : Nat
  op : Op

/-- A state's working registers. -/
def State.work (s : State) : Work := ⟨s.prev, s.cache, s.lw, s.lh, s.lc, s.lcs, s.pix, s.rp, s.wp, s.op⟩

/-- A state with other working registers. -/
def State.setWork (s : State) (w : Work) : State :=
  { s with prev := w.prev, cache := w.cache, lw := w.lw, lh := w.lh, lc := w.lc, lcs := w.lcs, pix := w.pix, rp := w.rp,
           wp := w.wp, op := w.op }

/-- R242 to R244: the CHECK step looks at the host's registers alone. -/
theorem checkStep_lockstep {R : State → State → Prop} {s : State} (w : Work) (m : Memory)
    (hraise : ∀ c, R (s.raise c) (({ s.setWork w with mem := m } : State).raise c))
    (hencode : R s.beginEncode ({ s.setWork w with mem := m } : State).beginEncode)
    (hdecode : R { s with op := .dec, phase := .header } { s.setWork w with mem := m, op := .dec, phase := .header }) :
    OutcomeLockstep R (checkStep s) (checkStep { s.setWork w with mem := m }) := by
  have hregions : ({ s.setWork w with mem := m } : State).regionsOk = s.regionsOk := rfl
  have hvalid : ({ s.setWork w with mem := m } : State).validateEncode = s.validateEncode := rfl
  refine Lockstep.settle ?_ hraise
  rw [hregions, hvalid]
  change Lockstep R _ (if s.ctrl.cmd = 0 then _ else if s.ctrl.cmd = 1 then _ else _)
  split_ifs
  · exact Lockstep.bind_same _ fun _ _ => Lockstep.bind_same _ fun _ _ => .ok hencode
  · exact Lockstep.bind_same _ fun _ _ => .ok hdecode
  · exact .error _

/-! ### Alpha lanes (R29) -/

/-- With three channels two states may differ in alpha lanes alone. -/
def Slack.alphaLanes : Slack := ⟨3, Eq, False, fun v h _ => by rw [h], fun lo hi d h => by rw [h]⟩

theorem State.Twin.of_alphaLanes {s : State} (hc : s.lc = 3) (a : Byte) {k : Cache}
    (hk : ∀ i, ∃ x, slot k i = { slot s.cache i with a := x }) :
    State.Twin .alphaLanes s { s with prev := { s.prev with a := a }, cache := k } :=
  ⟨.inr ⟨rfl, hc⟩, ⟨eqC_three_iff.mpr ⟨a, rfl⟩, fun i => eqC_three_iff.mpr (hk i)⟩, rfl, .inl rfl, .inl rfl,
    ⟨_, _, _, _, _, rfl⟩⟩

theorem State.Twin.alphaLanes_only {s u : State} (h : State.Twin .alphaLanes s u) :
    u = { s with prev := u.prev, cache := u.cache } ∧ (∃ x, u.prev = { s.prev with a := x }) ∧
      ∀ i, ∃ x, slot u.cache i = { slot s.cache i with a := x } := by
  have hmem : s.mem = u.mem := h.mem
  have hwp : u.wp = s.wp := h.wp.resolve_right fun hs => hs.1
  have hrp : u.rp = s.rp := h.rp.resolve_right fun hs => hs.1
  refine ⟨?_, eqC_three_iff.mp h.coder.prev, fun i => eqC_three_iff.mp (h.coder.cache i)⟩
  obtain ⟨_, _, _, _, _, rfl⟩ := h.rest
  simp only at hmem hwp hrp
  rw [← hmem, hwp, hrp]

end Sys2Proof.Machine

open Sys2Proof Sys2Proof.Machine

/-- Settles O55: the two states are twins with three lanes that count, and an engine step keeps twins twins. -/
theorem alphaLaneNeverShows : Obligations.AlphaLaneNeverShows := by
  unfold Obligations.AlphaLaneNeverShows
  intro s t a k hc hp hk hstep
  have hheader : s.phase ≠ .header := by rcases hp with hp | hp <;> rw [hp] <;> decide
  have hlock := (State.Twin.of_alphaLanes hc a hk).engineStep (.of_eq rfl) (.inr hp) fun hh => absurd hh hheader
  rw [hstep] at hlock
  obtain ⟨u, hu, htwin⟩ := hlock.next_iff
  exact ⟨u, hu, htwin.alphaLanes_only⟩
end

section
/-! The engine's steps with memory exchanged (R60, R70): a step carries an agreement of two memories along at every address
where they agree. -/

namespace Sys2Proof.Machine

/-! ### Memories that agree -/

/-- Two canonical memories that agree at the addresses of `P`. -/
structure Memory.AgreeOn (P : Nat → Prop) (m n : Memory) : Prop where
  left : m.wf
  right : n.wf
  read : ∀ a, P a → n.read a = m.read a

/-- A range ends with system memory. -/
theorem Memory.obscure_min (m : Memory) (lo hi d : Nat) :
    m.obscure lo (min hi Config.addressEnd) d = m.obscure lo hi d := by
  rw [Memory.obscure, Memory.obscure, Nat.min_assoc, Nat.min_self]

section
variable {P : Nat → Prop} {m n : Memory} (h : m.AgreeOn P n)
include h

theorem Memory.AgreeOn.write {a : Nat} (v : Byte) (ha : a < Config.addressEnd) :
    Memory.AgreeOn P (m.write a v) (n.write a v) := by
  refine ⟨Memory.wf_write h.left ha v, Memory.wf_write h.right ha v, fun b hb => ?_⟩
  by_cases hab : b = a
  · rw [hab, Memory.read_write_same h.left, Memory.read_write_same h.right]
  · rw [Memory.read_write_other _ hab, Memory.read_write_other _ hab, h.read b hb]

theorem Memory.AgreeOn.obscure (lo hi d : Nat) : Memory.AgreeOn P (m.obscure lo hi d) (n.obscure lo hi d) := by
  refine ⟨Memory.wf_obscure h.left lo hi d, Memory.wf_obscure h.right lo hi d, fun a ha => ?_⟩
  rw [← m.obscure_min, ← n.obscure_min]
  by_cases hin : lo ≤ a ∧ a < min hi Config.addressEnd
  · have hend : a < Config.addressEnd := hin.2.trans_le (Nat.min_le_right _ _)
    rw [Memory.read_obscure_inside _ hin.1 hin.2 hend, Memory.read_obscure_inside _ hin.1 hin.2 hend]
  · have hout : a < lo ∨ min hi Config.addressEnd ≤ a := by omega
    rw [Memory.read_obscure_outside _ hout, Memory.read_obscure_outside _ hout, h.read a ha]

end

/-! ### States with memory exchanged -/

/-- Two states may differ in memory alone, outside the addresses of `P`. -/
def Slack.exchange (P : Nat → Prop) : Slack :=
  ⟨4, Memory.AgreeOn P, False, fun v h ha => h.write v ha, fun lo hi d h => h.obscure lo hi d⟩

theorem Coder.Agree.eq_of_four {k k' : Coder} (h : k.Agree 4 k') : k' = k := by
  have hcache : k'.cache = k.cache := Vector.ext fun i hi => (eqC_four_iff.mp (h.cache ⟨i, hi⟩)).symm
  have hprev : k'.prev = k.prev := (eqC_four_iff.mp h.prev).symm
  cases k
  cases k'
  rw [Coder.mk.injEq]
  exact ⟨hprev, hcache⟩

theorem State.twin_exchange_iff {P : Nat → Prop} {s u : State} :
    State.Twin (.exchange P) s u ↔ ∃ m, u = { s with mem := m } ∧ s.mem.AgreeOn P m := by
  constructor
  · intro h
    have hcoder : (⟨u.prev, u.cache⟩ : Coder) = ⟨s.prev, s.cache⟩ := h.coder.eq_of_four
    have hwp : u.wp = s.wp := h.wp.resolve_right fun hs => hs.1
    have hrp : u.rp = s.rp := h.rp.resolve_right fun hs => hs.1
    refine ⟨u.mem, ?_, h.mem⟩
    obtain ⟨_, _, _, _, _, rfl⟩ := h.rest
    simp only [Coder.mk.injEq] at hcoder hwp hrp
    rw [hcoder.1, hcoder.2, hwp, hrp]
  · rintro ⟨m, rfl, hm⟩
    exact ⟨.inl rfl, .refl _ _, hm, .inl rfl, .inl rfl, ⟨_, _, _, _, _, rfl⟩⟩

section
variable {P : Nat → Prop} {s : State} (hinv : s.Inv) (hsource : ∀ a, s.inSource a = true → P a)
include hinv hsource

/-- R46, R60: what an engine step answers differs in memory alone, and where the two memories agreed they agree after. -/
theorem State.Twin.engineStep_exchange {u : State} (h : State.Twin (.exchange P) s u) :
    OutcomeLockstep (State.Twin (.exchange P)) (Machine.engineStep s) (Machine.engineStep u) := by
  obtain ⟨m, hu, hm⟩ := State.twin_exchange_iff.mp h
  have hphase : u.phase = s.phase := by rw [hu]
  cases hp : s.phase with
  | idle =>
    rw [engineStep_idle hp, engineStep_idle (hphase.trans hp)]
    exact .next h
  | check =>
    rw [engineStep_check hp, engineStep_check (hphase.trans hp)]
    subst hu
    exact checkStep_lockstep s.work m h.raise (State.twin_exchange_iff.mpr ⟨m, rfl, hm⟩)
      (State.twin_exchange_iff.mpr ⟨m, rfl, hm⟩)
  | header | body | tail =>
    refine h.engineStep (fun a ha => ?_) (by simp [Phase.working, hp]) fun _ => rfl
    rw [hu]
    exact hm.read a (hsource a (ha hinv))

variable {m : Memory} (hm : s.mem.AgreeOn P m)
include hm

theorem engineStep_exchange_next {t : State} (ht : engineStep s = .next t) :
    ∃ m', engineStep { s with mem := m } = .next { t with mem := m' } ∧ t.mem.AgreeOn P m' := by
  have hlock := (State.twin_exchange_iff.mpr ⟨m, rfl, hm⟩).engineStep_exchange hinv hsource
  rw [ht] at hlock
  obtain ⟨_, hu, htwin⟩ := hlock.next_iff
  obtain ⟨m', rfl, hm'⟩ := State.twin_exchange_iff.mp htwin
  exact ⟨m', hu, hm'⟩

/-- The same for any number of steps while the host does nothing. -/
theorem run_exchange_next {k : Nat} {t : State} (hhost : s.host = []) (ht : core.run k s = .next t) :
    ∃ m', core.run k { s with mem := m } = .next { t with mem := m' } ∧ t.mem.AgreeOn P m' := by
  induction k generalizing s m with
  | zero =>
    cases ht
    exact ⟨m, rfl, hm⟩
  | succ k ih =>
    obtain ⟨u, hu, ht⟩ := run_succ_next ht
    rw [step_of_no_host hhost] at hu
    obtain ⟨m', hu', hm'⟩ := engineStep_exchange_next hinv hsource hm hu
    have hn := hinv.engineNext hu
    obtain ⟨hhost', _, _, _, hbase, hlen, _, _⟩ := hn.keeps
    obtain ⟨n, hrun, hn'⟩ := ih (hn.inv hinv) (fun a ha => hsource a (by rwa [State.inSource, ← hbase, ← hlen])) hm'
      (hhost'.trans hhost) ht
    refine ⟨n, ?_, hn'⟩
    rw [run_of_next ((step_of_no_host (s := { s with mem := m }) hhost).trans hu'), hrun]

end

end Sys2Proof.Machine

open Sys2Proof Sys2Proof.Machine

/-- Settles O53: the addresses at which the two memories agree include the source, and keep agreeing at every step. -/
theorem engineReadsOnlySource : Obligations.EngineReadsOnlySource := by
  unfold Obligations.EngineReadsOnlySource
  intro s m hinv hm hsource
  have hagree : s.mem.AgreeOn (fun a => m.read a = s.mem.read a) m := ⟨hinv.memory, hm, fun _ ha => ha⟩
  refine ⟨fun t ht => ?_, fun k t hhost ht => ?_⟩
  · obtain ⟨m', hstep, hm'⟩ := engineStep_exchange_next hinv hsource hagree ht
    exact ⟨m', hstep, hm'.right, hm'.read⟩
  · obtain ⟨m', hrun, hm'⟩ := run_exchange_next hinv hsource hagree hhost ht
    exact ⟨m', hrun, hm'.right, hm'.read⟩
end

section
/-! No old value of a working register shows (R46): two states that differ in working registers that the operation will
write before it reads them, if it reads them at all, stay so whatever the host does. -/

namespace Sys2Proof.Machine

/-! ### Runs in lockstep -/

theorem OutcomeLockstep.mono {R Q : State → State → Prop} {x y : Outcome} (h : OutcomeLockstep R x y)
    (hq : ∀ s u, R s u → Q s u) : OutcomeLockstep Q x y := by
  cases h with
  | next h => exact .next (hq _ _ h)
  | fault f => exact .fault f
  | refused r => exact .refused r

theorem run_of_fault {k : Nat} {s : State} {f : Fault} (h : step s = .fault f) : core.run (k + 1) s = .fault f := by
  have e := Host.Core.run.eq_2 core s k
  have h' : core.step s = .fault f := h
  rw [h'] at e
  exact e

theorem run_of_refused {k : Nat} {s : State} {r : Refusal} (h : step s = .refused r) :
    core.run (k + 1) s = .refused r := by
  have e := Host.Core.run.eq_2 core s k
  have h' : core.step s = .refused r := h
  rw [h'] at e
  exact e

/-- Steps in lockstep make runs in lockstep. -/
theorem run_lockstep {R : State → State → Prop} (hstep : ∀ s u, R s u → OutcomeLockstep R (step s) (step u)) (k : Nat)
    {s u : State} (h : R s u) : OutcomeLockstep R (core.run k s) (core.run k u) := by
  induction k generalizing s u with
  | zero => exact .next h
  | succ k ih =>
    have hlock := hstep s u h
    generalize hs : step s = x at hlock
    generalize hu : step u = y at hlock
    cases hlock with
    | next h =>
      rw [run_of_next hs, run_of_next hu]
      exact ih h
    | fault f =>
      rw [run_of_fault hs, run_of_fault hu]
      exact .fault f
    | refused r =>
      rw [run_of_refused hs, run_of_refused hu]
      exact .refused r

/-! ### Working registers that do not show -/

/-- `w` is `v` but for the counter that the operation does not use: RP in an encode, WP in a decode. -/
def Work.SpareDiffers (v w : Work) : Prop :=
  ∃ rp wp, w = { v with rp := rp, wp := wp } ∧ (wp = v.wp ∨ v.op = .dec) ∧ (rp = v.rp ∨ v.op = .enc)

/-- Working registers `v` and `w` that tell no difference from phase `p` on: any before CHECK has passed, any of a decode
before its header, and else all but the spare counter. -/
def Work.Alike (v : Work) (p : Phase) (w : Work) : Prop :=
  p.working → (p = .header ∧ v.op = .dec ∧ w.op = .dec) ∨ v.SpareDiffers w

theorem Phase.idle_check_or_working (p : Phase) : p = .idle ∨ p = .check ∨ p.working := by
  cases p with
  | idle => exact .inl rfl
  | check => exact .inr (.inl rfl)
  | header => exact .inr (.inr (.inl rfl))
  | body => exact .inr (.inr (.inr (.inl rfl)))
  | tail => exact .inr (.inr (.inr (.inr rfl)))

theorem Work.alike_of_idle {p : Phase} (h : p = .idle) (v w : Work) : v.Alike p w := fun hp => by
  simp [Phase.working, h] at hp

theorem Work.alike_of_check {p : Phase} (h : p = .check) (v w : Work) : v.Alike p w := fun hp => by
  simp [Phase.working, h] at hp

theorem Work.alike_of_spareDiffers {v w : Work} (h : v.SpareDiffers w) (p : Phase) : v.Alike p w := fun _ => .inr h

/-- Two states that differ in working registers alone, and in those that tell no difference. -/
def State.Alike (s u : State) : Prop := ∃ w, u = s.setWork w ∧ s.work.Alike s.phase w

/-- Two states may differ in the spare counter alone. -/
def Slack.spareCounter : Slack := ⟨4, Eq, True, fun v h _ => by rw [h], fun lo hi d h => by rw [h]⟩

theorem State.twin_spareCounter_iff {s u : State} :
    State.Twin .spareCounter s u ↔ ∃ w, u = s.setWork w ∧ s.work.SpareDiffers w := by
  constructor
  · intro h
    have hcoder : (⟨u.prev, u.cache⟩ : Coder) = ⟨s.prev, s.cache⟩ := h.coder.eq_of_four
    have hmem : s.mem = u.mem := h.mem
    have hwp := h.wp.imp_right And.right
    have hrp := h.rp.imp_right And.right
    refine ⟨u.work, ?_, u.rp, u.wp, ?_, hwp, hrp⟩ <;> obtain ⟨_, _, _, _, _, rfl⟩ := h.rest
    · simp only at hmem
      rw [← hmem]
      rfl
    · simp only [Coder.mk.injEq] at hcoder
      rw [State.work, State.work, hcoder.1, hcoder.2]
  · rintro ⟨_, rfl, rp, wp, rfl, hwp, hrp⟩
    exact ⟨.inl rfl, .refl _ _, rfl, hwp.imp_right fun ho => ⟨trivial, ho⟩, hrp.imp_right fun ho => ⟨trivial, ho⟩,
      ⟨_, _, _, _, _, rfl⟩⟩

theorem State.Twin.alike {s u : State} (h : State.Twin .spareCounter s u) : s.Alike u := by
  obtain ⟨w, hu, hw⟩ := State.twin_spareCounter_iff.mp h
  exact ⟨w, hu, Work.alike_of_spareDiffers hw _⟩

/-! ### The engine's step -/

theorem State.loseDestination_setWork (s : State) (w : Work) :
    (s.setWork w).loseDestination = s.loseDestination.setWork w := by
  rw [State.loseDestination, State.loseDestination, State.setWork, State.setWork]
  dsimp only
  split <;> rfl

theorem State.raise_setWork (s : State) (w : Work) (c : ErrCode) : (s.setWork w).raise c = (s.raise c).setWork w := by
  rw [State.raise, State.loseDestination_setWork]
  rfl

/-- R246: no register of the window is a working register. -/
@[simp] theorem State.readReg_setWork (s : State) (w : Work) (r : Reg) : (s.setWork w).readReg r = s.readReg r := by
  cases r <;> rfl

/-- R261: an operation that has ended shows no working register. -/
theorem State.alike_raise (s : State) (w : Work) (c : ErrCode) : (s.raise c).Alike ((s.setWork w).raise c) :=
  ⟨w, s.raise_setWork w c, Work.alike_of_idle (State.raise_phase s c) _ _⟩

/-- R190: the encoder's initialisation leaves RP, which an encode does not use. -/
theorem State.alike_beginEncode (s : State) (w : Work) : s.beginEncode.Alike (s.setWork w).beginEncode :=
  ⟨{ s.beginEncode.work with rp := w.rp }, rfl, Work.alike_of_spareDiffers ⟨w.rp, _, rfl, .inl rfl, .inr rfl⟩ _⟩

/-- R210: the decoder's initialisation leaves WP, which a decode does not use. -/
theorem State.alike_beginDecode {s : State} (ho : s.op = .dec) {w : Work} (hw : w.op = .dec) (lw lh : Word) (c cs : Byte) :
    (s.beginDecode lw lh c cs).Alike ((s.setWork w).beginDecode lw lh c cs) := by
  obtain ⟨_, _, _, _, _, _, _, _, wp, _⟩ := w
  subst hw
  refine ⟨{ (s.beginDecode lw lh c cs).work with wp := wp }, ?_, Work.alike_of_spareDiffers ⟨_, wp, rfl, .inr ho, .inl rfl⟩ _⟩
  rw [State.setWork, State.setWork, State.work, State.beginDecode, State.beginDecode, ← ho]

/-- R141, R142, R210: a decode's HEADER step reads none of the working registers but OP. -/
theorem State.alike_decHeader {s : State} (hp : s.phase = .header) (ho : s.op = .dec) {w : Work} (hw : w.op = .dec) :
    OutcomeLockstep State.Alike (engineStep s) (engineStep (s.setWork w)) := by
  rw [engineStep_decHeader hp ho, engineStep_decHeader (s := s.setWork w) hp hw,
    fetchHeader_congr (u := s.setWork w) rfl rfl rfl (.of_eq rfl)]
  refine runFetched_lockstep (s.alike_raise w) fun i hi => ?_
  obtain ⟨_, _, lw, lh, c, cs, rfl, _⟩ := fetchHeader_eq_ok.mp hi
  have hcap : (s.setWork w).dstCap = s.dstCap := rfl
  rw [exec_hdr_eq, exec_hdr_eq, hcap]
  refine .next ?_
  split_ifs
  case' neg => exact State.alike_beginDecode ho hw lw lh c cs
  all_goals exact s.alike_raise w _

/-- The engine's step keeps working registers that tell no difference such. -/
theorem State.Alike.engineStep {s u : State} (h : s.Alike u) :
    OutcomeLockstep State.Alike (Machine.engineStep s) (Machine.engineStep u) := by
  obtain ⟨w, rfl, hw⟩ := h
  rcases s.phase.idle_check_or_working with hp | hp | hp
  · rw [engineStep_idle hp, engineStep_idle (s := s.setWork w) hp]
    exact .next ⟨w, rfl, hw⟩
  · rw [engineStep_check hp, engineStep_check (s := s.setWork w) hp]
    exact checkStep_lockstep w s.mem (s.alike_raise w) (s.alike_beginEncode w)
      ⟨{ w with op := .dec }, rfl, fun _ => .inl ⟨rfl, rfl, rfl⟩⟩
  · rcases hw hp with ⟨hp, ho, ho'⟩ | hspare
    · exact State.alike_decHeader hp ho ho'
    · have htwin : State.Twin .spareCounter s (s.setWork w) := State.twin_spareCounter_iff.mpr ⟨w, rfl, hspare⟩
      exact (htwin.engineStep (.of_eq rfl) hp fun _ => rfl).mono fun _ _ h => h.alike

/-! ### The host's moves -/

section
variable {s : State} {w : Work} (hw : s.work.Alike s.phase w)
include hw

/-- A step that touches neither PHASE nor a working register. -/
theorem State.alike_of_same {t : State} (hphase : t.phase = s.phase) (hwork : t.work = s.work) : t.Alike (t.setWork w) :=
  ⟨w, rfl, hphase ▸ hwork ▸ hw⟩

/-- R240, R241, R245: a register write does not look at the working registers. -/
theorem writeReg_alike (r : Reg) (v : Word) :
    OutcomeLockstep State.Alike (writeReg s r v) (writeReg (s.setWork w) r v) := by
  by_cases hbusy : s.status.busy = true
  · rw [writeReg_of_busy hbusy, writeReg_of_busy (s := s.setWork w) hbusy]
    exact .next ⟨w, rfl, hw⟩
  · cases r with
    | ctrl =>
      have hreg : writeReg s .ctrl v = writeCtrl s v := if_neg hbusy
      have hreg' : writeReg (s.setWork w) .ctrl v = writeCtrl (s.setWork w) v := if_neg hbusy
      rw [hreg, hreg']
      by_cases hstart : v.getLsbD 0 = true
      · have hidle : s.status.busy = false := Bool.eq_false_iff.mpr hbusy
        rw [writeCtrl_of_start hstart, writeCtrl_of_start hstart, State.start_eq hidle,
          State.start_eq (s := s.setWork w) hidle]
        exact .next ⟨w, rfl, Work.alike_of_check rfl _ _⟩
      · rw [writeCtrl_of_no_start hstart, writeCtrl_of_no_start hstart]
        exact .next (State.alike_of_same hw rfl rfl)
    | status | errcode | imgWidth | imgHeight | imgFormat | srcBase | srcLen | dstBase | dstCap | outLen | reserved =>
      rw [writeReg.eq_def, writeReg.eq_def, if_neg hbusy, if_neg (show ¬(s.setWork w).status.busy = true from hbusy)]
      exact .next (State.alike_of_same hw rfl rfl)

/-- R71, R249: nor does a host's read of memory. -/
theorem hostRead_alike (a : Nat) : (s.hostRead a).Alike ((s.setWork w).hostRead a) := by
  by_cases hfree : (s.status.busy && s.inDestination a) = true
  · rw [State.hostRead, State.hostRead, if_pos hfree,
      if_pos (show ((s.setWork w).status.busy && (s.setWork w).inDestination a) = true from hfree)]
    exact State.alike_of_same hw rfl rfl
  · rw [State.hostRead, State.hostRead, if_neg hfree,
      if_neg (show ¬((s.setWork w).status.busy && (s.setWork w).inDestination a) = true from hfree)]
    exact State.alike_of_same hw rfl rfl

theorem hostStep_alike (m : HostMove) : OutcomeLockstep State.Alike (hostStep m s) (hostStep m (s.setWork w)) := by
  have hplat : (s.setWork w).platform = s.platform := rfl
  cases m with
  | wait => exact State.Alike.engineStep ⟨w, rfl, hw⟩
  | reset =>
    refine .next ⟨s.resetBlock.work, ?_, Work.alike_of_idle rfl _ _⟩
    rw [State.resetBlock, State.loseDestination_setWork]
    rfl
  | regWrite addr size v =>
    simp only [hostStep, hplat]
    cases windowOffset s.platform addr size with
    | some o => exact writeReg_alike hw (regAt o) v
    | none => exact .refused _
  | regRead addr size =>
    simp only [hostStep, hplat, State.readReg_setWork]
    cases windowOffset s.platform addr size with
    | some o => exact .next (State.alike_of_same hw rfl rfl)
    | none => exact .refused _
  | memWrite addr v =>
    by_cases hdeny : (s.status.busy && (s.inSource addr.toNat || s.inDestination addr.toNat)) = true
    · have hs : hostStep (.memWrite addr v) s = .refused .hostWriteWhileBusy := if_pos hdeny
      have hu : hostStep (.memWrite addr v) (s.setWork w) = .refused .hostWriteWhileBusy := if_pos hdeny
      rw [hs, hu]
      exact .refused _
    · have hs : hostStep (.memWrite addr v) s = .next _ := if_neg hdeny
      have hu : hostStep (.memWrite addr v) (s.setWork w) = .next _ := if_neg hdeny
      rw [hs, hu]
      exact .next (State.alike_of_same hw rfl rfl)
  | memRead addr => exact .next (hostRead_alike hw addr.toNat)

end

/-- R20: whoever takes the step. -/
theorem State.Alike.step {s u : State} (h : s.Alike u) :
    OutcomeLockstep State.Alike (Machine.step s) (Machine.step u) := by
  obtain ⟨w, rfl, hw⟩ := h
  cases hhost : s.host with
  | nil =>
    rw [step_of_no_host hhost, step_of_no_host (s := s.setWork w) hhost]
    exact State.Alike.engineStep ⟨w, rfl, hw⟩
  | cons m moves =>
    have hstep {t : State} (ht : t.host = m :: moves) : Machine.step t = hostStep m { t with host := moves } := by
      rw [Machine.step, moveStep, ht]
    rw [hstep hhost, hstep (t := s.setWork w) hhost]
    exact hostStep_alike (s := { s with host := moves }) hw m

end Sys2Proof.Machine

open Sys2Proof Sys2Proof.Machine

/-- Settles O54: in CHECK any working registers tell no difference, and a step keeps them such. -/
theorem oldWorkingRegistersNeverShow : Obligations.OldWorkingRegistersNeverShow := by
  unfold Obligations.OldWorkingRegistersNeverShow
  intro s prev cache lw lh lc lcs pix rp wp op k hp
  generalize hu : ({ s with prev := prev, cache := cache, lw := lw, lh := lh, lc := lc, lcs := lcs, pix := pix, rp := rp,
                            wp := wp, op := op } : State) = u
  have hstart : s.Alike u := ⟨⟨prev, cache, lw, lh, lc, lcs, pix, rp, wp, op⟩, hu.symm, Work.alike_of_check hp _ _⟩
  have hrun := run_lockstep (fun _ _ h => h.step) k hstart
  generalize core.run k s = x at hrun ⊢
  generalize core.run k u = y at hrun ⊢
  cases hrun with
  | next h =>
    obtain ⟨w, rfl, _⟩ := h
    rfl
  | fault | refused => rfl
end
